-- ==== Sys2Proof/Word.lean ====
section
/-! DEFINITION. The word types of the CTP block and the size of its offset space. -/

namespace Sys2Proof

/-- A byte (R11). -/
abbrev Byte := BitVec 8

/-- A `u32`: every length, offset, capacity and id of the block (R12, D22). -/
abbrev Word := BitVec 32

/-- Offsets into SRC and DST are 32-bit naturals: the first offset that does not exist (R38). -/
def offsetSpace : Nat := 4294967296

end Sys2Proof
end

