-- ==== Sys2Proof/Config.lean ====
section
/-! DEFINITION. The values the spec leaves open, as constants with no body: nothing can be proved of them. The two open
parameters of the block, RX_ID and LEN_MSB_FIRST (R10), are registers of the state. -/

namespace Sys2Proof

/-- DESIGN CHOICE (log 8), safe: what the caller reads at an offset of DST whose content is undefined (R57, U1). The first
argument is the index of the failure that made it undefined, the second the offset. -/
opaque Config.freeByte : Nat → Nat → Byte

/-- DESIGN CHOICE (log 9), safe: the content of a register that "holds no value" (R26, R161). -/
opaque Config.freeWord : Nat → Word

/-- DESIGN CHOICE (log 9), safe: the content of the 8-bit sequence register while it "holds no value" (R26, R161). -/
opaque Config.freeSequence : Nat → Byte

end Sys2Proof
end

