-- ==== Sys2Proof/Syntax.lean ====
section
/-! DEFINITION. The syntax: Modes, frames, errors, the operations and wire formats as one inductive (R90, R94), and what
the two ports of the block carry. -/

namespace Sys2Proof

/-- The two Modes (R6). -/
inductive Mode where
  | classic
  | extended
deriving DecidableEq, Repr

/-- A Mode's record of seven naturals (R6). -/
structure ModeRecord where
  linkCapacity : Nat
  lenFieldBytes : Nat
  startCapacity : Nat
  consecutiveCapacity : Nat
  endCapacity : Nat
  maxSequence : Nat
  maxTransfer : Nat
deriving DecidableEq, Repr

/-- The command of a FLOWCONTROL frame: Continue, Wait, Abort (R36, R76). -/
inductive FlowCommand where
  | cont
  | wait
  | abort
deriving DecidableEq, Repr

/-- A raw frame (R35): a list of exactly `length` bytes, so a byte at index `length` or beyond does not exist (U19). A list
that an 8-bit `length` cannot count is no frame (`RawFrame.wf`), and no port takes it (log 23). -/
structure RawFrame where
  id : Word
  bytes : List Byte
deriving DecidableEq, Repr

/-- The `length` that travels beside the bytes of a raw frame, eight bits (R12, R35, D22). -/
def RawFrame.length (r : RawFrame) : Byte := BitVec.ofNat 8 r.bytes.length

/-- A logical frame: the tagged union of R36. -/
inductive LogicalFrame where
  | start (total : Word) (data : List Byte)
  | consecutive (sequence : Byte) (data : List Byte)
  | endOf (data : List Byte)
  | flowControl (command : FlowCommand)
  | error (code : Byte)
deriving DecidableEq, Repr

/-- The error codes of R200, with 0x00, no error. -/
inductive ErrorCode where
  | noError
  | bufferTooSmall
  | bufferOverflow
  | sequenceMismatch
  | unknownFrameKind
  | linkTransmitFailure
  | protocolViolation
deriving DecidableEq, Repr

/-- The one value of the decoder's ParseError (R117, R204). -/
inductive ParseError where
  | unknownFrameKind
deriving DecidableEq, Repr

/-- The value of one POLL_ONCE (R37). -/
inductive StepResult where
  | pending
  | done (n : Word)
  | failed (e : ErrorCode)
deriving DecidableEq, Repr

/-- The instructions: one constructor for each row of the opcode table. The first ten are the wire formats (R72 to R77),
each a whole raw frame as its row lays it out (`ignored` holds the bytes a FLOWCONTROL or ERROR frame carries after byte 1,
R82); the last eleven are the operations (R90). `data` of SEND and SEND_TRANSFER is the space SRC, `buffer` of RECEIVE and
RECEIVE_BYTES the space DST, so neither is an operand here (R90). -/
inductive Instr where
  | startC (id : Word) (total : Byte) (data : List Byte)
  | startX (id : Word) (total : BitVec 16) (data : List Byte)
  | consecutiveC (id : Word) (sequence : Byte) (data : List Byte)
  | consecutiveX (id : Word) (sequence : Byte) (data : List Byte)
  | endC (id : Word) (data : List Byte)
  | endX (id : Word) (data : List Byte)
  | flowcontrolC (id : Word) (command : FlowCommand) (ignored : List Byte)
  | flowcontrolX (id : Word) (command : FlowCommand) (ignored : List Byte)
  | errorC (id : Word) (code : Byte) (ignored : List Byte)
  | errorX (id : Word) (code : Byte) (ignored : List Byte)
  | encStart (mode : Mode) (id : Word) (total : Word) (data : List Byte)
  | encCons (mode : Mode) (id : Word) (sequence : Byte) (data : List Byte)
  | encEnd (mode : Mode) (id : Word) (data : List Byte)
  | encFc (mode : Mode) (id : Word) (command : FlowCommand)
  | encErr (mode : Mode) (id : Word) (code : Byte)
  | decode (mode : Mode) (raw : RawFrame)
  | sendTransfer (id : Word) (len : Word) (mode : Mode)
  | send (id : Word) (len : Word) (mode : Mode)
  | pollOnce (mode : Mode)
  | receive (capacity : Word) (mode : Mode)
  | receiveBytes (length : Word) (mode : Mode)
deriving DecidableEq, Repr

/-- The operands that travel beside a command code (R90), one field for each operand name of the table. DESIGN CHOICE
(log 1): the spec gives the code eight bits and its operands no layout, so they are carried as values (D29). -/
structure Operands where
  mode : Mode := .classic
  id : Word := 0
  totalLength : Word := 0
  sequence : Byte := 0
  command : FlowCommand := .cont
  code : Byte := 0
  data : List Byte := []
  raw : RawFrame := ⟨0, []⟩
  len : Word := 0
  capacity : Word := 0
  length : Word := 0
deriving DecidableEq, Repr

/-- What the caller puts on the command port: an 8-bit command code (R92) and its operands. -/
structure Command where
  code : Byte
  operands : Operands
deriving DecidableEq, Repr

/-- What a port delivers to be decoded: a command at the command port, or a raw frame read in a Mode at the link port. -/
inductive PortWord where
  | command (c : Command)
  | frame (mode : Mode) (raw : RawFrame)
deriving DecidableEq, Repr

/-- Why a port refuses what it is given: a command code that names no operation (R92), or a frame that is no frame of the
five kinds (R81, R117; the receiver skips such a frame, R166). -/
inductive DecodeReject where
  | unknownCommand (code : Byte)
  | unparseable (e : ParseError)
deriving DecidableEq, Repr

end Sys2Proof
end

