-- ==== Sys2Proof/Machine/Modes.lean ====
section
/-! DEFINITION. The Mode table (R6 to R9): every capacity from the link capacity and the header sizes. -/

namespace Sys2Proof

/-- Total bytes of a raw frame (R7). -/
def Mode.linkCapacity : Mode → Nat
  | .classic => 8
  | .extended => 64

/-- Width of the START frame's total_length field in bytes (R7). -/
def Mode.lenFieldBytes : Mode → Nat
  | .classic => 1
  | .extended => 2

/-- Bytes of a START header: the tag and the length field (R7). -/
def Mode.startHeader (m : Mode) : Nat := 1 + m.lenFieldBytes

/-- Bytes of a CONSECUTIVE header: the tag and the sequence (R7). -/
def Mode.consecutiveHeader (_ : Mode) : Nat := 2

/-- Bytes of an END header: the tag (R7). -/
def Mode.endHeader (_ : Mode) : Nat := 1

/-- Payload bytes of a START frame: link capacity less the header (R8). -/
def Mode.startCapacity (m : Mode) : Nat := m.linkCapacity - m.startHeader

/-- Payload bytes of a CONSECUTIVE frame (R8). -/
def Mode.consecutiveCapacity (m : Mode) : Nat := m.linkCapacity - m.consecutiveHeader

/-- Payload bytes of an END frame (R8). -/
def Mode.endCapacity (m : Mode) : Nat := m.linkCapacity - m.endHeader

/-- The count of CONSECUTIVE frames a transfer may have (R7, conflict C6). -/
def Mode.maxSequence (_ : Mode) : Nat := 255

/-- The largest value of the length field (R9). -/
def Mode.maxLenField (m : Mode) : Nat := 2 ^ (8 * m.lenFieldBytes) - 1

/-- The largest payload of one transfer (R9, conflict C2). -/
def Mode.maxTransfer (m : Mode) : Nat :=
  min (m.startCapacity + m.maxSequence * m.consecutiveCapacity + m.endCapacity) m.maxLenField

/-- The Mode as its record of seven naturals (R6). -/
def Mode.record (m : Mode) : ModeRecord where
  linkCapacity := m.linkCapacity
  lenFieldBytes := m.lenFieldBytes
  startCapacity := m.startCapacity
  consecutiveCapacity := m.consecutiveCapacity
  endCapacity := m.endCapacity
  maxSequence := m.maxSequence
  maxTransfer := m.maxTransfer

end Sys2Proof
end

