-- ==== Sys2Proof/WellFormed.lean ====
section
/-! DEFINITION. Which terms of `Instr` a port can carry: a wire row's length bounds (R94) and the 8-bit `length` of a raw
frame (R35). What an operation's contract forbids (R104, R147) is no ill-formed term: the operation refuses it. -/

namespace Sys2Proof

/-- A raw frame has 0 to 255 bytes, as many as its 8-bit `length` can say (R12, R35, U10). -/
def RawFrame.wf (r : RawFrame) : Bool := r.bytes.length ≤ 255

/-- The check of one term against its row. -/
def Instr.wf : Instr → Bool
  | .startC _ _ data => data.length ≤ Mode.classic.startCapacity
  | .startX _ _ data => data.length ≤ Mode.extended.startCapacity
  | .consecutiveC _ _ data => data.length ≤ Mode.classic.consecutiveCapacity
  | .consecutiveX _ _ data => data.length ≤ Mode.extended.consecutiveCapacity
  | .endC _ data => data.length ≤ Mode.classic.endCapacity
  | .endX _ data => data.length ≤ Mode.extended.endCapacity
  | .flowcontrolC _ _ ignored => 2 + ignored.length ≤ Mode.classic.linkCapacity
  | .flowcontrolX _ _ ignored => 2 + ignored.length ≤ Mode.extended.linkCapacity
  | .errorC _ _ ignored => 2 + ignored.length ≤ Mode.classic.linkCapacity
  | .errorX _ _ ignored => 2 + ignored.length ≤ Mode.extended.linkCapacity
  | .encStart _ _ _ _ => true
  | .encCons _ _ _ _ => true
  | .encEnd _ _ _ => true
  | .encFc _ _ _ => true
  | .encErr _ _ _ => true
  | .decode _ raw => raw.wf
  | .sendTransfer _ _ _ => true
  | .send _ _ _ => true
  | .pollOnce _ => true
  | .receive _ _ => true
  | .receiveBytes _ _ => true

end Sys2Proof
end

