-- ==== Sys2Proof/Decode.lean ====
section
/-! DEFINITION. The wire formats (R70 to R83), the frame parser (R110 to R118), the decoder of both ports, and the encoder. -/

namespace Sys2Proof

/-! ### Fields -/

/-- The tag map (R71). -/
def tagStart : Byte := 0x00#8
/-- The tag map (R71). -/
def tagConsecutive : Byte := 0x01#8
/-- The tag map (R71). -/
def tagEnd : Byte := 0x02#8
/-- The tag map (R71, D2). -/
def tagFlowControl : Byte := 0x03#8
/-- The tag map (R71, D2). -/
def tagError : Byte := 0x04#8

/-- The two bytes of a 16-bit value, most significant first (`00_scope.md` section 6). -/
def be16 (v : BitVec 16) : List Byte := [v.extractLsb' 8 8, v.extractLsb' 0 8]

/-- The two bytes of a 16-bit value, least significant first. -/
def le16 (v : BitVec 16) : List Byte := [v.extractLsb' 0 8, v.extractLsb' 8 8]

/-- `lenfield(mode, v)` of `00_scope.md` section 6; the order is LEN_MSB_FIRST (R51). -/
def lenField (msbFirst : Bool) (m : Mode) (v : Word) : List Byte :=
  match m with
  | .classic => [v.setWidth 8]
  | .extended => if msbFirst then be16 (v.setWidth 16) else le16 (v.setWidth 16)

/-- Reading the length field: its value widened with zeros, and the bytes after it (R79). -/
def readLenField (msbFirst : Bool) (m : Mode) (bytes : List Byte) : Option (Word × List Byte) :=
  match m, bytes with
  | .classic, b :: rest => some (BitVec.ofNat 32 b.toNat, rest)
  | .extended, b1 :: b2 :: rest =>
    some (BitVec.ofNat 32 (if msbFirst then b1.toNat * 256 + b2.toNat else b2.toNat * 256 + b1.toNat), rest)
  | _, _ => none

/-- The command byte of a FLOWCONTROL frame (R76). -/
def flowByte : FlowCommand → Byte
  | .cont => 0x00#8
  | .wait => 0x01#8
  | .abort => 0x02#8

/-- The command a byte stands for; 0x03 to 0xFF are reserved (R82). -/
def flowCommandOf (b : Byte) : Option FlowCommand :=
  if b = 0x00#8 then some .cont
  else if b = 0x01#8 then some .wait
  else if b = 0x02#8 then some .abort
  else none

/-! ### Layouts -/

/-- START (R72, R73). -/
def layoutStart (msbFirst : Bool) (m : Mode) (total : Word) (data : List Byte) : List Byte :=
  tagStart :: (lenField msbFirst m total ++ data)

/-- CONSECUTIVE (R74). -/
def layoutConsecutive (sequence : Byte) (data : List Byte) : List Byte := tagConsecutive :: sequence :: data

/-- END (R75). -/
def layoutEnd (data : List Byte) : List Byte := tagEnd :: data

/-- FLOWCONTROL (R76). -/
def layoutFlowControl (c : FlowCommand) : List Byte := [tagFlowControl, flowByte c]

/-- ERROR (R77). -/
def layoutError (code : Byte) : List Byte := [tagError, code]

/-! ### The parser -/

/-- DECODE of a frame's bytes in a Mode (R110 to R118). All of the bytes go into the logical frame, but for those after the
second of a FLOWCONTROL or ERROR frame, which are lost (R120). The bytes an ENC operation writes are read as the frame it was
given (R119). -/
def parseFrame (msbFirst : Bool) (m : Mode) (bytes : List Byte) : Except ParseError LogicalFrame :=
  if m.linkCapacity < bytes.length then .error .unknownFrameKind
  else
    match bytes with
    | [] => .error .unknownFrameKind
    | tag :: rest =>
      if tag = tagStart then
        match readLenField msbFirst m rest with
        | some (total, data) => .ok (.start total data)
        | none => .error .unknownFrameKind
      else if tag = tagConsecutive then
        match rest with
        | sequence :: data => .ok (.consecutive sequence data)
        | [] => .error .unknownFrameKind
      else if tag = tagEnd then .ok (.endOf rest)
      else if tag = tagFlowControl then
        match rest with
        | c :: _ =>
          match flowCommandOf c with
          | some command => .ok (.flowControl command)
          | none => .error .unknownFrameKind
        | [] => .error .unknownFrameKind
      else if tag = tagError then
        match rest with
        | code :: _ => .ok (.error code)
        | [] => .error .unknownFrameKind
      else .error .unknownFrameKind

/-! ### The decoder -/

/-- The wire row a raw frame is of, in a Mode (R94). -/
def decodeFrame (msbFirst : Bool) (m : Mode) (raw : RawFrame) : Except DecodeReject Instr :=
  match parseFrame msbFirst m raw.bytes with
  | .error e => .error (.unparseable e)
  | .ok f =>
    .ok <| match m, f with
      | .classic, .start total data => .startC raw.id (total.setWidth 8) data
      | .extended, .start total data => .startX raw.id (total.setWidth 16) data
      | .classic, .consecutive sequence data => .consecutiveC raw.id sequence data
      | .extended, .consecutive sequence data => .consecutiveX raw.id sequence data
      | .classic, .endOf data => .endC raw.id data
      | .extended, .endOf data => .endX raw.id data
      | .classic, .flowControl command => .flowcontrolC raw.id command (raw.bytes.drop 2)
      | .extended, .flowControl command => .flowcontrolX raw.id command (raw.bytes.drop 2)
      | .classic, .error code => .errorC raw.id code (raw.bytes.drop 2)
      | .extended, .error code => .errorX raw.id code (raw.bytes.drop 2)

/-- The operation a command names (R92); codes 0x0B to 0xFF are refused. -/
def decodeCommand (c : Command) : Except DecodeReject Instr :=
  let o := c.operands
  match c.code.toNat with
  | 0x00 => .ok (.encStart o.mode o.id o.totalLength o.data)
  | 0x01 => .ok (.encCons o.mode o.id o.sequence o.data)
  | 0x02 => .ok (.encEnd o.mode o.id o.data)
  | 0x03 => .ok (.encFc o.mode o.id o.command)
  | 0x04 => .ok (.encErr o.mode o.id o.code)
  | 0x05 => .ok (.decode o.mode o.raw)
  | 0x06 => .ok (.sendTransfer o.id o.len o.mode)
  | 0x07 => .ok (.send o.id o.len o.mode)
  | 0x08 => .ok (.pollOnce o.mode)
  | 0x09 => .ok (.receive o.capacity o.mode)
  | 0x0A => .ok (.receiveBytes o.length o.mode)
  | _ => .error (.unknownCommand c.code)

/-- The decoder of both ports. -/
def decode (msbFirst : Bool) : PortWord → Except DecodeReject Instr
  | .command c => decodeCommand c
  | .frame m raw => decodeFrame msbFirst m raw

/-! ### The encoder -/

/-- What a port carries for an instruction: the raw frame of a wire row (R72 to R77), the command of an operation (R92). -/
def encode (msbFirst : Bool) : Instr → PortWord
  | .startC id total data => .frame .classic ⟨id, layoutStart msbFirst .classic (total.setWidth 32) data⟩
  | .startX id total data => .frame .extended ⟨id, layoutStart msbFirst .extended (total.setWidth 32) data⟩
  | .consecutiveC id sequence data => .frame .classic ⟨id, layoutConsecutive sequence data⟩
  | .consecutiveX id sequence data => .frame .extended ⟨id, layoutConsecutive sequence data⟩
  | .endC id data => .frame .classic ⟨id, layoutEnd data⟩
  | .endX id data => .frame .extended ⟨id, layoutEnd data⟩
  | .flowcontrolC id command ignored => .frame .classic ⟨id, layoutFlowControl command ++ ignored⟩
  | .flowcontrolX id command ignored => .frame .extended ⟨id, layoutFlowControl command ++ ignored⟩
  | .errorC id code ignored => .frame .classic ⟨id, layoutError code ++ ignored⟩
  | .errorX id code ignored => .frame .extended ⟨id, layoutError code ++ ignored⟩
  | .encStart mode id total data => .command ⟨0x00#8, { mode := mode, id := id, totalLength := total, data := data }⟩
  | .encCons mode id sequence data => .command ⟨0x01#8, { mode := mode, id := id, sequence := sequence, data := data }⟩
  | .encEnd mode id data => .command ⟨0x02#8, { mode := mode, id := id, data := data }⟩
  | .encFc mode id command => .command ⟨0x03#8, { mode := mode, id := id, command := command }⟩
  | .encErr mode id code => .command ⟨0x04#8, { mode := mode, id := id, code := code }⟩
  | .decode mode raw => .command ⟨0x05#8, { mode := mode, raw := raw }⟩
  | .sendTransfer id len mode => .command ⟨0x06#8, { id := id, len := len, mode := mode }⟩
  | .send id len mode => .command ⟨0x07#8, { id := id, len := len, mode := mode }⟩
  | .pollOnce mode => .command ⟨0x08#8, { mode := mode }⟩
  | .receive capacity mode => .command ⟨0x09#8, { capacity := capacity, mode := mode }⟩
  | .receiveBytes length mode => .command ⟨0x0A#8, { length := length, mode := mode }⟩

/-! ### The table's numbering -/

/-- The command the table's bits stand for: bits 7..0 are the command code and every operand is zero. DESIGN CHOICE (log 1):
the rows of the table are read at the command port; a wire row's tag has the same eight bits as a command code and is read
at the link port, in a Mode, by `decodeFrame`. -/
def tableCommand (_nbits w : Nat) : Command := ⟨BitVec.ofNat 8 w, {}⟩

/-- The instruction the command port reads from a row's bits. -/
def decodeTableWord (nbits w : Nat) : Option Instr :=
  match decodeCommand (tableCommand nbits w) with
  | .ok i => some i
  | .error _ => none

end Sys2Proof
end

