-- ==== Sys2Proof/Machine/State.lean ====
section
/-! DEFINITION. The state of the block and of what stands around it, as plain data; why a step stops; reset. -/

namespace Sys2Proof.Machine

/-- `RX.state` (R22). -/
inductive RxState where
  | idle
  | awaitingStart
  | awaitingMore
  | done
  | failed
deriving DecidableEq, Repr

/-- `TX.phase` (R29). -/
inductive TxPhase where
  | idle
  | start
  | body
  | done
  | failed
deriving DecidableEq, Repr

/-- Which receive operation the receiver runs (R160, R184). The model's own control register (log 14). -/
inductive RxOp where
  | receive
  | receiveBytes
deriving DecidableEq, Repr

/-- Which send operation the sender runs (R130, R140). The model's own control register (log 14). -/
inductive TxOp where
  | sendTransfer
  | send
deriving DecidableEq, Repr

/-- The two engines (R2, `00_scope.md` section 7). -/
inductive Engine where
  | sender
  | receiver
deriving DecidableEq, Repr

/-- The receiver's registers: R22, R23, R27, R28, R30. -/
structure Receiver where
  state : RxState
  started : Bool
  totalLength : Word
  receivedLength : Word
  expectedSequence : Byte
  resultLen : Word
  error : ErrorCode
  mode : Mode
  capacity : Word
  base : Word
  rbLength : Word
  rbAccumulated : Word
  op : RxOp
deriving DecidableEq, Repr

/-- The sender's registers: R29, R30. -/
structure Sender where
  phase : TxPhase
  id : Word
  base : Word
  total : Word
  sent : Word
  seq : Byte
  msgLen : Word
  msgOff : Word
  resultLen : Word
  error : ErrorCode
  mode : Mode
  op : TxOp
deriving DecidableEq, Repr

/-- The two parameters of the block (R10, R30). No step writes them. -/
structure Params where
  rxId : Word
  lenMsbFirst : Bool
deriving DecidableEq, Repr

/-- A byte space: the listed bytes, offsets strictly rising, no entry equal to what an unlisted offset reads as. -/
abbrev Memory := List Host.Cell

/-- Offsets `lo` to `hi - 1` of DST, undefined to the caller since the failure or the abandonment of index `stamp` (R57, R231,
U1; log 8). -/
structure Region where
  lo : Nat
  hi : Nat
  stamp : Nat
deriving DecidableEq, Repr

/-- Which Link Adapter is attached: the loopback adapter of R221, or a driver whose answers are the environment's (R218). -/
inductive Adapter where
  | loopback
  | driver
deriving DecidableEq, Repr

/-- The Link Adapter as the block meets it: its queue of received frames, oldest first (R39, R219); the answer a driver gives
to LinkTransmit (R218, U9); the frames it has accepted for sending, oldest first (log 21). -/
structure Link where
  adapter : Adapter
  queue : List RawFrame
  answer : Bool
  sent : List RawFrame
deriving DecidableEq, Repr

/-- The value the last codec operation returned to its caller (R90; log 13). -/
inductive CodecResult where
  | raw (r : RawFrame)
  | logical (f : LogicalFrame)
  | parseError (e : ParseError)
deriving DecidableEq, Repr

/-- One event of the environment's script (log 2): the caller issues its next operation, an engine takes a step, reset
occurs (R230), the caller abandons the operation an engine runs (R178, R231; log 28), the environment sets the adapter's
queue and answer (U9, U10), the caller stores a byte in a buffer of its own or reads one of DST (R61, R243; log 20). -/
inductive Turn where
  | caller
  | sender
  | receiver
  | reset
  | abandon (engine : Engine)
  | link (queue : List RawFrame) (answer : Bool)
  | writeSrc (off : Word) (b : Byte)
  | writeDst (off : Word) (b : Byte)
  | readDst (off : Word)
deriving DecidableEq, Repr

/-- Everything the spec gives the block, the two buffers, the adapter, the ports (`dstRead` holds the byte the
caller's last read of DST returned, log 20); `turns` and `free` are the model's own (log 2, log 10). -/
structure State where
  rx : Receiver
  tx : Sender
  params : Params
  src : Memory
  dst : Memory
  dstUndefined : List Region
  link : Link
  commands : List Command
  codec : Option CodecResult
  poll : Option StepResult
  dstRead : Option Byte
  turns : List Turn
  free : Nat
deriving DecidableEq, Repr

/-- Why the machine stops with a fault. -/
inductive Fault where
  /-- Raised by a sender step whose chunk would lie at or beyond offset 2^32 of SRC, which does not exist (R38). Safe: no
  state the invariant allows reaches it (log 18). -/
  | srcOffset
  /-- Raised by a receiver step whose store would lie at or beyond offset 2^32 of DST, which does not exist (R38). Safe: no
  state the invariant allows reaches it (log 18). -/
  | dstOffset
deriving DecidableEq, Repr

/-- Why a call is refused: no effect, no error code. Each is the spec's own refusal (R207), but `frameTooLong`, which is the
port's (log 23). All are safe. -/
inductive Refusal where
  /-- An instruction without a meaning yet. -/
  | notModelled (mnemonic : String)
  /-- A command code that names no operation (R92), raised by the command port. -/
  | unknownCommand (code : Byte)
  /-- An ENC call, or a sender's, that breaks the encoder's contract (R104, U3, U4). -/
  | encContract
  /-- SEND_TRANSFER beyond `max_transfer` (R147, U5). -/
  | transferTooLong
  /-- More bytes than an 8-bit `length` can say (R12, U10; log 23): no raw frame, whichever port it is given to. Raised by the
  environment's event on the link, by a wire row and by DECODE. -/
  | frameTooLong
  /-- A sender operation issued to a busy sender (R66, U6). -/
  | senderBusy
  /-- A receiver operation issued to a busy receiver (R66, U6). -/
  | receiverBusy
  /-- POLL_ONCE outside a live state (R162, U6). -/
  | pollNotLive
  /-- POLL_ONCE in another Mode than the one the receive latched (R162; log 16). -/
  | pollMode
  /-- The caller's write to SRC during a send (R64, U21). -/
  | sourceInUse
  /-- The caller's write to DST, or its read of it, during a receive (R61, R243, U21). -/
  | destinationInUse
deriving DecidableEq, Repr

/-- The three outcomes of a step of this machine. -/
abbrev Result := Host.Outcome State Fault Refusal

/-! ### The updates every meaning is made of -/

/-- The state with other receiver registers. -/
def State.setRx (s : State) (rx : Receiver) : State := { s with rx := rx }
/-- The state with other sender registers. -/
def State.setTx (s : State) (tx : Sender) : State := { s with tx := tx }
/-- The state with another source buffer. -/
def State.setSrc (s : State) (m : Memory) : State := { s with src := m }
/-- The state with another destination buffer and other undefined regions of it. -/
def State.setDst (s : State) (m : Memory) (u : List Region) : State := { s with dst := m, dstUndefined := u }
/-- The state with another adapter. -/
def State.setLink (s : State) (l : Link) : State := { s with link := l }
/-- The state with other commands pending at the command port. -/
def State.setCommands (s : State) (c : List Command) : State := { s with commands := c }
/-- The state with another codec result. -/
def State.setCodec (s : State) (r : CodecResult) : State := { s with codec := some r }
/-- The state with another StepResult. -/
def State.setPoll (s : State) (r : StepResult) : State := { s with poll := some r }
/-- The state with another byte returned by the caller's read of DST. -/
def State.setDstRead (s : State) (b : Byte) : State := { s with dstRead := some b }
/-- The state with other turns to come. -/
def State.setTurns (s : State) (t : List Turn) : State := { s with turns := t }
/-- The state with another index for the next free value. -/
def State.setFree (s : State) (n : Nat) : State := { s with free := n }

/-! ### Reset -/

/-- The receiver after reset: `Idle`, not started (R40); the data registers are zero by log 4. -/
def Receiver.reset : Receiver where
  state := .idle
  started := false
  totalLength := 0
  receivedLength := 0
  expectedSequence := 0
  resultLen := 0
  error := .noError
  mode := .classic
  capacity := 0
  base := 0
  rbLength := 0
  rbAccumulated := 0
  op := .receive

/-- The sender after reset: `Idle` (R40); the data registers are zero by log 4. -/
def Sender.reset : Sender where
  phase := .idle
  id := 0
  base := 0
  total := 0
  sent := 0
  seq := 0
  msgLen := 0
  msgOff := 0
  resultLen := 0
  error := .noError
  mode := .classic
  op := .sendTransfer

/-- The block right after reset (R40, R230), nothing listed in its buffers, the start state of the spec's own programs
(`95_test_vectors.md` section 6): log 4 to log 7 name every value the spec does not give. -/
def State.reset : State where
  rx := Receiver.reset
  tx := Sender.reset
  params := { rxId := 0x123#32, lenMsbFirst := true }
  src := []
  dst := []
  dstUndefined := []
  link := { adapter := .loopback, queue := [], answer := true, sent := [] }
  commands := []
  codec := none
  poll := none
  dstRead := none
  turns := []
  free := 0

end Sys2Proof.Machine
end

