-- ==== Sys2Proof/Machine/Flags.lean ====
section
/-! DEFINITION. The status conditions of R31: which states of the engines are live, busy or ended. The block has no other
flag. -/

namespace Sys2Proof.Machine

/-- A receive operation is in progress: the receiver's live states (R22, R162). -/
def Receiver.live (r : Receiver) : Bool := r.state = .awaitingStart || r.state = .awaitingMore

/-- A send operation is in progress (R66, R137). -/
def Sender.busy (t : Sender) : Bool := t.phase = .start || t.phase = .body

/-- The receive operation has ended: `RX.state ∈ {Done, Failed}` (R31). -/
def Receiver.ended (r : Receiver) : Bool := r.state = .done || r.state = .failed

/-- The send operation has ended: `TX.phase ∈ {Done, Failed}` (R31). -/
def Sender.ended (t : Sender) : Bool := t.phase = .done || t.phase = .failed

/-- What the ended receive operation returns: `Ok(received_length)` or `Err(e)` (R27, R160, R184). -/
def Receiver.result (r : Receiver) : Option (Except ErrorCode Word) :=
  match r.state with
  | .done => some (.ok r.resultLen)
  | .failed => some (.error r.error)
  | .idle | .awaitingStart | .awaitingMore => none

/-- What the ended send operation returns: `Ok(bytes_sent)` or `Err(LinkTransmitFailure)` (R135, R144). -/
def Sender.result (t : Sender) : Option (Except ErrorCode Word) :=
  match t.phase with
  | .done => some (.ok t.resultLen)
  | .failed => some (.error t.error)
  | .idle | .start | .body => none

/-- The numeric code of an error (R200, D16). -/
def errorByte : ErrorCode → Byte
  | .noError => 0x00#8
  | .bufferTooSmall => 0x01#8
  | .bufferOverflow => 0x02#8
  | .sequenceMismatch => 0x03#8
  | .unknownFrameKind => 0x04#8
  | .linkTransmitFailure => 0x05#8
  | .protocolViolation => 0x06#8

end Sys2Proof.Machine
end

