-- ==== Sys2Proof/Machine/Operands.lean ====
section
/-! DEFINITION. The operand forms: the encoder's contract, the one addressing mode (base plus running count, R53), the bytes
a transfer still lacks, and the raw frames the codec builds. -/

namespace Sys2Proof.Machine

/-- The contract of ENC.START (R101, R104): the chunk fits the frame and the total fits the length field. -/
def startContract (m : Mode) (total : Word) (data : List Byte) : Bool :=
  data.length ≤ m.startCapacity && total.toNat ≤ m.maxLenField

/-- The contract of ENC.CONS (R102, R104). -/
def consecutiveContract (m : Mode) (data : List Byte) : Bool := data.length ≤ m.consecutiveCapacity

/-- The contract of ENC.END (R103, R104). -/
def endContract (m : Mode) (data : List Byte) : Bool := data.length ≤ m.endCapacity

/-- The frame of ENC.START (R101); none where the contract is broken. -/
def startFrame (msbFirst : Bool) (m : Mode) (id total : Word) (data : List Byte) : Option RawFrame :=
  if startContract m total data then some ⟨id, layoutStart msbFirst m total data⟩ else none

/-- The frame of ENC.CONS (R102); none where the contract is broken. -/
def consecutiveFrame (m : Mode) (id : Word) (sequence : Byte) (data : List Byte) : Option RawFrame :=
  if consecutiveContract m data then some ⟨id, layoutConsecutive sequence data⟩ else none

/-- The frame of ENC.END (R103); none where the contract is broken. -/
def endFrame (m : Mode) (id : Word) (data : List Byte) : Option RawFrame :=
  if endContract m data then some ⟨id, layoutEnd data⟩ else none

/-- Where the sender reads: `TX.base + TX.sent` (R53). -/
def Sender.address (t : Sender) : Nat := t.base.toNat + t.sent.toNat

/-- Payload bytes of the current transfer not yet sent: `TX.total − TX.sent` (R132). -/
def Sender.remaining (t : Sender) : Nat := t.total.toNat - t.sent.toNat

/-- Where the receiver stores the next payload: `RX.base + RX.received_length` (R53). -/
def Receiver.address (r : Receiver) : Nat := r.base.toNat + r.receivedLength.toNat

/-- The bytes the transfer still lacks: `RX.total_length − RX.received_length` (R173). -/
def Receiver.bytesLeft (r : Receiver) : Nat := r.totalLength.toNat - r.receivedLength.toNat

/-- How many bytes of DST, from offset 0 on, the receive operation in progress has stored: those of the inner transfers that
RECEIVE_BYTES has collected (R184, R185), and those of the transfer that has started (R181). -/
def Receiver.storedEnd (r : Receiver) : Nat :=
  (match r.op with
    | .receive => 0
    | .receiveBytes => r.rbAccumulated.toNat) +
  if r.started then r.receivedLength.toNat else 0

/-- The bytes a START frame stores: `min(len(data), total)` (R168). -/
def startStored (total : Word) (data : List Byte) : Nat := min data.length total.toNat

/-- The room left for the next inner receive of RECEIVE_BYTES (R186). -/
def Receiver.room (r : Receiver) : Nat := r.rbLength.toNat - r.rbAccumulated.toNat

/-- A count held in a 32-bit register. -/
def word (n : Nat) : Word := BitVec.ofNat 32 n

end Sys2Proof.Machine
end

