-- ==== Sys2Proof/Machine/Ops.lean ====
section
/-! DEFINITION. The named operations: the byte spaces, MemRead and MemWrite, LinkTransmit and LinkPoll, the one operation
that raises an error, abandoning an operation, reset, and what the environment does between steps. -/

namespace Sys2Proof.Machine

/-! ### Byte spaces -/

/-- What an unlisted offset of SRC or DST reads as. DESIGN CHOICE (log 7), unsafe: the caller owns both, the spec gives no
contents. -/
def unlistedByte : Byte := 0

/-- The canonical form of a byte space. -/
abbrev Memory.wf (m : Memory) : Prop :=
  m.Pairwise (fun x y => x.1 < y.1) ∧ ∀ c ∈ m, c.2 ≠ unlistedByte

/-- Read one byte. -/
def Memory.read : Memory → Nat → Byte
  | [], _ => unlistedByte
  | (k, v) :: r, a => if a = k then v else Memory.read r a

/-- Store one byte, keeping the canonical form. -/
def Memory.write : Memory → Nat → Byte → Memory
  | [], a, v => if v = unlistedByte then [] else [(a, v)]
  | (k, w) :: r, a, v =>
    if a < k then (if v = unlistedByte then (k, w) :: r else (a, v) :: (k, w) :: r)
    else if a = k then (if v = unlistedByte then r else (a, v) :: r)
    else (k, w) :: Memory.write r a v

/-- Store bytes at rising offsets: the same as single-byte stores (R52). -/
def Memory.writeBytes : Memory → Nat → List Byte → Memory
  | m, _, [] => m
  | m, a, b :: bs => Memory.writeBytes (Memory.write m a b) (a + 1) bs

/-- Read bytes at rising offsets: the same as single-byte reads (R52). -/
def Memory.readBytes (m : Memory) : Nat → Nat → List Byte
  | _, 0 => []
  | a, n + 1 => Memory.read m a :: Memory.readBytes m (a + 1) n

/-! ### The undefined regions of DST (R57) -/

/-- One region less the offsets `lo` to `hi - 1`. -/
def Region.minus (lo hi : Nat) (r : Region) : List Region :=
  (if r.lo < min r.hi lo then [{ r with hi := min r.hi lo }] else []) ++
    (if max r.lo hi < r.hi then [{ r with lo := max r.lo hi }] else [])

/-- Regions less the offsets `lo` to `hi - 1`, which a store has just defined. -/
def Region.minusAll (lo hi : Nat) : List Region → List Region
  | [] => []
  | r :: rs => Region.minus lo hi r ++ Region.minusAll lo hi rs

/-- The failure or abandonment that left an offset undefined, if any. -/
def Region.find : List Region → Nat → Option Nat
  | [], _ => none
  | r :: rs, a => if r.lo ≤ a ∧ a < r.hi then some r.stamp else Region.find rs a

/-- The byte the caller finds at an offset of DST once it may read it: a free value where its content is undefined to the
caller (R57, R231, U1; log 8), the stored byte elsewhere. The read itself is `readDstEvent`. -/
def State.readDst (s : State) (a : Nat) : Byte :=
  match Region.find s.dstUndefined a with
  | some stamp => Config.freeByte stamp a
  | none => Memory.read s.dst a

/-- What the sender and the caller read at an offset of SRC. -/
def State.readSrc (s : State) (a : Nat) : Byte := Memory.read s.src a

/-- The offsets `lo` to `hi - 1` of DST become undefined to the caller; the bytes stored there stay (R57, R231). -/
def markUndefined (lo hi : Nat) (s : State) : State :=
  if hi ≤ lo then s else (s.setDst s.dst (⟨lo, hi, s.free⟩ :: s.dstUndefined)).setFree (s.free + 1)

/-! ### MemRead, MemWrite (R53) -/

/-- `MemRead(SRC, off, n)`; none where an offset does not exist (R38). -/
def memReadSrc (s : State) (off n : Nat) : Option (List Byte) :=
  if n = 0 ∨ off + n ≤ offsetSpace then some (Memory.readBytes s.src off n) else none

/-- `MemWrite(DST, off, len(v), v)`; none where an offset does not exist (R38). -/
def memWriteDst (s : State) (off : Nat) (v : List Byte) : Option State :=
  if v = [] then some s
  else if off + v.length ≤ offsetSpace then
    some (s.setDst (Memory.writeBytes s.dst off v) (Region.minusAll off (off + v.length) s.dstUndefined))
  else none

/-! ### The Link Adapter (R218, R219, R221) -/

/-- `LinkTransmit`: the adapter's answer and the adapter after it. -/
def linkTransmit (raw : RawFrame) (s : State) : Bool × State :=
  match s.link.adapter with
  | .loopback => (true, s.setLink { s.link with queue := s.link.queue ++ [raw], sent := s.link.sent ++ [raw] })
  | .driver =>
    (s.link.answer, if s.link.answer then s.setLink { s.link with sent := s.link.sent ++ [raw] } else s)

/-- `LinkPoll`: the oldest received frame, removed from the adapter, or none. -/
def linkPoll (s : State) : Option RawFrame × State :=
  match s.link.queue with
  | [] => (none, s)
  | raw :: rest => (some raw, s.setLink { s.link with queue := rest })

/-! ### Errors (R210): the one operation that raises one. There is no return from an error (R214). -/

/-- `raise E` in a step of an engine (R210). In the receiver the caller's buffer, `DST[RX.base .. RX.base + RX.capacity)`,
becomes undefined after every error but BufferTooSmall (R57, R211). -/
def raise (engine : Engine) (e : ErrorCode) (s : State) : State :=
  match engine with
  | .sender => s.setTx { s.tx with phase := .failed, error := e }
  | .receiver =>
    let t :=
      if e = .bufferTooSmall then s
      else markUndefined s.rx.base.toNat (s.rx.base.toNat + s.rx.capacity.toNat) s
    (t.setRx { t.rx with state := .failed, error := e }).setPoll (.failed e)

/-! ### Abandoned operations, reset and the environment's events -/

/-- The operation an engine runs is abandoned without a result (R178, R231; log 28): the engine is idle, its registers at the
values of `State.reset` (log 19). What was sent, what waits in the adapter and the other engine stay; the bytes an abandoned
receive has stored stay too, undefined to the caller. Where the engine runs no operation there is nothing to abandon. -/
def abandon (engine : Engine) (s : State) : State :=
  match engine with
  | .sender => if s.tx.busy then s.setTx Sender.reset else s
  | .receiver => if s.rx.live then (markUndefined 0 s.rx.storedEnd s).setRx Receiver.reset else s

/-- Reset as an event (R230): every operation in progress is abandoned, with the traces it would leave if the caller
abandoned it (R231); both engines are idle, the data registers at the values of `State.reset` and the ports empty (log 19). -/
def resetEvent (s : State) : State :=
  { abandon .receiver (abandon .sender s) with
    rx := Receiver.reset, tx := Sender.reset, codec := none, poll := none, dstRead := none }

/-- A raw frame enters the block, with what it then does, only where an 8-bit `length` can count its bytes (R12, U10; log 23).
-/
def takeFrame (raw : RawFrame) (r : Result) : Result := if raw.wf then r else .refused .frameTooLong

/-- The environment sets what the adapter will return and answer next: any frames (U9, U10). DESIGN CHOICE (log 30): it may do
so to the loopback adapter too, whose queue the rules feed by LinkTransmit alone (R221). -/
def linkEvent (queue : List RawFrame) (answer : Bool) (s : State) : Result :=
  if queue.all RawFrame.wf then .next (s.setLink { s.link with queue := queue, answer := answer })
  else .refused .frameTooLong

/-- The caller stores a byte in its source buffer: no meaning during a send (R64, U21). -/
def writeSrcEvent (off : Word) (b : Byte) (s : State) : Result :=
  if s.tx.busy then .refused .sourceInUse else .next (s.setSrc (Memory.write s.src off.toNat b))

/-- The caller stores a byte in its destination buffer: no meaning during a receive (R61, U21). -/
def writeDstEvent (off : Word) (b : Byte) (s : State) : Result :=
  if s.rx.live then .refused .destinationInUse
  else
    .next (s.setDst (Memory.write s.dst off.toNat b) (Region.minusAll off.toNat (off.toNat + 1) s.dstUndefined))

/-- The caller reads a byte of its destination buffer: no meaning during a receive (R61, R243, U21; log 20). -/
def readDstEvent (off : Word) (s : State) : Result :=
  if s.rx.live then .refused .destinationInUse else .next (s.setDstRead (s.readDst off.toNat))

/-! ### Fetching -/

/-- Whose turn it is (log 2): the script's next event; with no script, the single-threaded order of the spec's calls (R60):
a send in progress, then a receive in progress, then the caller. -/
def State.nextTurn (s : State) : Turn :=
  match s.turns with
  | t :: _ => t
  | [] => if s.tx.busy then .sender else if s.rx.live then .receiver else .caller

/-- The command at the port, if any, and the port after it. -/
def fetchCommand (s : State) : Option (Command × State) :=
  match s.commands with
  | [] => none
  | c :: rest => some (c, s.setCommands rest)

/-- The state with an instruction's table bits at the command port and the caller's turn next (log 3). -/
def placeCommand (s : State) (nbits w : Nat) : State :=
  (s.setCommands (tableCommand nbits w :: s.commands)).setTurns (.caller :: s.turns)

end Sys2Proof.Machine
end

