-- ==== Sys2Proof/Machine/Codec.lean ====
section
/-! DEFINITION. The Frame Codec's operations (R100 to R108, R110 to R121): each returns a value on the codec port and
touches nothing else. -/

namespace Sys2Proof.Machine

/-- An ENC operation returns its frame, or is refused where its contract is broken (R104). -/
def returnFrame (raw : Option RawFrame) (s : State) : Result :=
  match raw with
  | some r => .next (s.setCodec (.raw r))
  | none => .refused .encContract

/-- ENC.START (R101). -/
def execEncStart (mode : Mode) (id total : Word) (data : List Byte) (s : State) : Result :=
  returnFrame (startFrame s.params.lenMsbFirst mode id total data) s

/-- ENC.CONS (R102). -/
def execEncCons (mode : Mode) (id : Word) (sequence : Byte) (data : List Byte) (s : State) : Result :=
  returnFrame (consecutiveFrame mode id sequence data) s

/-- ENC.END (R103). -/
def execEncEnd (mode : Mode) (id : Word) (data : List Byte) (s : State) : Result :=
  returnFrame (endFrame mode id data) s

/-- ENC.FC (R106). -/
def execEncFc (_mode : Mode) (id : Word) (command : FlowCommand) (s : State) : Result :=
  returnFrame (some ⟨id, layoutFlowControl command⟩) s

/-- ENC.ERR (R107). -/
def execEncErr (_mode : Mode) (id : Word) (code : Byte) (s : State) : Result :=
  returnFrame (some ⟨id, layoutError code⟩) s

/-- DECODE (R110 to R118): total on raw frames, the ParseError is a value. -/
def execDecode (mode : Mode) (raw : RawFrame) (s : State) : Result :=
  takeFrame raw <|
    match parseFrame s.params.lenMsbFirst mode raw.bytes with
    | .ok f => .next (s.setCodec (.logical f))
    | .error e => .next (s.setCodec (.parseError e))

end Sys2Proof.Machine
end

