-- ==== Sys2Proof/Machine/Segmentation.lean ====
section
/-! DEFINITION. The Segmentation Engine (R130 to R147): SEND_TRANSFER and SEND are issued by their instruction and then run
one frame a step (R137). -/

namespace Sys2Proof.Machine

/-- The registers of a fresh transfer of `total` bytes at offset `base` of SRC (R130, R137). -/
def beginTransfer (base total : Nat) (t : Sender) : Sender :=
  { t with phase := .start, base := word base, total := word total, sent := 0, seq := 0 }

/-- The bytes of the next transfer of a message of which `off` bytes are done: `min(len − off, max_transfer)` (R140). -/
def nextSlice (mode : Mode) (len off : Nat) : Nat := min (len - off) mode.maxTransfer

/-- A transfer has been sent whole: SEND_TRANSFER is done (R135); SEND goes on with the next slice, or is done (R140, R144;
log 15). DESIGN CHOICE (log 29): an inner transfer of SEND leaves `TX.result_len` unwritten; the last slice writes the
message's length. -/
def finishTransfer (t : Sender) : Sender :=
  match t.op with
  | .sendTransfer => { t with phase := .done, resultLen := t.total }
  | .send =>
    let off := t.msgOff.toNat + t.total.toNat
    let t' := { t with msgOff := word off }
    if t.msgLen.toNat ≤ off then { t' with phase := .done, resultLen := t.msgLen }
    else beginTransfer off (nextSlice t.mode t.msgLen.toNat off) t'

/-- The sender after a frame has gone: the transfer is finished when all of it is sent, else frames remain (R137). -/
def afterFrame (t : Sender) : Sender :=
  if t.sent = t.total then finishTransfer t else { t with phase := .body }

/-- Hand a frame to the link: `after` are the registers if the link takes it, else the error of R136. -/
def transmit (raw : Option RawFrame) (after : Sender) (s : State) : Result :=
  match raw with
  | none => .refused .encContract
  | some r =>
    match linkTransmit r s with
    | (true, t) => .next (t.setTx (afterFrame after))
    | (false, t) => .next (raise .sender .linkTransmitFailure t)

/-- The step in phase Start: the START frame (R131). -/
def sendStartFrame (s : State) : Result :=
  let c := min s.tx.total.toNat s.tx.mode.startCapacity
  match memReadSrc s s.tx.base.toNat c with
  | none => .fault .srcOffset
  | some data =>
    transmit (startFrame s.params.lenMsbFirst s.tx.mode s.tx.id s.tx.total data) { s.tx with sent := word c } s

/-- The step in phase Body: one END frame if the rest fits it, else one CONSECUTIVE frame (R132, R134). -/
def sendBodyFrame (s : State) : Result :=
  let rem := s.tx.remaining
  if rem ≤ s.tx.mode.endCapacity then
    match memReadSrc s s.tx.address rem with
    | none => .fault .srcOffset
    | some data => transmit (endFrame s.tx.mode s.tx.id data) { s.tx with sent := s.tx.total } s
  else
    let c := s.tx.mode.consecutiveCapacity
    match memReadSrc s s.tx.address c with
    | none => .fault .srcOffset
    | some data =>
      transmit (consecutiveFrame s.tx.mode s.tx.id s.tx.seq data)
        { s.tx with sent := word (s.tx.sent.toNat + c), seq := s.tx.seq + 1 } s

/-- One step of the sender (R137); the phases Idle, Done and Failed have none, and the turn passes. -/
def senderStep (s : State) : Result :=
  match s.tx.phase with
  | .start => sendStartFrame s
  | .body => sendBodyFrame s
  | .idle | .done | .failed => .next s

/-- SEND_TRANSFER is issued (R130, R137): refused to a busy sender (R66) and beyond `max_transfer` (R147). -/
def execSendTransfer (id len : Word) (mode : Mode) (s : State) : Result :=
  if s.tx.busy then .refused .senderBusy
  else if mode.maxTransfer < len.toNat then .refused .transferTooLong
  else .next (s.setTx (beginTransfer 0 len.toNat { s.tx with id := id, mode := mode, op := .sendTransfer }))

/-- SEND is issued (R140): refused to a busy sender only (R147). -/
def execSend (id len : Word) (mode : Mode) (s : State) : Result :=
  if s.tx.busy then .refused .senderBusy
  else
    .next (s.setTx (beginTransfer 0 (nextSlice mode len.toNat 0)
      { s.tx with id := id, mode := mode, op := .send, msgLen := len, msgOff := 0 }))

end Sys2Proof.Machine
end

