-- ==== Sys2Proof/Machine/Reassembly.lean ====
section
/-! DEFINITION. The Reassembly Engine (R160 to R189): RECEIVE and RECEIVE_BYTES are issued by their instruction and then run
one LinkPoll a step; POLL_ONCE is that step, driven by the caller. -/

namespace Sys2Proof.Machine

/-- The start of a receive (R161): the operands latched, the transfer state created empty, its registers holding free values
until a START frame is accepted (log 9). -/
def beginReceive (base capacity : Nat) (mode : Mode) (s : State) : State :=
  (s.setRx { s.rx with
    state := .awaitingStart, started := false, mode := mode, base := word base, capacity := word capacity,
    totalLength := Config.freeWord s.free, receivedLength := Config.freeWord (s.free + 1),
    expectedSequence := Config.freeSequence s.free }).setFree (s.free + 2)

/-- `succeed n` (R162, R179); in RECEIVE_BYTES the inner result is added and the next inner receive starts, until the
message is whole (R184 to R187; log 15). -/
def succeed (n : Word) (s : State) : State :=
  let t := (s.setRx { s.rx with state := .done, resultLen := n }).setPoll (.done n)
  match s.rx.op with
  | .receive => t
  | .receiveBytes =>
    let acc := s.rx.rbAccumulated.toNat + n.toNat
    if s.rx.rbLength.toNat ≤ acc then t.setRx { t.rx with rbAccumulated := word acc, resultLen := word acc }
    else
      beginReceive acc (s.rx.rbLength.toNat - acc) s.rx.mode (t.setRx { t.rx with rbAccumulated := word acc })

/-- The step returns Pending (R163). -/
def pending (s : State) : State := s.setPoll .pending

/-- A frame the state does not allow (R175, R176). -/
def outOfPattern (s : State) : Result := .next (raise .receiver .protocolViolation s)

/-- A START frame: R167, R168, R169 in AwaitingStart; R176 else. An accepted one writes all four transfer registers, the
expected sequence to 0, whether or not it holds the whole transfer (R25, R26; log 22). -/
def acceptStart (total : Word) (data : List Byte) (s : State) : Result :=
  if s.rx.state ≠ .awaitingStart then outOfPattern s
  else if s.rx.capacity.toNat < total.toNat then .next (raise .receiver .bufferTooSmall s)
  else
    let n := startStored total data
    match memWriteDst s s.rx.base.toNat (data.take n) with
    | none => .fault .dstOffset
    | some t =>
      let r := { t.rx with totalLength := total, started := true, receivedLength := word n, expectedSequence := 0 }
      if n = total.toNat then .next (succeed total (t.setRx r))
      else .next (pending (t.setRx { r with state := .awaitingMore }))

/-- A CONSECUTIVE frame: R170, R171, R172 in AwaitingMore; R175 else. The sequence is tested before the bounds (R213). -/
def acceptConsecutive (sequence : Byte) (data : List Byte) (s : State) : Result :=
  if s.rx.state ≠ .awaitingMore then outOfPattern s
  else if sequence ≠ s.rx.expectedSequence then .next (raise .receiver .sequenceMismatch s)
  else
    let n := s.rx.receivedLength.toNat + data.length
    if s.rx.capacity.toNat < n ∨ s.rx.totalLength.toNat < n then .next (raise .receiver .bufferOverflow s)
    else
      match memWriteDst s s.rx.address data with
      | none => .fault .dstOffset
      | some t =>
        .next (pending (t.setRx { t.rx with receivedLength := word n, expectedSequence := t.rx.expectedSequence + 1 }))

/-- An END frame: R173, R174 in AwaitingMore; R175 else. The overflow test is the source's and cannot fire where R25 holds
(conflict C7). -/
def acceptEnd (data : List Byte) (s : State) : Result :=
  if s.rx.state ≠ .awaitingMore then outOfPattern s
  else
    let left := s.rx.bytesLeft
    if s.rx.capacity.toNat < s.rx.receivedLength.toNat + left then .next (raise .receiver .bufferOverflow s)
    else if data.length < left then .next (raise .receiver .protocolViolation s)
    else
      match memWriteDst s s.rx.address (data.take left) with
      | none => .fault .dstOffset
      | some t => .next (succeed s.rx.totalLength (t.setRx { t.rx with receivedLength := t.rx.totalLength }))

/-- A logical frame of the receiver's id, against the state (R180). -/
def acceptFrame (f : LogicalFrame) (s : State) : Result :=
  match f with
  | .start total data => acceptStart total data s
  | .consecutive sequence data => acceptConsecutive sequence data s
  | .endOf data => acceptEnd data s
  | .flowControl _ => .next (pending s)
  | .error _ => .next (pending s)

/-- A polled raw frame (R162): the id filter, then the decoder, then the state (R164, R213). -/
def examineFrame (raw : RawFrame) (s : State) : Result :=
  if raw.id ≠ s.params.rxId then .next (pending s)
  else
    match parseFrame s.params.lenMsbFirst s.rx.mode raw.bytes with
    | .error _ => .next (pending s)
    | .ok f => acceptFrame f s

/-- The step of a live receiver: exactly one LinkPoll (R162, R163). -/
def pollStep (s : State) : Result :=
  match linkPoll s with
  | (none, t) => .next (pending t)
  | (some raw, t) => examineFrame raw t

/-- One step of the receiver inside RECEIVE or RECEIVE_BYTES (R178); outside the live states it has none, and the turn
passes. -/
def receiverStep (s : State) : Result := if s.rx.live then pollStep s else .next s

/-- A raw frame the link delivers as the next one: a live receiver's poll takes it; else it waits in the adapter, which no
one polls (R39, R247; log 11). -/
def deliver (raw : RawFrame) (s : State) : Result :=
  takeFrame raw (receiverStep (s.setLink { s.link with queue := raw :: s.link.queue }))

/-- POLL_ONCE (R162): refused outside the live states and in another Mode than the receive's. -/
def execPollOnce (mode : Mode) (s : State) : Result :=
  if s.rx.live = false then .refused .pollNotLive
  else if mode ≠ s.rx.mode then .refused .pollMode
  else pollStep s

/-- RECEIVE is issued (R160, R161): refused to a busy receiver (R66). -/
def execReceive (capacity : Word) (mode : Mode) (s : State) : Result :=
  if s.rx.live then .refused .receiverBusy
  else .next (beginReceive 0 capacity.toNat mode (s.setRx { s.rx with op := .receive }))

/-- RECEIVE_BYTES is issued (R184, R186): refused to a busy receiver (R66). -/
def execReceiveBytes (length : Word) (mode : Mode) (s : State) : Result :=
  if s.rx.live then .refused .receiverBusy
  else
    .next (beginReceive 0 length.toNat mode
      (s.setRx { s.rx with op := .receiveBytes, rbLength := length, rbAccumulated := 0 }))

end Sys2Proof.Machine
end

