-- ==== Sys2Proof/Machine/WireFrames.lean ====
section
/-! DEFINITION. The wire formats as the receiver's inputs: the block's response to a frame of each row when the link delivers
it (R72 to R77, R111 to R115, R180; log 11). The bytes are those of the row; the receiver reads them in its own Mode, so a
frame of the other Mode is misread as R83 says (log 12). -/

namespace Sys2Proof.Machine

/-- START.C (R72, R111; R167 to R169, R176). -/
def execStartC (id : Word) (total : Byte) (data : List Byte) (s : State) : Result :=
  deliver ⟨id, layoutStart s.params.lenMsbFirst .classic (total.setWidth 32) data⟩ s

/-- START.X (R73, R111; R167 to R169, R176). -/
def execStartX (id : Word) (total : BitVec 16) (data : List Byte) (s : State) : Result :=
  deliver ⟨id, layoutStart s.params.lenMsbFirst .extended (total.setWidth 32) data⟩ s

/-- CONSECUTIVE.C (R74, R112; R170 to R172, R175). -/
def execConsecutiveC (id : Word) (sequence : Byte) (data : List Byte) (s : State) : Result :=
  deliver ⟨id, layoutConsecutive sequence data⟩ s

/-- CONSECUTIVE.X (R74, R112; R170 to R172, R175). -/
def execConsecutiveX (id : Word) (sequence : Byte) (data : List Byte) (s : State) : Result :=
  deliver ⟨id, layoutConsecutive sequence data⟩ s

/-- END.C (R75, R113; R173 to R175). -/
def execEndC (id : Word) (data : List Byte) (s : State) : Result := deliver ⟨id, layoutEnd data⟩ s

/-- END.X (R75, R113; R173 to R175). -/
def execEndX (id : Word) (data : List Byte) (s : State) : Result := deliver ⟨id, layoutEnd data⟩ s

/-- FLOWCONTROL.C (R76, R114, R177). -/
def execFlowcontrolC (id : Word) (command : FlowCommand) (ignored : List Byte) (s : State) : Result :=
  deliver ⟨id, layoutFlowControl command ++ ignored⟩ s

/-- FLOWCONTROL.X (R76, R114, R177). -/
def execFlowcontrolX (id : Word) (command : FlowCommand) (ignored : List Byte) (s : State) : Result :=
  deliver ⟨id, layoutFlowControl command ++ ignored⟩ s

/-- ERROR.C (R77, R115, R177). -/
def execErrorC (id : Word) (code : Byte) (ignored : List Byte) (s : State) : Result :=
  deliver ⟨id, layoutError code ++ ignored⟩ s

/-- ERROR.X (R77, R115, R177). -/
def execErrorX (id : Word) (code : Byte) (ignored : List Byte) (s : State) : Result :=
  deliver ⟨id, layoutError code ++ ignored⟩ s

end Sys2Proof.Machine
end

