-- ==== Sys2Proof/Machine/Dispatch.lean ====
section
/-! DEFINITION. One arm for each instruction. -/

namespace Sys2Proof.Machine

def exec (i : Instr) (s : State) : Host.Outcome State Fault Refusal :=
  match i with
  -- the wire formats
  | .startC id total data => Sys2Proof.Machine.execStartC id total data s
  | .startX id total data => Sys2Proof.Machine.execStartX id total data s
  | .consecutiveC id sequence data => Sys2Proof.Machine.execConsecutiveC id sequence data s
  | .consecutiveX id sequence data => Sys2Proof.Machine.execConsecutiveX id sequence data s
  | .endC id data => Sys2Proof.Machine.execEndC id data s
  | .endX id data => Sys2Proof.Machine.execEndX id data s
  | .flowcontrolC id command ignored => Sys2Proof.Machine.execFlowcontrolC id command ignored s
  | .flowcontrolX id command ignored => Sys2Proof.Machine.execFlowcontrolX id command ignored s
  | .errorC id code ignored => Sys2Proof.Machine.execErrorC id code ignored s
  | .errorX id code ignored => Sys2Proof.Machine.execErrorX id code ignored s
  -- the operations
  | .encStart mode id total data => Sys2Proof.Machine.execEncStart mode id total data s
  | .encCons mode id sequence data => Sys2Proof.Machine.execEncCons mode id sequence data s
  | .encEnd mode id data => Sys2Proof.Machine.execEncEnd mode id data s
  | .encFc mode id command => Sys2Proof.Machine.execEncFc mode id command s
  | .encErr mode id code => Sys2Proof.Machine.execEncErr mode id code s
  | .decode mode raw => Sys2Proof.Machine.execDecode mode raw s
  | .sendTransfer id len mode => Sys2Proof.Machine.execSendTransfer id len mode s
  | .send id len mode => Sys2Proof.Machine.execSend id len mode s
  | .pollOnce mode => Sys2Proof.Machine.execPollOnce mode s
  | .receive capacity mode => Sys2Proof.Machine.execReceive capacity mode s
  | .receiveBytes length mode => Sys2Proof.Machine.execReceiveBytes length mode s

end Sys2Proof.Machine
end

