-- ==== Sys2Proof/Machine/Step.lean ====
section
/-! DEFINITION. One step of the machine: the event whose turn it is. -/

namespace Sys2Proof.Machine

/-- The caller's turn: the command at the port is decoded and executed; with none there, nothing is issued (R216). -/
def callerStep (s : State) : Host.Outcome State Fault Refusal :=
  match fetchCommand s with
  | none => .next s
  | some (c, t) =>
    match decode t.params.lenMsbFirst (.command c) with
    | .ok i => exec i t
    | .error _ => .refused (.unknownCommand c.code)

/-- One step: the turn is taken off the script and its event happens (`00_scope.md` section 7, R61; log 2). -/
def step (s : State) : Host.Outcome State Fault Refusal :=
  let t := s.setTurns s.turns.tail
  match s.nextTurn with
  | .caller => callerStep t
  | .sender => senderStep t
  | .receiver => receiverStep t
  | .reset => .next (resetEvent t)
  | .abandon engine => .next (abandon engine t)
  | .link queue answer => linkEvent queue answer t
  | .writeSrc off b => writeSrcEvent off b t
  | .writeDst off b => writeDstEvent off b t
  | .readDst off => readDstEvent off t

/-- The state with a row's bits at the command port, the caller's turn next (log 3). -/
def State.withFetchWord (s : State) (nbits w : Nat) : State := placeCommand s nbits w

end Sys2Proof.Machine
end

