-- ==== Sys2Proof/Safety.lean ====
section
/-! DEFINITION. What counts as a safe state and a safe step, and the plain descriptions the claims compare the machine with:
the logical frame of a wire row, the bytes of a buffer, the frames of a transfer. -/

namespace Sys2Proof.Machine

/-! ### The invariant -/

/-- The receiver's registers agree with each other (R24, R25, R181, R186). -/
def Receiver.Ok (r : Receiver) : Prop :=
  (r.state = .awaitingStart → r.started = false) ∧
  (r.state = .awaitingMore → r.started = true ∧ r.totalLength.toNat ≤ r.capacity.toNat ∧
    r.receivedLength.toNat ≤ r.totalLength.toNat) ∧
  (r.live = true → r.base.toNat + r.capacity.toNat ≤ offsetSpace) ∧
  (r.live = true → r.op = .receive → r.base = 0) ∧
  (r.live = true → r.op = .receiveBytes →
    r.base = r.rbAccumulated ∧ r.rbAccumulated.toNat + r.capacity.toNat = r.rbLength.toNat)

/-- The sender's registers agree with each other (R131, R132, R134, R140). -/
def Sender.Ok (t : Sender) : Prop :=
  (t.busy = true → t.total.toNat ≤ t.mode.maxTransfer ∧ t.base.toNat + t.total.toNat ≤ offsetSpace) ∧
  (t.phase = .start → t.sent = 0 ∧ t.seq = 0) ∧
  (t.phase = .body → t.sent.toNat < t.total.toNat ∧
    t.sent.toNat = t.mode.startCapacity + t.seq.toNat * t.mode.consecutiveCapacity) ∧
  (t.busy = true → t.op = .sendTransfer → t.base = 0) ∧
  (t.busy = true → t.op = .send →
    t.base = t.msgOff ∧ t.total.toNat = nextSlice t.mode t.msgLen.toNat t.msgOff.toNat ∧
    t.msgOff.toNat + t.total.toNat ≤ t.msgLen.toNat)

/-- A byte space in canonical form, within the offsets that exist (R38). -/
def Memory.Ok (m : Memory) : Prop := Memory.wf m ∧ ∀ c ∈ m, c.1 < offsetSpace

/-- Every raw frame in the adapter, sent, or returned to the caller has at most the 255 bytes of an 8-bit `length` (R12,
R35). -/
def State.FramesOk (s : State) : Prop :=
  (∀ r ∈ s.link.queue, r.wf = true) ∧ (∀ r ∈ s.link.sent, r.wf = true) ∧
  ∀ r, s.codec = some (.raw r) → r.wf = true

/-- The invariant every step keeps. -/
def State.Inv (s : State) : Prop :=
  s.rx.Ok ∧ s.tx.Ok ∧ Memory.Ok s.src ∧ Memory.Ok s.dst ∧ (∀ r ∈ s.dstUndefined, r.lo < r.hi) ∧ s.FramesOk

/-! ### What a claim says of two states -/

/-- The receiver may have moved, and nothing else but DST, the adapter's queue, the StepResult and the free index. -/
def ReceiverOnly (s t : State) : Prop :=
  t.tx = s.tx ∧ t.params = s.params ∧ t.src = s.src ∧ t.commands = s.commands ∧ t.codec = s.codec ∧ t.turns = s.turns ∧
  t.dstRead = s.dstRead ∧ t.link = { s.link with queue := t.link.queue }

/-- The sender may have moved, and nothing else but the adapter. -/
def SenderOnly (s t : State) : Prop := t = { s with tx := t.tx, link := t.link }

/-- Every byte of DST reads as before, for a caller that may read it. -/
def DstUnchanged (s t : State) : Prop := ∀ a, t.readDst a = s.readDst a

/-- The caller reads `data` at the offsets from `off` on, and every other byte of DST as before. -/
def DstStored (s t : State) (off : Nat) (data : List Byte) : Prop :=
  (∀ k (h : k < data.length), t.readDst (off + k) = data[k]) ∧
  (∀ a, a < off ∨ off + data.length ≤ a → t.readDst a = s.readDst a)

/-- The caller reads every byte of DST outside the receive's buffer as before; inside it the content is undefined (R57). -/
def DstUndefinedInside (s t : State) : Prop :=
  ∀ a, a < s.rx.base.toNat ∨ s.rx.base.toNat + s.rx.capacity.toNat ≤ a → t.readDst a = s.readDst a

/-- A receiver step that raised `e` (R210, R212): the state and the error code are written, nothing is stored, the step
answers Failed, and the caller's buffer is undefined inside, untouched outside (R57). -/
def ReceiverFailed (e : ErrorCode) (s t : State) : Prop :=
  t.rx = { s.rx with state := .failed, error := e } ∧ t.poll = some (.failed e) ∧ t.dst = s.dst ∧
  ReceiverOnly s t ∧ t.link = s.link ∧ DstUndefinedInside s t

/-- What an abandoned operation leaves of itself (R231): the frames sent and those still queued, and, of a receive, the bytes
it has stored, from offset 0 on, undefined to the caller (any value, log 8). The caller reads every other byte as before. -/
def TracesOnly (s t : State) : Prop :=
  t.src = s.src ∧ t.dst = s.dst ∧ t.params = s.params ∧ t.link = s.link ∧
  ∀ n, n = (if s.rx.op = .receiveBytes then s.rx.rbAccumulated.toNat else 0) +
      (if s.rx.started then s.rx.receivedLength.toNat else 0) →
    (∀ a, s.rx.live = true → a < n → ∃ stamp, t.readDst a = Config.freeByte stamp a) ∧
    (∀ a, s.rx.live = false ∨ n ≤ a → t.readDst a = s.readDst a)

/-- The adapter takes the next frame it is handed (R218, R221). -/
def Link.accepts (l : Link) : Bool := l.adapter = .loopback || l.answer

/-- The adapter after it has taken a frame (R218, R221). -/
def Link.taking (l : Link) (raw : RawFrame) : Link :=
  match l.adapter with
  | .loopback => { l with queue := l.queue ++ [raw], sent := l.sent ++ [raw] }
  | .driver => { l with sent := l.sent ++ [raw] }

/-! ### The frames of a transfer (R130 to R138), without the step form -/

/-- How many CONSECUTIVE frames a transfer of `len` bytes has (R138). -/
def consecutiveCount (m : Mode) (len : Nat) : Nat :=
  let r := len - m.startCapacity
  if r ≤ m.endCapacity then 0 else (r - m.endCapacity + m.consecutiveCapacity - 1) / m.consecutiveCapacity

/-- How many frames a transfer of `len` bytes has (R138). -/
def frameCount (m : Mode) (len : Nat) : Nat :=
  if len ≤ m.startCapacity then 1 else consecutiveCount m len + 2

/-- The frames of the transfer of the payload `p`, in the order they are sent (R131, R132, R133, R134). -/
def transferFrames (msbFirst : Bool) (m : Mode) (id : Word) (p : List Byte) : List RawFrame :=
  let k := consecutiveCount m p.length
  ⟨id, layoutStart msbFirst m (word p.length) (p.take m.startCapacity)⟩ ::
    if p.length ≤ m.startCapacity then []
    else
      (List.range k).map (fun j => ⟨id, layoutConsecutive (BitVec.ofNat 8 j)
        ((p.drop (m.startCapacity + j * m.consecutiveCapacity)).take m.consecutiveCapacity)⟩) ++
      [⟨id, layoutEnd (p.drop (m.startCapacity + k * m.consecutiveCapacity))⟩]

/-- The bytes of SRC from offset `off`. -/
def State.srcBytes (s : State) (off n : Nat) : List Byte := (List.range n).map (fun k => s.readSrc (off + k))

end Sys2Proof.Machine

namespace Sys2Proof

/-- The Mode, the id and the logical frame of a wire row (R72 to R77, R111 to R115); an operation has none. -/
def Instr.asFrame : Instr → Option (Mode × Word × LogicalFrame)
  | .startC id total data => some (.classic, id, .start (total.setWidth 32) data)
  | .startX id total data => some (.extended, id, .start (total.setWidth 32) data)
  | .consecutiveC id sequence data => some (.classic, id, .consecutive sequence data)
  | .consecutiveX id sequence data => some (.extended, id, .consecutive sequence data)
  | .endC id data => some (.classic, id, .endOf data)
  | .endX id data => some (.extended, id, .endOf data)
  | .flowcontrolC id command _ => some (.classic, id, .flowControl command)
  | .flowcontrolX id command _ => some (.extended, id, .flowControl command)
  | .errorC id code _ => some (.classic, id, .error code)
  | .errorX id code _ => some (.extended, id, .error code)
  | .encStart _ _ _ _ | .encCons _ _ _ _ | .encEnd _ _ _ | .encFc _ _ _ | .encErr _ _ _ | .decode _ _
  | .sendTransfer _ _ _ | .send _ _ _ | .pollOnce _ | .receive _ _ | .receiveBytes _ _ => none

/-- The ENC operation that encodes a logical frame (R100). -/
def LogicalFrame.enc (m : Mode) (id : Word) : LogicalFrame → Instr
  | .start total data => .encStart m id total data
  | .consecutive sequence data => .encCons m id sequence data
  | .endOf data => .encEnd m id data
  | .flowControl command => .encFc m id command
  | .error code => .encErr m id code

end Sys2Proof
end

