-- ==== Sys2Proof/Certificates/Slice0/Obligations.lean ====
section
/-! DEFINITION. The statements. Each docstring names the rule it formalises; `Sys2Proof/Safety.lean` holds the predicates on two
states that they use. -/

open Sys2Proof Sys2Proof.Machine

/-! ### Modes, fields, codes -/

/-- R7, R8, R9: the two Modes, every capacity as link capacity less header, and the largest transfer. -/
def Obligations.ModeTableIsTheSpecs : Prop :=
  Mode.classic.record = ⟨8, 1, 6, 6, 7, 255, 255⟩ ∧ Mode.extended.record = ⟨64, 2, 61, 62, 63, 255, 15934⟩ ∧
  (∀ m : Mode, m.startCapacity = m.linkCapacity - (1 + m.lenFieldBytes) ∧
    m.consecutiveCapacity = m.linkCapacity - 2 ∧ m.endCapacity = m.linkCapacity - 1) ∧
  (∀ m : Mode, m.maxTransfer =
    min (m.startCapacity + m.maxSequence * m.consecutiveCapacity + m.endCapacity) (2 ^ (8 * m.lenFieldBytes) - 1))

/-- R51, R79: which bits of total_length stand in which byte of the length field. -/
def Obligations.LengthFieldByteOrder : Prop :=
  ∀ v : Word,
    (∀ msb, lenField msb .classic v = [v.extractLsb' 0 8]) ∧
    lenField true .extended v = [v.extractLsb' 8 8, v.extractLsb' 0 8] ∧
    lenField false .extended v = [v.extractLsb' 0 8, v.extractLsb' 8 8]

/-- R200: the numeric codes of the errors. -/
def Obligations.ErrorCodesDiffer : Prop :=
  errorByte .noError = 0x00#8 ∧ errorByte .bufferTooSmall = 0x01#8 ∧ errorByte .bufferOverflow = 0x02#8 ∧
  errorByte .sequenceMismatch = 0x03#8 ∧ errorByte .unknownFrameKind = 0x04#8 ∧
  errorByte .linkTransmitFailure = 0x05#8 ∧ errorByte .protocolViolation = 0x06#8 ∧
  ∀ d e, errorByte d = errorByte e → d = e

/-! ### The encoder's operations -/

/-- R101, R108: ENC.START within its contract returns the frame and changes nothing else. -/
def Obligations.EncStartReturnsItsFrame : Prop :=
  ∀ (s : State) (m : Mode) (id total : Word) (data : List Byte),
    data.length ≤ m.startCapacity → total.toNat ≤ 2 ^ (8 * m.lenFieldBytes) - 1 →
    ∃ raw : RawFrame,
      exec (.encStart m id total data) s = .next { s with codec := some (.raw raw) } ∧
      raw = ⟨id, 0x00#8 :: (lenField s.params.lenMsbFirst m total ++ data)⟩ ∧
      raw.length.toNat = 1 + m.lenFieldBytes + data.length

/-- R102, R103, R108: ENC.CONS and ENC.END within their contracts. -/
def Obligations.EncConsAndEncEndReturnTheirFrames : Prop :=
  ∀ (s : State) (m : Mode) (id : Word) (data : List Byte),
    (∀ sequence : Byte, data.length ≤ m.consecutiveCapacity →
      exec (.encCons m id sequence data) s =
        .next { s with codec := some (.raw ⟨id, 0x01#8 :: sequence :: data⟩) }) ∧
    (data.length ≤ m.endCapacity →
      exec (.encEnd m id data) s = .next { s with codec := some (.raw ⟨id, 0x02#8 :: data⟩) })

/-- R106, R107, R108: ENC.FC and ENC.ERR, for every command and every code. -/
def Obligations.EncFcAndEncErrReturnTheirFrames : Prop :=
  ∀ (s : State) (m : Mode) (id : Word),
    exec (.encFc m id .cont) s = .next { s with codec := some (.raw ⟨id, [0x03#8, 0x00#8]⟩) } ∧
    exec (.encFc m id .wait) s = .next { s with codec := some (.raw ⟨id, [0x03#8, 0x01#8]⟩) } ∧
    exec (.encFc m id .abort) s = .next { s with codec := some (.raw ⟨id, [0x03#8, 0x02#8]⟩) } ∧
    ∀ code : Byte, exec (.encErr m id code) s = .next { s with codec := some (.raw ⟨id, [0x04#8, code]⟩) }

/-- R104: an ENC call that breaks the contract is refused, and no sender step the invariant allows ever breaks it (the spec's
own inference, "The engines of this block never break the contract"). -/
def Obligations.EncoderContractIsEnforced : Prop :=
  (∀ (s : State) (m : Mode) (id total : Word) (data : List Byte),
    m.startCapacity < data.length ∨ 2 ^ (8 * m.lenFieldBytes) - 1 < total.toNat →
    exec (.encStart m id total data) s = .refused .encContract) ∧
  (∀ (s : State) (m : Mode) (id : Word) (sequence : Byte) (data : List Byte),
    m.consecutiveCapacity < data.length → exec (.encCons m id sequence data) s = .refused .encContract) ∧
  (∀ (s : State) (m : Mode) (id : Word) (data : List Byte),
    m.endCapacity < data.length → exec (.encEnd m id data) s = .refused .encContract) ∧
  (∀ (s : State) (r : Refusal), s.Inv → senderStep s ≠ .refused r)

/-! ### DECODE -/

/-- R111: DECODE of a START frame in both Modes and for both byte orders, with its short forms. -/
def Obligations.DecodeReadsStartFrames : Prop :=
  ∀ (s : State) (id : Word),
    (∀ (b : Byte) (data : List Byte), data.length ≤ 6 →
      exec (.decode .classic ⟨id, 0x00#8 :: b :: data⟩) s =
        .next { s with codec := some (.logical (.start (b.setWidth 32) data)) }) ∧
    (∀ (b1 b2 : Byte) (data : List Byte), data.length ≤ 61 →
      exec (.decode .extended ⟨id, 0x00#8 :: b1 :: b2 :: data⟩) s =
        .next { s with codec := some (.logical (.start
          (if s.params.lenMsbFirst then (b1 ++ b2).setWidth 32 else (b2 ++ b1).setWidth 32) data)) }) ∧
    (∀ (m : Mode) (rest : List Byte), 1 + rest.length < 1 + m.lenFieldBytes →
      exec (.decode m ⟨id, 0x00#8 :: rest⟩) s =
        .next { s with codec := some (.parseError .unknownFrameKind) })

/-- R112, R113: DECODE of CONSECUTIVE and END frames. -/
def Obligations.DecodeReadsConsecutiveAndEndFrames : Prop :=
  ∀ (s : State) (m : Mode) (id : Word),
    (∀ (sequence : Byte) (data : List Byte), data.length ≤ m.consecutiveCapacity →
      exec (.decode m ⟨id, 0x01#8 :: sequence :: data⟩) s =
        .next { s with codec := some (.logical (.consecutive sequence data)) }) ∧
    exec (.decode m ⟨id, [0x01#8]⟩) s = .next { s with codec := some (.parseError .unknownFrameKind) } ∧
    (∀ data : List Byte, data.length ≤ m.endCapacity →
      exec (.decode m ⟨id, 0x02#8 :: data⟩) s = .next { s with codec := some (.logical (.endOf data)) })

/-- R114, R115: DECODE of FLOWCONTROL and ERROR frames; later bytes are ignored, reserved commands refused. -/
def Obligations.DecodeReadsFlowControlAndErrorFrames : Prop :=
  ∀ (s : State) (m : Mode) (id : Word) (b : Byte) (ignored : List Byte), 2 + ignored.length ≤ m.linkCapacity →
    (b = 0x00#8 → exec (.decode m ⟨id, 0x03#8 :: b :: ignored⟩) s =
      .next { s with codec := some (.logical (.flowControl .cont)) }) ∧
    (b = 0x01#8 → exec (.decode m ⟨id, 0x03#8 :: b :: ignored⟩) s =
      .next { s with codec := some (.logical (.flowControl .wait)) }) ∧
    (b = 0x02#8 → exec (.decode m ⟨id, 0x03#8 :: b :: ignored⟩) s =
      .next { s with codec := some (.logical (.flowControl .abort)) }) ∧
    (3 ≤ b.toNat → exec (.decode m ⟨id, 0x03#8 :: b :: ignored⟩) s =
      .next { s with codec := some (.parseError .unknownFrameKind) }) ∧
    exec (.decode m ⟨id, 0x04#8 :: b :: ignored⟩) s = .next { s with codec := some (.logical (.error b)) } ∧
    exec (.decode m ⟨id, [0x03#8]⟩) s = .next { s with codec := some (.parseError .unknownFrameKind) } ∧
    exec (.decode m ⟨id, [0x04#8]⟩) s = .next { s with codec := some (.parseError .unknownFrameKind) }

/-- R110, R116, R117 (decision D7): DECODE of an unknown tag (R116), of a frame of length 0 or beyond the link capacity (R110,
R117), and of one shorter than its kind's header (R117). -/
def Obligations.DecodeRejectsUnknownAndMalformedFrames : Prop :=
  ∀ (s : State) (m : Mode) (raw : RawFrame), raw.wf = true →
    (raw.length.toNat = 0 ∨ m.linkCapacity < raw.length.toNat ∨
      (∃ tag rest, raw.bytes = tag :: rest ∧
        (5 ≤ tag.toNat ∨ (tag = 0x00#8 ∧ raw.length.toNat < 1 + m.lenFieldBytes) ∨
          ((tag = 0x01#8 ∨ tag = 0x03#8 ∨ tag = 0x04#8) ∧ raw.length.toNat < 2)))) →
    exec (.decode m raw) s = .next { s with codec := some (.parseError .unknownFrameKind) }

/-- R118 (the spec derives it), R108, R12: DECODE answers for every Mode and every raw frame of 0 to 255 bytes, and changes
nothing but its result; a longer list of bytes, which no 8-bit `length` can say, is no raw frame and is refused (log 23). -/
def Obligations.DecodeIsTotal : Prop :=
  ∀ (s : State) (m : Mode) (raw : RawFrame),
    (raw.bytes.length ≤ 255 → raw.length.toNat = raw.bytes.length ∧
      ((∃ f, exec (.decode m raw) s = .next { s with codec := some (.logical f) }) ∨
        exec (.decode m raw) s = .next { s with codec := some (.parseError .unknownFrameKind) })) ∧
    (255 < raw.bytes.length → exec (.decode m raw) s = .refused .frameTooLong)

/-- R119 (the spec derives it): decoding what an ENC operation returned gives the logical frame back. -/
def Obligations.DecodeAfterEncodeIsIdentity : Prop :=
  ∀ (s t : State) (m : Mode) (id : Word) (f : LogicalFrame), exec (f.enc m id) s = .next t →
    ∃ raw, t.codec = some (.raw raw) ∧ raw.id = id ∧
      exec (.decode m raw) t = .next { t with codec := some (.logical f) }

/-- R120 (the spec derives it): encoding what DECODE returned gives the frame's bytes back, but for a FLOWCONTROL or ERROR
frame the first two bytes alone. -/
def Obligations.EncodeAfterDecodeIsIdentity : Prop :=
  ∀ (s : State) (m : Mode) (raw : RawFrame) (f : LogicalFrame),
    exec (.decode m raw) s = .next { s with codec := some (.logical f) } →
    ∃ r : RawFrame, exec (f.enc m raw.id) s = .next { s with codec := some (.raw r) } ∧ r.id = raw.id ∧
      ((∃ c, f = .flowControl c) ∨ (∃ c, f = .error c) → r.bytes = raw.bytes.take 2) ∧
      ((∀ c, f ≠ .flowControl c) ∧ (∀ c, f ≠ .error c) → r = raw)

/-! ### Decoding and encoding instructions -/

/-- R71 to R77, R92: a few words written out from the spec decode to their instructions. -/
def Obligations.SpecWordsDecode : Prop :=
  decode true (.frame .classic ⟨0x123, [0x00#8, 0x03#8, 0xAA#8, 0xBB#8, 0xCC#8]⟩) =
    .ok (.startC 0x123 0x03 [0xAA#8, 0xBB#8, 0xCC#8]) ∧
  decode true (.frame .extended ⟨0x7E0, [0x00#8, 0x00#8, 0xC8#8, 0x01#8, 0x08#8]⟩) =
    .ok (.startX 0x7E0 200 [0x01#8, 0x08#8]) ∧
  decode true (.frame .classic ⟨0x123, [0x01#8, 0x00#8, 0x16#8]⟩) = .ok (.consecutiveC 0x123 0 [0x16#8]) ∧
  decode true (.frame .classic ⟨0x123, [0x02#8, 0x1C#8, 0x1D#8, 0x1E#8]⟩) =
    .ok (.endC 0x123 [0x1C#8, 0x1D#8, 0x1E#8]) ∧
  decode true (.frame .classic ⟨0x123, [0x03#8, 0x02#8, 0x99#8]⟩) = .ok (.flowcontrolC 0x123 .abort [0x99#8]) ∧
  decode true (.frame .extended ⟨0x7E0, [0x04#8, 0x05#8]⟩) = .ok (.errorX 0x7E0 0x05 []) ∧
  decode true (.command ⟨0x09#8, { capacity := 16 }⟩) = .ok (.receive 16 .classic)

/-- R70 to R83, R92, R94: decoding what is encoded gives every well-formed instruction back, with every operand, for both
byte orders. -/
def Obligations.DecodeEncodeRoundTrip : Prop :=
  ∀ (msb : Bool) (i : Instr), i.wf = true → decode msb (encode msb i) = .ok i

/-- R70 to R83, R94: encoding what a frame decodes to gives the frame's bytes back, all of them, so no two instructions share
a frame; and what a frame decodes to is well-formed. -/
def Obligations.EncodeDecodeRoundTripOnFrames : Prop :=
  ∀ (msb : Bool) (m : Mode) (raw : RawFrame) (i : Instr),
    decode msb (.frame m raw) = .ok i → encode msb i = .frame m raw ∧ i.wf = true

/-- R92: the eleven command codes, and the refusal of every other one at the command port; that the operands travel beside
the code as values is the model's choice (log 1). -/
def Obligations.CommandCodesAreTheSpecs : Prop :=
  (∀ o : Operands,
    decodeCommand ⟨0x00#8, o⟩ = .ok (.encStart o.mode o.id o.totalLength o.data) ∧
    decodeCommand ⟨0x01#8, o⟩ = .ok (.encCons o.mode o.id o.sequence o.data) ∧
    decodeCommand ⟨0x02#8, o⟩ = .ok (.encEnd o.mode o.id o.data) ∧
    decodeCommand ⟨0x03#8, o⟩ = .ok (.encFc o.mode o.id o.command) ∧
    decodeCommand ⟨0x04#8, o⟩ = .ok (.encErr o.mode o.id o.code) ∧
    decodeCommand ⟨0x05#8, o⟩ = .ok (.decode o.mode o.raw) ∧
    decodeCommand ⟨0x06#8, o⟩ = .ok (.sendTransfer o.id o.len o.mode) ∧
    decodeCommand ⟨0x07#8, o⟩ = .ok (.send o.id o.len o.mode) ∧
    decodeCommand ⟨0x08#8, o⟩ = .ok (.pollOnce o.mode) ∧
    decodeCommand ⟨0x09#8, o⟩ = .ok (.receive o.capacity o.mode) ∧
    decodeCommand ⟨0x0A#8, o⟩ = .ok (.receiveBytes o.length o.mode)) ∧
  (∀ (s : State) (c : Command) (rest : List Command),
    s.nextTurn = .caller → s.commands = c :: rest → 0x0B ≤ c.code.toNat →
    step s = .refused (.unknownCommand c.code))

/-! ### The step -/

/-- R92, R93: on the caller's turn, a command that decodes to `i` is taken off the port and the step is `exec i`; the turn is
taken off the script. The turns are the model's (log 2). -/
def Obligations.StepRunsTheDecodedInstruction : Prop :=
  ∀ (s : State) (c : Command) (rest : List Command) (i : Instr),
    s.nextTurn = .caller → s.commands = c :: rest → decode s.params.lenMsbFirst (.command c) = .ok i →
    step s = exec i { s with commands := rest, turns := s.turns.tail }

/-- R162, R180: on a live receiver's turn, a polled frame that decodes to the wire row `i` is taken off the link and the step
is `exec i`. The turns are the model's (log 2), and so is the reading of a wire row as the polled frame (log 11). -/
def Obligations.ReceiverTurnRunsTheDecodedFrame : Prop :=
  ∀ (s : State) (raw : RawFrame) (rest : List RawFrame) (i : Instr),
    s.nextTurn = .receiver → s.rx.live = true → s.link.queue = raw :: rest →
    decode s.params.lenMsbFirst (.frame s.rx.mode raw) = .ok i →
    step s = exec i { s with link := { s.link with queue := rest }, turns := s.turns.tail }

/-- R137, R162, R216: an engine with no step enabled, and a caller with nothing to issue or to abandon, let their turn pass
(the turns are the model's, log 2, log 28). -/
def Obligations.TurnsWithNothingToDoPass : Prop :=
  ∀ s : State,
    ((s.nextTurn = .caller ∧ s.commands = []) ∨ (s.nextTurn = .sender ∧ s.tx.busy = false) ∨
      (s.nextTurn = .receiver ∧ s.rx.live = false) ∨ (s.nextTurn = .abandon .sender ∧ s.tx.busy = false) ∨
      (s.nextTurn = .abandon .receiver ∧ s.rx.live = false)) →
    step s = .next { s with turns := s.turns.tail }

/-- R162: POLL_ONCE on a live receiver in its own Mode runs the frame at the head of the link, which it consumes; where the
frame is no frame of the five kinds it is dropped. -/
def Obligations.PollOnceRunsThePolledFrame : Prop :=
  ∀ (s : State) (raw : RawFrame) (rest : List RawFrame),
    s.rx.live = true → s.link.queue = raw :: rest →
    (∀ i, decode s.params.lenMsbFirst (.frame s.rx.mode raw) = .ok i →
      exec (.pollOnce s.rx.mode) s = exec i { s with link := { s.link with queue := rest } }) ∧
    (∀ e, decode s.params.lenMsbFirst (.frame s.rx.mode raw) = .error e →
      exec (.pollOnce s.rx.mode) s =
        .next { s with link := { s.link with queue := rest }, poll := some .pending })

/-- R72 to R77, R111 to R115, R180: a well-formed wire row of the receiver's Mode and id is, to a live receiver, exactly its
logical frame (a wire row is read as the polled frame, log 11). -/
def Obligations.WireRowIsItsLogicalFrame : Prop :=
  ∀ (s : State) (i : Instr) (f : LogicalFrame),
    i.wf = true → i.asFrame = some (s.rx.mode, s.params.rxId, f) → s.rx.live = true → exec i s = acceptFrame f s

/-- Every well-formed wire row completes, whatever the receiver's state, Mode and id, in every state of the invariant; where no receive
is in progress the frame waits in the adapter (the model's reading, log 11). -/
def Obligations.WireRowsComplete : Prop :=
  ∀ (s : State) (i : Instr) (m : Mode) (id : Word) (f : LogicalFrame), i.wf = true → i.asFrame = some (m, id, f) →
    (s.Inv → ∃ t, exec i s = .next t) ∧
    (s.rx.live = false → ∃ raw, encode s.params.lenMsbFirst i = .frame m raw ∧
      exec i s = .next { s with link := { s.link with queue := raw :: s.link.queue } })

/-! ### The sender -/

/-- R130, R137: SEND_TRANSFER latches its operands and enters Start; nothing else changes. -/
def Obligations.SendTransferIsIssued : Prop :=
  ∀ (s : State) (id len : Word) (mode : Mode), s.tx.busy = false → len.toNat ≤ mode.maxTransfer →
    exec (.sendTransfer id len mode) s =
      .next { s with tx := { s.tx with
        phase := .start, id := id, mode := mode, op := .sendTransfer, base := 0, total := len, sent := 0, seq := 0 } }

/-- R140, R141: SEND latches its operands and enters Start with the first slice, whatever the length. -/
def Obligations.SendIsIssued : Prop :=
  ∀ (s : State) (id len : Word) (mode : Mode), s.tx.busy = false →
    ∃ t, exec (.send id len mode) s = .next t ∧
      t = { s with tx := { s.tx with
        phase := .start, id := id, mode := mode, op := .send, base := 0, total := t.tx.total, sent := 0, seq := 0,
        msgLen := len, msgOff := 0 } } ∧
      t.tx.total.toNat = min len.toNat mode.maxTransfer

/-- R147, R66: SEND_TRANSFER beyond `max_transfer` is refused, and so is every operation issued to a busy engine; SEND to a
sender that is not busy never is. -/
def Obligations.ForbiddenOperationsAreRefused : Prop :=
  ∀ (s : State) (a b : Word) (mode : Mode),
    (s.tx.busy = false → mode.maxTransfer < b.toNat → exec (.sendTransfer a b mode) s = .refused .transferTooLong) ∧
    (s.tx.phase = .start ∨ s.tx.phase = .body →
      exec (.sendTransfer a b mode) s = .refused .senderBusy ∧ exec (.send a b mode) s = .refused .senderBusy) ∧
    (s.rx.state = .awaitingStart ∨ s.rx.state = .awaitingMore →
      exec (.receive a mode) s = .refused .receiverBusy ∧ exec (.receiveBytes a mode) s = .refused .receiverBusy) ∧
    (s.tx.busy = false → ∃ t, exec (.send a b mode) s = .next t)

/-- R131, R133, R137: the START frame carries `min(len, start_capacity)` bytes and the whole total; SEND_TRANSFER is done if
they are all, else the body follows. -/
def Obligations.StartPhaseSendsTheStartFrame : Prop :=
  ∀ s : State, s.Inv → s.tx.phase = .start → s.link.accepts = true →
    ∃ t, senderStep s = .next t ∧ SenderOnly s t ∧
      t.link = s.link.taking ⟨s.tx.id, 0x00#8 :: (lenField s.params.lenMsbFirst s.tx.mode s.tx.total ++
        s.srcBytes s.tx.base.toNat (min s.tx.total.toNat s.tx.mode.startCapacity))⟩ ∧
      (s.tx.mode.startCapacity < s.tx.total.toNat →
        t.tx = { s.tx with phase := .body, sent := BitVec.ofNat 32 s.tx.mode.startCapacity }) ∧
      (s.tx.total.toNat ≤ s.tx.mode.startCapacity → s.tx.op = .sendTransfer →
        t.tx = { s.tx with phase := .done, sent := s.tx.total, resultLen := s.tx.total })

/-- R132, R134, R137: in Body, one END frame with exactly the rest if it fits, else one full CONSECUTIVE frame with the next
sequence number. -/
def Obligations.BodyPhaseSendsOneFrame : Prop :=
  ∀ s : State, s.Inv → s.tx.phase = .body → s.link.accepts = true →
    ∃ t, senderStep s = .next t ∧ SenderOnly s t ∧
      (s.tx.total.toNat - s.tx.sent.toNat ≤ s.tx.mode.endCapacity →
        t.link = s.link.taking ⟨s.tx.id, 0x02#8 ::
          s.srcBytes (s.tx.base.toNat + s.tx.sent.toNat) (s.tx.total.toNat - s.tx.sent.toNat)⟩ ∧
        (s.tx.op = .sendTransfer →
          t.tx = { s.tx with phase := .done, sent := s.tx.total, resultLen := s.tx.total })) ∧
      (s.tx.mode.endCapacity < s.tx.total.toNat - s.tx.sent.toNat →
        t.link = s.link.taking ⟨s.tx.id, 0x01#8 :: s.tx.seq ::
          s.srcBytes (s.tx.base.toNat + s.tx.sent.toNat) s.tx.mode.consecutiveCapacity⟩ ∧
        t.tx = { s.tx with
          sent := BitVec.ofNat 32 (s.tx.sent.toNat + s.tx.mode.consecutiveCapacity), seq := s.tx.seq + 1 })

/-- R140, R141, R144: with the last frame of a transfer, SEND goes on with the next slice at the next offset, its sequence
restarting at 0, or is done with the length of the whole message. That the next slice begins in the very step of the
transfer's last frame is the model's reading (log 15). -/
def Obligations.SendGoesOnWithTheNextSlice : Prop :=
  ∀ s : State, s.Inv → s.tx.op = .send → s.link.accepts = true →
    (s.tx.phase = .start ∧ s.tx.total.toNat ≤ s.tx.mode.startCapacity ∨
      s.tx.phase = .body ∧ s.tx.total.toNat - s.tx.sent.toNat ≤ s.tx.mode.endCapacity) →
    ∃ t, senderStep s = .next t ∧ SenderOnly s t ∧ t.tx.id = s.tx.id ∧ t.tx.mode = s.tx.mode ∧
      t.tx.msgLen = s.tx.msgLen ∧ t.tx.msgOff.toNat = s.tx.msgOff.toNat + s.tx.total.toNat ∧
      (s.tx.msgLen.toNat ≤ s.tx.msgOff.toNat + s.tx.total.toNat →
        t.tx.phase = .done ∧ t.tx.resultLen = s.tx.msgLen) ∧
      (s.tx.msgOff.toNat + s.tx.total.toNat < s.tx.msgLen.toNat →
        t.tx.phase = .start ∧ t.tx.base = t.tx.msgOff ∧ t.tx.sent = 0 ∧ t.tx.seq = 0 ∧
        t.tx.total.toNat = min (s.tx.msgLen.toNat - t.tx.msgOff.toNat) s.tx.mode.maxTransfer)

/-- R136: when the link does not take a frame the send ends at once with LinkTransmitFailure; what was counted stays, the
link keeps what it had, and no later frame is sent. -/
def Obligations.TransmitFailureEndsTheSend : Prop :=
  ∀ s : State, s.Inv → s.tx.busy = true → s.link.accepts = false →
    ∃ t, senderStep s = .next t ∧
      t = { s with tx := { s.tx with phase := .failed, error := .linkTransmitFailure } } ∧ senderStep t = .next t

/-- R131 to R135, R138: issued and driven by its own steps over a link that takes every frame, SEND_TRANSFER sends exactly
the frames of the transfer, in order, in exactly the number of steps R138 gives (the spec derives it), and ends with its
length. That a busy sender has the turn where no script says otherwise is the model's choice (log 2). -/
def Obligations.SendTransferSendsExactlyItsFrames : Prop :=
  ∀ (s : State) (id len : Word) (mode : Mode),
    s.tx.busy = false → len.toNat ≤ mode.maxTransfer → s.link.accepts = true → s.turns = [] →
    ∃ t u, exec (.sendTransfer id len mode) s = .next t ∧
      Sys2Proof.core.run (frameCount mode len.toNat) t = .next u ∧ SenderOnly s u ∧
      u.tx.phase = .done ∧ u.tx.resultLen = len ∧
      u.link.sent = s.link.sent ++ transferFrames s.params.lenMsbFirst mode id (s.srcBytes 0 len.toNat) ∧
      (transferFrames s.params.lenMsbFirst mode id (s.srcBytes 0 len.toNat)).length = frameCount mode len.toNat

/-! ### The receiver -/

/-- R161, R160: RECEIVE latches its operands and waits for a START frame; the other registers keep their values, but for the
transfer registers, which hold none (any value, log 9). -/
def Obligations.ReceiveIsIssued : Prop :=
  ∀ (s : State) (capacity : Word) (mode : Mode), s.rx.live = false →
    ∃ t, exec (.receive capacity mode) s = .next t ∧ t = { s with rx := t.rx, free := t.free } ∧
      t.rx = { s.rx with
        state := .awaitingStart, started := false, mode := mode, capacity := capacity, base := 0, op := .receive,
        totalLength := t.rx.totalLength, receivedLength := t.rx.receivedLength,
        expectedSequence := t.rx.expectedSequence }

/-- R184, R186: RECEIVE_BYTES starts its first inner receive at base 0 with the whole length as its room; the transfer
registers hold any value (log 9). -/
def Obligations.ReceiveBytesIsIssued : Prop :=
  ∀ (s : State) (length : Word) (mode : Mode), s.rx.live = false →
    ∃ t, exec (.receiveBytes length mode) s = .next t ∧ t = { s with rx := t.rx, free := t.free } ∧
      t.rx = { s.rx with
        state := .awaitingStart, started := false, mode := mode, capacity := length, base := 0, op := .receiveBytes,
        rbLength := length, rbAccumulated := 0,
        totalLength := t.rx.totalLength, receivedLength := t.rx.receivedLength,
        expectedSequence := t.rx.expectedSequence }

/-- R162: POLL_ONCE completes on a live receiver, and is refused outside the live states and in another Mode than the
receive's (the Mode clause: log 16). -/
def Obligations.PollOnceCompletesWhereLive : Prop :=
  ∀ s : State,
    (s.Inv → s.rx.live = true → ∃ t, exec (.pollOnce s.rx.mode) s = .next t) ∧
    (∀ mode, s.rx.live = false → exec (.pollOnce mode) s = .refused .pollNotLive) ∧
    (∀ mode, s.rx.live = true → mode ≠ s.rx.mode → exec (.pollOnce mode) s = .refused .pollMode)

/-- R163, R165, R166, R177: an empty poll, an unrelated id, an unparseable frame, a FLOWCONTROL or ERROR frame: Pending, and
no register changes, whether POLL_ONCE polls the frame or the wire row delivers it. -/
def Obligations.SkippedPollsChangeNothing : Prop :=
  ∀ s : State, s.rx.live = true →
    (s.link.queue = [] → exec (.pollOnce s.rx.mode) s = .next { s with poll := some .pending }) ∧
    (∀ raw rest, s.link.queue = raw :: rest →
      (raw.id ≠ s.params.rxId ∨
        (∃ e, parseFrame s.params.lenMsbFirst s.rx.mode raw.bytes = .error e) ∨
        (∃ c, parseFrame s.params.lenMsbFirst s.rx.mode raw.bytes = .ok (.flowControl c)) ∨
        (∃ c, parseFrame s.params.lenMsbFirst s.rx.mode raw.bytes = .ok (.error c))) →
      exec (.pollOnce s.rx.mode) s =
        .next { s with link := { s.link with queue := rest }, poll := some .pending }) ∧
    (∀ i f, i.wf = true → i.asFrame = some (s.rx.mode, s.params.rxId, f) →
      (∃ c, f = .flowControl c) ∨ (∃ c, f = .error c) → exec i s = .next { s with poll := some .pending }) ∧
    (∀ i m id f, i.wf = true → i.asFrame = some (m, id, f) → id ≠ s.params.rxId → exec i s = .next { s with poll := some .pending })

/-- R201, R167: a START frame that declares more than the capacity fails with BufferTooSmall before any copy. -/
def Obligations.TooLongStartFailsBeforeAnyCopy : Prop :=
  ∀ (s : State) (i : Instr) (total : Word) (data : List Byte),
    i.wf = true → i.asFrame = some (s.rx.mode, s.params.rxId, .start total data) → s.rx.state = .awaitingStart →
    s.rx.capacity.toNat < total.toNat →
    exec i s = .next { s with
      rx := { s.rx with state := .failed, error := .bufferTooSmall }, poll := some (.failed .bufferTooSmall) }

/-- R167, R168, R169, and of R25 and R26 what a START frame writes: an accepted START frame stores `min(len(data), total)`
bytes at the base and writes the four transfer registers, the sequence to 0; RECEIVE is done if that is all of them, else the
transfer goes on. That the sequence is 0 where the transfer is whole too is read from R25 and R26 (log 22). -/
def Obligations.StartFrameIsStored : Prop :=
  ∀ (s : State) (i : Instr) (total : Word) (data : List Byte),
    s.Inv → i.wf = true → i.asFrame = some (s.rx.mode, s.params.rxId, .start total data) →
    s.rx.state = .awaitingStart → total.toNat ≤ s.rx.capacity.toNat →
    ∃ t, exec i s = .next t ∧ ReceiverOnly s t ∧ t.link = s.link ∧
      DstStored s t s.rx.base.toNat (data.take (min data.length total.toNat)) ∧
      (data.length < total.toNat →
        t.rx = { s.rx with
          state := .awaitingMore, started := true, totalLength := total,
          receivedLength := BitVec.ofNat 32 data.length, expectedSequence := 0 } ∧
        t.poll = some .pending ∧ t.free = s.free) ∧
      (total.toNat ≤ data.length → s.rx.op = .receive →
        t.rx = { s.rx with
          state := .done, started := true, totalLength := total, receivedLength := total, expectedSequence := 0,
          resultLen := total } ∧
        t.poll = some (.done total) ∧ t.free = s.free)

/-- R171: a CONSECUTIVE frame in sequence and within the total is stored at the running offset; the counters advance. -/
def Obligations.ConsecutiveFrameIsStored : Prop :=
  ∀ (s : State) (i : Instr) (data : List Byte),
    s.Inv → i.wf = true → i.asFrame = some (s.rx.mode, s.params.rxId, .consecutive s.rx.expectedSequence data) →
    s.rx.state = .awaitingMore → s.rx.receivedLength.toNat + data.length ≤ s.rx.totalLength.toNat →
    ∃ t, exec i s = .next t ∧ ReceiverOnly s t ∧ t.link = s.link ∧
      DstStored s t (s.rx.base.toNat + s.rx.receivedLength.toNat) data ∧
      t.rx = { s.rx with
        receivedLength := BitVec.ofNat 32 (s.rx.receivedLength.toNat + data.length),
        expectedSequence := BitVec.ofNat 8 ((s.rx.expectedSequence.toNat + 1) % 256) } ∧
      t.poll = some .pending ∧ t.free = s.free

/-- R172: a CONSECUTIVE frame out of sequence fails with SequenceMismatch, however long it is. -/
def Obligations.OutOfSequenceFrameFails : Prop :=
  ∀ (s : State) (i : Instr) (sequence : Byte) (data : List Byte),
    i.wf = true → i.asFrame = some (s.rx.mode, s.params.rxId, .consecutive sequence data) →
    s.rx.state = .awaitingMore → sequence ≠ s.rx.expectedSequence →
    ∃ t, exec i s = .next t ∧ ReceiverFailed .sequenceMismatch s t

/-- R170: a CONSECUTIVE frame in sequence that would pass the capacity or the declared total fails with BufferOverflow. -/
def Obligations.OverflowingFrameFails : Prop :=
  ∀ (s : State) (i : Instr) (data : List Byte),
    i.wf = true → i.asFrame = some (s.rx.mode, s.params.rxId, .consecutive s.rx.expectedSequence data) →
    s.rx.state = .awaitingMore →
    (s.rx.capacity.toNat < s.rx.receivedLength.toNat + data.length ∨
      s.rx.totalLength.toNat < s.rx.receivedLength.toNat + data.length) →
    ∃ t, exec i s = .next t ∧ ReceiverFailed .bufferOverflow s t

/-- R173: an END frame with the bytes the transfer lacks ends RECEIVE with exactly those bytes stored. -/
def Obligations.EndFrameCompletesTheTransfer : Prop :=
  ∀ (s : State) (i : Instr) (data : List Byte),
    s.Inv → i.wf = true → i.asFrame = some (s.rx.mode, s.params.rxId, .endOf data) →
    s.rx.state = .awaitingMore → s.rx.totalLength.toNat - s.rx.receivedLength.toNat ≤ data.length →
    ∃ t, exec i s = .next t ∧ ReceiverOnly s t ∧ t.link = s.link ∧
      DstStored s t (s.rx.base.toNat + s.rx.receivedLength.toNat)
        (data.take (s.rx.totalLength.toNat - s.rx.receivedLength.toNat)) ∧
      (s.rx.op = .receive →
        t.rx = { s.rx with state := .done, receivedLength := s.rx.totalLength, resultLen := s.rx.totalLength } ∧
        t.poll = some (.done s.rx.totalLength) ∧ t.free = s.free)

/-- R174: an END frame with fewer bytes than the transfer lacks fails with ProtocolViolation. -/
def Obligations.ShortEndFrameFails : Prop :=
  ∀ (s : State) (i : Instr) (data : List Byte),
    s.Inv → i.wf = true → i.asFrame = some (s.rx.mode, s.params.rxId, .endOf data) →
    s.rx.state = .awaitingMore → data.length < s.rx.totalLength.toNat - s.rx.receivedLength.toNat →
    ∃ t, exec i s = .next t ∧ ReceiverFailed .protocolViolation s t

/-- R175, R176: CONSECUTIVE or END before START, and START inside a transfer, fail with ProtocolViolation. -/
def Obligations.OutOfPatternFrameFails : Prop :=
  ∀ (s : State) (i : Instr) (f : LogicalFrame),
    i.wf = true → i.asFrame = some (s.rx.mode, s.params.rxId, f) →
    (s.rx.state = .awaitingStart ∧ ((∃ q d, f = .consecutive q d) ∨ ∃ d, f = .endOf d) ∨
      s.rx.state = .awaitingMore ∧ ∃ n d, f = .start n d) →
    ∃ t, exec i s = .next t ∧ ReceiverFailed .protocolViolation s t

/-- R184 to R187, R189: in RECEIVE_BYTES the frame that completes an inner transfer adds its length; the operation is done
when the length is reached, with the transfer registers as the frame leaves them, else the next inner receive starts at that
offset with the room left. That this happens within the step of the completing frame is the model's reading (log 15), and
that a START frame leaves the sequence 0 where it completes the transfer is read from R25 and R26 (log 22). -/
def Obligations.ReceiveBytesCollectsTransfers : Prop :=
  ∀ (s : State) (i : Instr) (f : LogicalFrame) (n : Nat),
    s.Inv → i.wf = true → i.asFrame = some (s.rx.mode, s.params.rxId, f) → s.rx.op = .receiveBytes →
    (s.rx.state = .awaitingStart ∧ (∃ total data, f = .start total data ∧ n = total.toNat ∧
        n ≤ data.length ∧ n ≤ s.rx.capacity.toNat) ∨
      s.rx.state = .awaitingMore ∧ n = s.rx.totalLength.toNat ∧
        ∃ data, f = .endOf data ∧ n - s.rx.receivedLength.toNat ≤ data.length) →
    ∃ t, exec i s = .next t ∧ ReceiverOnly s t ∧ t.link = s.link ∧ t.poll = some (.done (BitVec.ofNat 32 n)) ∧
      t.rx.rbLength = s.rx.rbLength ∧ t.rx.rbAccumulated.toNat = s.rx.rbAccumulated.toNat + n ∧
      (t.rx.rbAccumulated = s.rx.rbLength → t.rx.state = .done ∧ t.rx.resultLen = s.rx.rbLength ∧
        t.rx.started = true ∧ t.rx.totalLength.toNat = n ∧ t.rx.receivedLength.toNat = n ∧
        t.rx.expectedSequence = if s.rx.state = .awaitingStart then 0 else s.rx.expectedSequence) ∧
      (t.rx.rbAccumulated ≠ s.rx.rbLength →
        t.rx.state = .awaitingStart ∧ t.rx.started = false ∧ t.rx.base = t.rx.rbAccumulated ∧
        t.rx.capacity.toNat = s.rx.rbLength.toNat - t.rx.rbAccumulated.toNat ∧
        t.rx.mode = s.rx.mode ∧ t.rx.op = .receiveBytes)

/-- R212: a receiver step that raises an error has stored nothing and advanced no counter. -/
def Obligations.ErrorsArePrecise : Prop :=
  ∀ s t : State, s.rx.live = true → receiverStep s = .next t → t.rx.state = .failed →
    t.dst = s.dst ∧ t.rx = { s.rx with state := .failed, error := t.rx.error } ∧ t.poll = some (.failed t.rx.error)

/-- R55, R203: whatever it polls, a receiver step leaves every byte of DST outside the receive's buffer as it was. -/
def Obligations.StoresStayInsideTheBuffer : Prop :=
  ∀ s t : State, s.Inv → receiverStep s = .next t → DstUndefinedInside s t

/-! ### The whole machine -/

/-- R40: the values the spec gives for reset. -/
def Obligations.ResetValuesAreTheSpecs : Prop :=
  State.reset.rx.state = .idle ∧ State.reset.rx.started = false ∧ State.reset.tx.phase = .idle

/-- R230, R231, and of R178 the cancellation: reset puts both engines in Idle and the caller's abandonment one of them, the
operation without a result. Both leave the same traces (`TracesOnly`): what was sent and what is queued stay, SRC and the
parameters too, the bytes a receive has stored stay and are undefined to the caller, every other byte reads as before.
Nothing is left to clean up: the next RECEIVE is accepted. The caller's abandonment as an event is the model's (log 28), and
so are the free bytes (log 8). -/
def Obligations.AbandonedOperationsLeaveOnlyTheirTraces : Prop :=
  ∀ s : State,
    (s.nextTurn = .reset →
      ∃ t, step s = .next t ∧ t.rx.state = .idle ∧ t.rx.started = false ∧ t.tx.phase = .idle ∧
        t.rx.result = none ∧ t.tx.result = none ∧ TracesOnly s t ∧ ∀ n m, ∃ u, exec (.receive n m) t = .next u) ∧
    (s.nextTurn = .abandon .receiver → s.rx.live = true →
      ∃ t, step s = .next t ∧ t.rx.state = .idle ∧ t.rx.started = false ∧ t.rx.result = none ∧ t.tx = s.tx ∧
        TracesOnly s t ∧ ∀ n m, ∃ u, exec (.receive n m) t = .next u) ∧
    (s.nextTurn = .abandon .sender → s.tx.busy = true →
      ∃ t, step s = .next t ∧ t.tx.phase = .idle ∧ t.tx.result = none ∧ t.rx = s.rx ∧
        t.src = s.src ∧ t.dst = s.dst ∧ t.params = s.params ∧ t.link = s.link ∧ DstUnchanged s t ∧
        ∀ id n m, ∃ u, exec (.send id n m) t = .next u)

/-- R30, R40, R51: no step of any kind changes RX_ID or LEN_MSB_FIRST. -/
def Obligations.ParametersNeverChange : Prop :=
  ∀ s t : State, step s = .next t → t.params = s.params

/-- R3, R61: the engines share no state. A sender step changes no receiver register and no byte of DST and polls nothing; a
receiver step changes no sender register and no byte of SRC and transmits nothing. -/
def Obligations.EnginesShareNoState : Prop :=
  ∀ s t : State,
    (senderStep s = .next t → SenderOnly s t ∧ (s.link.adapter = .driver → t.link.queue = s.link.queue)) ∧
    (receiverStep s = .next t → ReceiverOnly s t)

/-- R61, D31: over a driver, where the link is no channel between them, a sender step and a receiver step may happen in
either order with the same result. -/
def Obligations.EngineStepsCommute : Prop :=
  ∀ s a b : State, s.link.adapter = .driver → senderStep s = .next a → receiverStep s = .next b →
    ∃ t, receiverStep a = .next t ∧ senderStep b = .next t

/-- R22, R214: the receiver leaves Done or Failed only by reset or by the issue of a RECEIVE or RECEIVE_BYTES, and the sender
only by reset or by the issue of a SEND_TRANSFER or SEND. -/
def Obligations.EndedOperationsStayEnded : Prop :=
  ∀ s t : State, step s = .next t →
    (s.rx.ended = true → t.rx.state ≠ s.rx.state →
      s.nextTurn = .reset ∨ (s.nextTurn = .caller ∧ ∃ c rest n m, s.commands = c :: rest ∧
        (decodeCommand c = .ok (.receive n m) ∨ decodeCommand c = .ok (.receiveBytes n m)))) ∧
    (s.tx.ended = true → t.tx.phase ≠ s.tx.phase →
      s.nextTurn = .reset ∨ (s.nextTurn = .caller ∧ ∃ c rest id n m, s.commands = c :: rest ∧
        (decodeCommand c = .ok (.sendTransfer id n m) ∨ decodeCommand c = .ok (.send id n m))))

/-- R64, R61, R243: the caller's store to SRC has no meaning during a send, and its store to DST, or its read of it, none during
a receive; else the byte stored reads back and every other byte is as before, and a read returns the byte and changes nothing
else. The refusals, and the stores and reads as events, are the model's (log 20). -/
def Obligations.BuffersAreLockedDuringOperations : Prop :=
  ∀ (s : State) (off : Word) (b : Byte),
    (s.nextTurn = .writeSrc off b → s.tx.busy = true → step s = .refused .sourceInUse) ∧
    (s.nextTurn = .writeDst off b → s.rx.live = true → step s = .refused .destinationInUse) ∧
    (s.nextTurn = .writeSrc off b → s.tx.busy = false → s.Inv →
      ∃ t, step s = .next t ∧ ∀ a, t.readSrc a = if a = off.toNat then b else s.readSrc a) ∧
    (s.nextTurn = .writeDst off b → s.rx.live = false → s.Inv →
      ∃ t, step s = .next t ∧ ∀ a, t.readDst a = if a = off.toNat then b else s.readDst a) ∧
    (s.nextTurn = .readDst off → s.rx.live = true → step s = .refused .destinationInUse) ∧
    (s.nextTurn = .readDst off → s.rx.live = false →
      step s = .next { s with dstRead := some (s.readDst off.toNat), turns := s.turns.tail })

/-- R221: the loopback adapter is a first-in first-out queue, empty at the start: transmit appends and answers true, poll
removes and returns the oldest frame, or none if the queue is empty. -/
def Obligations.LoopbackIsFirstInFirstOut : Prop :=
  State.reset.link.queue = [] ∧ ∀ (s : State) (raw : RawFrame), s.link.adapter = .loopback →
    (∃ t, linkTransmit raw s = (true, t) ∧ t.link.queue = s.link.queue ++ [raw] ∧ t = { s with link := t.link }) ∧
    (s.link.queue = [] → linkPoll s = (none, s)) ∧
    (∀ old rest, s.link.queue = old :: rest →
      linkPoll s = (some old, { s with link := { s.link with queue := rest } }))

/-- The invariant holds at reset. -/
def Obligations.InvariantHoldsAtReset : Prop := State.reset.Inv

/-- R12, R24, R25, R131, R132, R181: from every state of the invariant, whatever the turn, the command and the frame, a step that
answers a next state keeps the invariant. -/
def Obligations.EveryStepKeepsTheInvariant : Prop :=
  ∀ s t : State, s.Inv → step s = .next t → t.Inv

/-- R137, R178: from every state of the invariant no step faults, and a step of an engine is always enabled. -/
def Obligations.EnginesNeverGetStuck : Prop :=
  ∀ s : State, s.Inv → (∀ r, step s ≠ .fault r) ∧
    (s.nextTurn = .sender ∨ s.nextTurn = .receiver → ∃ t, step s = .next t)

/-- P1: a payload that one transfer can carry, sent by SEND_TRANSFER over the loopback adapter and received by RECEIVE, is
reconstructed byte for byte, in both Modes and for both byte orders; the rest of DST is unchanged. The order of the turns
where no script is given is the model's (log 2). -/
def Obligations.OneTransferRoundTrips : Prop :=
  ∀ (s : State) (len capacity : Word) (mode : Mode),
    s.Inv → s.tx.busy = false → s.rx.live = false → s.turns = [] → s.link.adapter = .loopback → s.link.queue = [] →
    len.toNat ≤ mode.maxTransfer → len.toNat ≤ capacity.toNat →
    s.commands = [⟨0x06#8, { id := s.params.rxId, len := len, mode := mode }⟩,
      ⟨0x09#8, { capacity := capacity, mode := mode }⟩] →
    ∃ n t, Sys2Proof.core.run n s = .next t ∧
      t.tx.phase = .done ∧ t.tx.resultLen = len ∧ t.rx.state = .done ∧ t.rx.resultLen = len ∧
      t.commands = [] ∧ t.link.queue = [] ∧ t.src = s.src ∧
      (∀ a, a < len.toNat → t.readDst a = s.readSrc a) ∧ (∀ a, len.toNat ≤ a → t.readDst a = s.readDst a)

/-- P2: a message of any length, sent by SEND as one or more transfers over the loopback adapter and collected by
RECEIVE_BYTES, is reconstructed byte for byte, in both Modes and for both byte orders; the rest of DST is unchanged. The
order of the turns where no script is given is the model's (log 2), and so is where an inner transfer ends (log 15). -/
def Obligations.MessagesRoundTrip : Prop :=
  ∀ (s : State) (len : Word) (mode : Mode),
    s.Inv → s.tx.busy = false → s.rx.live = false → s.turns = [] → s.link.adapter = .loopback → s.link.queue = [] →
    s.commands = [⟨0x07#8, { id := s.params.rxId, len := len, mode := mode }⟩,
      ⟨0x0A#8, { length := len, mode := mode }⟩] →
    ∃ n t, Sys2Proof.core.run n s = .next t ∧
      t.tx.phase = .done ∧ t.tx.resultLen = len ∧ t.rx.state = .done ∧ t.rx.resultLen = len ∧
      t.commands = [] ∧ t.link.queue = [] ∧ t.src = s.src ∧
      (∀ a, a < len.toNat → t.readDst a = s.readSrc a) ∧ (∀ a, len.toNat ≤ a → t.readDst a = s.readDst a)
end

