-- ==== Sys2Proof/Laws/State.lean ====
section
/-! SUPPORT. What each field reads after each update of the state, and updates that overwrite each other. -/

namespace Sys2Proof.Machine.State

variable (s : State)

@[simp] theorem setRx_rx (x : Receiver) : (s.setRx x).rx = x := rfl
@[simp] theorem setRx_tx (x : Receiver) : (s.setRx x).tx = s.tx := rfl
@[simp] theorem setRx_params (x : Receiver) : (s.setRx x).params = s.params := rfl
@[simp] theorem setRx_src (x : Receiver) : (s.setRx x).src = s.src := rfl
@[simp] theorem setRx_dst (x : Receiver) : (s.setRx x).dst = s.dst := rfl
@[simp] theorem setRx_dstUndefined (x : Receiver) : (s.setRx x).dstUndefined = s.dstUndefined := rfl
@[simp] theorem setRx_link (x : Receiver) : (s.setRx x).link = s.link := rfl
@[simp] theorem setRx_commands (x : Receiver) : (s.setRx x).commands = s.commands := rfl
@[simp] theorem setRx_codec (x : Receiver) : (s.setRx x).codec = s.codec := rfl
@[simp] theorem setRx_poll (x : Receiver) : (s.setRx x).poll = s.poll := rfl
@[simp] theorem setRx_dstRead (x : Receiver) : (s.setRx x).dstRead = s.dstRead := rfl
@[simp] theorem setRx_turns (x : Receiver) : (s.setRx x).turns = s.turns := rfl
@[simp] theorem setRx_free (x : Receiver) : (s.setRx x).free = s.free := rfl

@[simp] theorem setTx_rx (x : Sender) : (s.setTx x).rx = s.rx := rfl
@[simp] theorem setTx_tx (x : Sender) : (s.setTx x).tx = x := rfl
@[simp] theorem setTx_params (x : Sender) : (s.setTx x).params = s.params := rfl
@[simp] theorem setTx_src (x : Sender) : (s.setTx x).src = s.src := rfl
@[simp] theorem setTx_dst (x : Sender) : (s.setTx x).dst = s.dst := rfl
@[simp] theorem setTx_dstUndefined (x : Sender) : (s.setTx x).dstUndefined = s.dstUndefined := rfl
@[simp] theorem setTx_link (x : Sender) : (s.setTx x).link = s.link := rfl
@[simp] theorem setTx_commands (x : Sender) : (s.setTx x).commands = s.commands := rfl
@[simp] theorem setTx_codec (x : Sender) : (s.setTx x).codec = s.codec := rfl
@[simp] theorem setTx_poll (x : Sender) : (s.setTx x).poll = s.poll := rfl
@[simp] theorem setTx_dstRead (x : Sender) : (s.setTx x).dstRead = s.dstRead := rfl
@[simp] theorem setTx_turns (x : Sender) : (s.setTx x).turns = s.turns := rfl
@[simp] theorem setTx_free (x : Sender) : (s.setTx x).free = s.free := rfl

@[simp] theorem setSrc_rx (x : Memory) : (s.setSrc x).rx = s.rx := rfl
@[simp] theorem setSrc_tx (x : Memory) : (s.setSrc x).tx = s.tx := rfl
@[simp] theorem setSrc_params (x : Memory) : (s.setSrc x).params = s.params := rfl
@[simp] theorem setSrc_src (x : Memory) : (s.setSrc x).src = x := rfl
@[simp] theorem setSrc_dst (x : Memory) : (s.setSrc x).dst = s.dst := rfl
@[simp] theorem setSrc_dstUndefined (x : Memory) : (s.setSrc x).dstUndefined = s.dstUndefined := rfl
@[simp] theorem setSrc_link (x : Memory) : (s.setSrc x).link = s.link := rfl
@[simp] theorem setSrc_commands (x : Memory) : (s.setSrc x).commands = s.commands := rfl
@[simp] theorem setSrc_codec (x : Memory) : (s.setSrc x).codec = s.codec := rfl
@[simp] theorem setSrc_poll (x : Memory) : (s.setSrc x).poll = s.poll := rfl
@[simp] theorem setSrc_dstRead (x : Memory) : (s.setSrc x).dstRead = s.dstRead := rfl
@[simp] theorem setSrc_turns (x : Memory) : (s.setSrc x).turns = s.turns := rfl
@[simp] theorem setSrc_free (x : Memory) : (s.setSrc x).free = s.free := rfl

@[simp] theorem setDst_rx (x : Memory) (u : List Region) : (s.setDst x u).rx = s.rx := rfl
@[simp] theorem setDst_tx (x : Memory) (u : List Region) : (s.setDst x u).tx = s.tx := rfl
@[simp] theorem setDst_params (x : Memory) (u : List Region) : (s.setDst x u).params = s.params := rfl
@[simp] theorem setDst_src (x : Memory) (u : List Region) : (s.setDst x u).src = s.src := rfl
@[simp] theorem setDst_dst (x : Memory) (u : List Region) : (s.setDst x u).dst = x := rfl
@[simp] theorem setDst_dstUndefined (x : Memory) (u : List Region) : (s.setDst x u).dstUndefined = u := rfl
@[simp] theorem setDst_link (x : Memory) (u : List Region) : (s.setDst x u).link = s.link := rfl
@[simp] theorem setDst_commands (x : Memory) (u : List Region) : (s.setDst x u).commands = s.commands := rfl
@[simp] theorem setDst_codec (x : Memory) (u : List Region) : (s.setDst x u).codec = s.codec := rfl
@[simp] theorem setDst_poll (x : Memory) (u : List Region) : (s.setDst x u).poll = s.poll := rfl
@[simp] theorem setDst_dstRead (x : Memory) (u : List Region) : (s.setDst x u).dstRead = s.dstRead := rfl
@[simp] theorem setDst_turns (x : Memory) (u : List Region) : (s.setDst x u).turns = s.turns := rfl
@[simp] theorem setDst_free (x : Memory) (u : List Region) : (s.setDst x u).free = s.free := rfl

@[simp] theorem setLink_rx (x : Link) : (s.setLink x).rx = s.rx := rfl
@[simp] theorem setLink_tx (x : Link) : (s.setLink x).tx = s.tx := rfl
@[simp] theorem setLink_params (x : Link) : (s.setLink x).params = s.params := rfl
@[simp] theorem setLink_src (x : Link) : (s.setLink x).src = s.src := rfl
@[simp] theorem setLink_dst (x : Link) : (s.setLink x).dst = s.dst := rfl
@[simp] theorem setLink_dstUndefined (x : Link) : (s.setLink x).dstUndefined = s.dstUndefined := rfl
@[simp] theorem setLink_link (x : Link) : (s.setLink x).link = x := rfl
@[simp] theorem setLink_commands (x : Link) : (s.setLink x).commands = s.commands := rfl
@[simp] theorem setLink_codec (x : Link) : (s.setLink x).codec = s.codec := rfl
@[simp] theorem setLink_poll (x : Link) : (s.setLink x).poll = s.poll := rfl
@[simp] theorem setLink_dstRead (x : Link) : (s.setLink x).dstRead = s.dstRead := rfl
@[simp] theorem setLink_turns (x : Link) : (s.setLink x).turns = s.turns := rfl
@[simp] theorem setLink_free (x : Link) : (s.setLink x).free = s.free := rfl

@[simp] theorem setCommands_rx (x : List Command) : (s.setCommands x).rx = s.rx := rfl
@[simp] theorem setCommands_tx (x : List Command) : (s.setCommands x).tx = s.tx := rfl
@[simp] theorem setCommands_params (x : List Command) : (s.setCommands x).params = s.params := rfl
@[simp] theorem setCommands_src (x : List Command) : (s.setCommands x).src = s.src := rfl
@[simp] theorem setCommands_dst (x : List Command) : (s.setCommands x).dst = s.dst := rfl
@[simp] theorem setCommands_dstUndefined (x : List Command) : (s.setCommands x).dstUndefined = s.dstUndefined := rfl
@[simp] theorem setCommands_link (x : List Command) : (s.setCommands x).link = s.link := rfl
@[simp] theorem setCommands_commands (x : List Command) : (s.setCommands x).commands = x := rfl
@[simp] theorem setCommands_codec (x : List Command) : (s.setCommands x).codec = s.codec := rfl
@[simp] theorem setCommands_poll (x : List Command) : (s.setCommands x).poll = s.poll := rfl
@[simp] theorem setCommands_dstRead (x : List Command) : (s.setCommands x).dstRead = s.dstRead := rfl
@[simp] theorem setCommands_turns (x : List Command) : (s.setCommands x).turns = s.turns := rfl
@[simp] theorem setCommands_free (x : List Command) : (s.setCommands x).free = s.free := rfl

@[simp] theorem setCodec_rx (x : CodecResult) : (s.setCodec x).rx = s.rx := rfl
@[simp] theorem setCodec_tx (x : CodecResult) : (s.setCodec x).tx = s.tx := rfl
@[simp] theorem setCodec_params (x : CodecResult) : (s.setCodec x).params = s.params := rfl
@[simp] theorem setCodec_src (x : CodecResult) : (s.setCodec x).src = s.src := rfl
@[simp] theorem setCodec_dst (x : CodecResult) : (s.setCodec x).dst = s.dst := rfl
@[simp] theorem setCodec_dstUndefined (x : CodecResult) : (s.setCodec x).dstUndefined = s.dstUndefined := rfl
@[simp] theorem setCodec_link (x : CodecResult) : (s.setCodec x).link = s.link := rfl
@[simp] theorem setCodec_commands (x : CodecResult) : (s.setCodec x).commands = s.commands := rfl
@[simp] theorem setCodec_codec (x : CodecResult) : (s.setCodec x).codec = some x := rfl
@[simp] theorem setCodec_poll (x : CodecResult) : (s.setCodec x).poll = s.poll := rfl
@[simp] theorem setCodec_dstRead (x : CodecResult) : (s.setCodec x).dstRead = s.dstRead := rfl
@[simp] theorem setCodec_turns (x : CodecResult) : (s.setCodec x).turns = s.turns := rfl
@[simp] theorem setCodec_free (x : CodecResult) : (s.setCodec x).free = s.free := rfl

@[simp] theorem setPoll_rx (x : StepResult) : (s.setPoll x).rx = s.rx := rfl
@[simp] theorem setPoll_tx (x : StepResult) : (s.setPoll x).tx = s.tx := rfl
@[simp] theorem setPoll_params (x : StepResult) : (s.setPoll x).params = s.params := rfl
@[simp] theorem setPoll_src (x : StepResult) : (s.setPoll x).src = s.src := rfl
@[simp] theorem setPoll_dst (x : StepResult) : (s.setPoll x).dst = s.dst := rfl
@[simp] theorem setPoll_dstUndefined (x : StepResult) : (s.setPoll x).dstUndefined = s.dstUndefined := rfl
@[simp] theorem setPoll_link (x : StepResult) : (s.setPoll x).link = s.link := rfl
@[simp] theorem setPoll_commands (x : StepResult) : (s.setPoll x).commands = s.commands := rfl
@[simp] theorem setPoll_codec (x : StepResult) : (s.setPoll x).codec = s.codec := rfl
@[simp] theorem setPoll_poll (x : StepResult) : (s.setPoll x).poll = some x := rfl
@[simp] theorem setPoll_dstRead (x : StepResult) : (s.setPoll x).dstRead = s.dstRead := rfl
@[simp] theorem setPoll_turns (x : StepResult) : (s.setPoll x).turns = s.turns := rfl
@[simp] theorem setPoll_free (x : StepResult) : (s.setPoll x).free = s.free := rfl

@[simp] theorem setDstRead_rx (x : Byte) : (s.setDstRead x).rx = s.rx := rfl
@[simp] theorem setDstRead_tx (x : Byte) : (s.setDstRead x).tx = s.tx := rfl
@[simp] theorem setDstRead_params (x : Byte) : (s.setDstRead x).params = s.params := rfl
@[simp] theorem setDstRead_src (x : Byte) : (s.setDstRead x).src = s.src := rfl
@[simp] theorem setDstRead_dst (x : Byte) : (s.setDstRead x).dst = s.dst := rfl
@[simp] theorem setDstRead_dstUndefined (x : Byte) : (s.setDstRead x).dstUndefined = s.dstUndefined := rfl
@[simp] theorem setDstRead_link (x : Byte) : (s.setDstRead x).link = s.link := rfl
@[simp] theorem setDstRead_commands (x : Byte) : (s.setDstRead x).commands = s.commands := rfl
@[simp] theorem setDstRead_codec (x : Byte) : (s.setDstRead x).codec = s.codec := rfl
@[simp] theorem setDstRead_poll (x : Byte) : (s.setDstRead x).poll = s.poll := rfl
@[simp] theorem setDstRead_dstRead (x : Byte) : (s.setDstRead x).dstRead = some x := rfl
@[simp] theorem setDstRead_turns (x : Byte) : (s.setDstRead x).turns = s.turns := rfl
@[simp] theorem setDstRead_free (x : Byte) : (s.setDstRead x).free = s.free := rfl

@[simp] theorem setTurns_rx (x : List Turn) : (s.setTurns x).rx = s.rx := rfl
@[simp] theorem setTurns_tx (x : List Turn) : (s.setTurns x).tx = s.tx := rfl
@[simp] theorem setTurns_params (x : List Turn) : (s.setTurns x).params = s.params := rfl
@[simp] theorem setTurns_src (x : List Turn) : (s.setTurns x).src = s.src := rfl
@[simp] theorem setTurns_dst (x : List Turn) : (s.setTurns x).dst = s.dst := rfl
@[simp] theorem setTurns_dstUndefined (x : List Turn) : (s.setTurns x).dstUndefined = s.dstUndefined := rfl
@[simp] theorem setTurns_link (x : List Turn) : (s.setTurns x).link = s.link := rfl
@[simp] theorem setTurns_commands (x : List Turn) : (s.setTurns x).commands = s.commands := rfl
@[simp] theorem setTurns_codec (x : List Turn) : (s.setTurns x).codec = s.codec := rfl
@[simp] theorem setTurns_poll (x : List Turn) : (s.setTurns x).poll = s.poll := rfl
@[simp] theorem setTurns_dstRead (x : List Turn) : (s.setTurns x).dstRead = s.dstRead := rfl
@[simp] theorem setTurns_turns (x : List Turn) : (s.setTurns x).turns = x := rfl
@[simp] theorem setTurns_free (x : List Turn) : (s.setTurns x).free = s.free := rfl

@[simp] theorem setFree_rx (x : Nat) : (s.setFree x).rx = s.rx := rfl
@[simp] theorem setFree_tx (x : Nat) : (s.setFree x).tx = s.tx := rfl
@[simp] theorem setFree_params (x : Nat) : (s.setFree x).params = s.params := rfl
@[simp] theorem setFree_src (x : Nat) : (s.setFree x).src = s.src := rfl
@[simp] theorem setFree_dst (x : Nat) : (s.setFree x).dst = s.dst := rfl
@[simp] theorem setFree_dstUndefined (x : Nat) : (s.setFree x).dstUndefined = s.dstUndefined := rfl
@[simp] theorem setFree_link (x : Nat) : (s.setFree x).link = s.link := rfl
@[simp] theorem setFree_commands (x : Nat) : (s.setFree x).commands = s.commands := rfl
@[simp] theorem setFree_codec (x : Nat) : (s.setFree x).codec = s.codec := rfl
@[simp] theorem setFree_poll (x : Nat) : (s.setFree x).poll = s.poll := rfl
@[simp] theorem setFree_dstRead (x : Nat) : (s.setFree x).dstRead = s.dstRead := rfl
@[simp] theorem setFree_turns (x : Nat) : (s.setFree x).turns = s.turns := rfl
@[simp] theorem setFree_free (x : Nat) : (s.setFree x).free = x := rfl

@[simp] theorem setRx_setRx (x y : Receiver) : (s.setRx x).setRx y = s.setRx y := rfl
@[simp] theorem setTx_setTx (x y : Sender) : (s.setTx x).setTx y = s.setTx y := rfl
@[simp] theorem setLink_setLink (x y : Link) : (s.setLink x).setLink y = s.setLink y := rfl
@[simp] theorem setPoll_setPoll (x y : StepResult) : (s.setPoll x).setPoll y = s.setPoll y := rfl
@[simp] theorem setTurns_setTurns (x y : List Turn) : (s.setTurns x).setTurns y = s.setTurns y := rfl
@[simp] theorem setFree_setFree (x y : Nat) : (s.setFree x).setFree y = s.setFree y := rfl

end Sys2Proof.Machine.State
end

