-- ==== Sys2Proof/Laws/Codec.lean ====
section
/-! SUPPORT. The codec: what the length field reads back, what the parser answers for each kind, and that a wire row is read
as its logical frame. -/

namespace Sys2Proof

/-! ### Capacities -/

@[simp] theorem Mode.startCapacity_classic : Mode.classic.startCapacity = 6 := rfl
@[simp] theorem Mode.startCapacity_extended : Mode.extended.startCapacity = 61 := rfl
@[simp] theorem Mode.consecutiveCapacity_classic : Mode.classic.consecutiveCapacity = 6 := rfl
@[simp] theorem Mode.consecutiveCapacity_extended : Mode.extended.consecutiveCapacity = 62 := rfl
@[simp] theorem Mode.endCapacity_classic : Mode.classic.endCapacity = 7 := rfl
@[simp] theorem Mode.endCapacity_extended : Mode.extended.endCapacity = 63 := rfl
@[simp] theorem Mode.linkCapacity_classic : Mode.classic.linkCapacity = 8 := rfl
@[simp] theorem Mode.linkCapacity_extended : Mode.extended.linkCapacity = 64 := rfl
@[simp] theorem Mode.lenFieldBytes_classic : Mode.classic.lenFieldBytes = 1 := rfl
@[simp] theorem Mode.lenFieldBytes_extended : Mode.extended.lenFieldBytes = 2 := rfl
@[simp] theorem Mode.maxLenField_classic : Mode.classic.maxLenField = 255 := by decide
@[simp] theorem Mode.maxLenField_extended : Mode.extended.maxLenField = 65535 := by decide
@[simp] theorem Mode.maxTransfer_classic : Mode.classic.maxTransfer = 255 := by decide
@[simp] theorem Mode.maxTransfer_extended : Mode.extended.maxTransfer = 15934 := by decide

theorem Mode.maxTransfer_le_maxLenField (m : Mode) : m.maxTransfer ≤ m.maxLenField := by cases m <;> decide

/-! ### The length field -/

@[simp] theorem lenField_length (msb : Bool) (m : Mode) (v : Word) : (lenField msb m v).length = m.lenFieldBytes := by
  cases m
  · rfl
  · cases msb <;> rfl

/-- The length field reads back, where it can hold the value (R79, R104). -/
theorem readLenField_lenField (msb : Bool) (m : Mode) (v : Word) (rest : List Byte) (h : v.toNat ≤ m.maxLenField) :
    readLenField msb m (lenField msb m v ++ rest) = some (v, rest) := by
  have hv := v.isLt
  cases m
  · simp only [Mode.maxLenField_classic] at h
    simp only [lenField, List.cons_append, List.nil_append, readLenField, Option.some.injEq, Prod.mk.injEq, and_true]
    apply BitVec.eq_of_toNat_eq
    simp only [BitVec.toNat_ofNat, BitVec.toNat_setWidth]
    omega
  · simp only [Mode.maxLenField_extended] at h
    cases msb <;>
    · simp only [lenField, be16, le16, List.cons_append, List.nil_append, readLenField, if_true, if_false,
        Bool.false_eq_true, Option.some.injEq, Prod.mk.injEq, and_true]
      apply BitVec.eq_of_toNat_eq
      simp only [BitVec.toNat_ofNat, BitVec.toNat_setWidth, BitVec.extractLsb'_toNat, Nat.shiftRight_eq_div_pow]
      omega

/-- The value read fits the field, and writing it back gives the bytes read (R79). -/
theorem lenField_readLenField {msb : Bool} {m : Mode} {bytes rest : List Byte} {v : Word}
    (h : readLenField msb m bytes = some (v, rest)) : v.toNat ≤ m.maxLenField ∧ bytes = lenField msb m v ++ rest := by
  cases m
  · match bytes, h with
    | b :: r, h =>
      simp only [readLenField, Option.some.injEq, Prod.mk.injEq] at h
      obtain ⟨rfl, rfl⟩ := h
      have hb := b.isLt
      refine ⟨by simp only [BitVec.toNat_ofNat, Mode.maxLenField_classic]; omega, ?_⟩
      simp only [lenField, List.cons_append, List.nil_append, List.cons.injEq, and_true]
      apply BitVec.eq_of_toNat_eq
      simp only [BitVec.toNat_ofNat, BitVec.toNat_setWidth]
      omega
  · match bytes, h with
    | b1 :: b2 :: r, h =>
      simp only [readLenField, Option.some.injEq, Prod.mk.injEq] at h
      obtain ⟨rfl, rfl⟩ := h
      have h1 := b1.isLt
      have h2 := b2.isLt
      cases msb <;>
      · simp only [if_true, if_false, Bool.false_eq_true]
        refine ⟨by simp only [BitVec.toNat_ofNat, Mode.maxLenField_extended]; omega, ?_⟩
        simp only [lenField, be16, le16, if_true, if_false, Bool.false_eq_true, List.cons_append, List.nil_append,
          List.cons.injEq, and_true]
        constructor <;>
        · apply BitVec.eq_of_toNat_eq
          simp only [BitVec.toNat_ofNat, BitVec.toNat_setWidth, BitVec.extractLsb'_toNat, Nat.shiftRight_eq_div_pow]
          omega

@[simp] theorem flowCommandOf_flowByte (c : FlowCommand) : flowCommandOf (flowByte c) = some c := by cases c <;> decide

theorem flowByte_of_flowCommandOf {b : Byte} {c : FlowCommand} (h : flowCommandOf b = some c) : flowByte c = b := by
  unfold flowCommandOf at h
  split at h
  · cases h; simp [flowByte, *]
  · split at h
    · cases h; simp [flowByte, *]
    · split at h
      · cases h; simp [flowByte, *]
      · exact absurd h (by simp)

/-! ### The parser, kind by kind -/

theorem parseFrame_start {msb : Bool} {m : Mode} {total : Word} {data : List Byte}
    (hd : data.length ≤ m.startCapacity) (ht : total.toNat ≤ m.maxLenField) :
    parseFrame msb m (layoutStart msb m total data) = .ok (.start total data) := by
  unfold parseFrame layoutStart
  rw [if_neg]
  · simp only [if_true, readLenField_lenField msb m total data ht]
  · simp only [List.length_cons, List.length_append, lenField_length]
    cases m <;> simp_all <;> omega

theorem parseFrame_consecutive {msb : Bool} {m : Mode} {sequence : Byte} {data : List Byte}
    (hd : data.length ≤ m.consecutiveCapacity) :
    parseFrame msb m (layoutConsecutive sequence data) = .ok (.consecutive sequence data) := by
  unfold parseFrame layoutConsecutive
  rw [if_neg]
  · simp [tagConsecutive, tagStart]
  · simp only [List.length_cons]
    cases m <;> simp_all <;> omega

theorem parseFrame_end {msb : Bool} {m : Mode} {data : List Byte} (hd : data.length ≤ m.endCapacity) :
    parseFrame msb m (layoutEnd data) = .ok (.endOf data) := by
  unfold parseFrame layoutEnd
  rw [if_neg]
  · simp [tagEnd, tagConsecutive, tagStart]
  · simp only [List.length_cons]
    cases m <;> simp_all <;> omega

theorem parseFrame_flowControl {msb : Bool} {m : Mode} {c : FlowCommand} {ignored : List Byte}
    (hd : 2 + ignored.length ≤ m.linkCapacity) :
    parseFrame msb m (layoutFlowControl c ++ ignored) = .ok (.flowControl c) := by
  unfold parseFrame layoutFlowControl
  rw [if_neg]
  · simp [tagFlowControl, tagEnd, tagConsecutive, tagStart]
  · simp only [List.cons_append, List.nil_append, List.length_cons]
    omega

theorem parseFrame_error {msb : Bool} {m : Mode} {code : Byte} {ignored : List Byte}
    (hd : 2 + ignored.length ≤ m.linkCapacity) :
    parseFrame msb m (layoutError code ++ ignored) = .ok (.error code) := by
  unfold parseFrame layoutError
  rw [if_neg]
  · simp [tagError, tagFlowControl, tagEnd, tagConsecutive, tagStart]
  · simp only [List.cons_append, List.nil_append, List.length_cons]
    omega

/-- Everything the parser can answer with a frame (R110 to R115): the bytes are that kind's layout, within its bounds, so
encoding the frame again gives them back; a FLOWCONTROL or ERROR frame may carry more, which are lost (R120). -/
theorem parseFrame_cases {msb : Bool} {m : Mode} {bytes : List Byte} {f : LogicalFrame}
    (h : parseFrame msb m bytes = .ok f) :
    (∃ total data, f = .start total data ∧ bytes = layoutStart msb m total data ∧
      data.length ≤ m.startCapacity ∧ total.toNat ≤ m.maxLenField) ∨
    (∃ sequence data, f = .consecutive sequence data ∧ bytes = layoutConsecutive sequence data ∧
      data.length ≤ m.consecutiveCapacity) ∨
    (∃ data, f = .endOf data ∧ bytes = layoutEnd data ∧ data.length ≤ m.endCapacity) ∨
    (∃ c ignored, f = .flowControl c ∧ bytes = layoutFlowControl c ++ ignored ∧
      2 + ignored.length ≤ m.linkCapacity) ∨
    (∃ code ignored, f = .error code ∧ bytes = layoutError code ++ ignored ∧
      2 + ignored.length ≤ m.linkCapacity) := by
  unfold parseFrame at h
  split at h
  · exact absurd h (by simp)
  rename_i hlen
  split at h
  · exact absurd h (by simp)
  rename_i tag rest
  simp only [List.length_cons] at hlen
  split at h
  · subst_vars
    split at h
    · rename_i total data hr
      cases h
      obtain ⟨hv, rfl⟩ := lenField_readLenField hr
      refine .inl ⟨total, data, rfl, rfl, ?_, hv⟩
      simp only [List.length_append, lenField_length] at hlen
      cases m <;> simp_all <;> omega
    · exact absurd h (by simp)
  split at h
  · subst_vars
    split at h
    · rename_i sequence data
      cases h
      refine .inr (.inl ⟨sequence, data, rfl, rfl, ?_⟩)
      simp only [List.length_cons] at hlen
      cases m <;> simp_all <;> omega
    · exact absurd h (by simp)
  split at h
  · subst_vars
    cases h
    refine .inr (.inr (.inl ⟨rest, rfl, rfl, ?_⟩))
    cases m <;> simp_all <;> omega
  split at h
  · subst_vars
    split at h
    · rename_i b ignored
      split at h
      · rename_i c hc
        cases h
        refine .inr (.inr (.inr (.inl ⟨c, ignored, rfl, ?_, ?_⟩)))
        · simp [layoutFlowControl, flowByte_of_flowCommandOf hc]
        · simp only [List.length_cons] at hlen
          omega
      · exact absurd h (by simp)
    · exact absurd h (by simp)
  split at h
  · subst_vars
    split at h
    · rename_i code ignored
      cases h
      refine .inr (.inr (.inr (.inr ⟨code, ignored, rfl, rfl, ?_⟩)))
      simp only [List.length_cons] at hlen
      omega
    · exact absurd h (by simp)
  · exact absurd h (by simp)

/-! ### Lengths -/

/-- The 8-bit `length` counts the bytes of every raw frame. -/
theorem RawFrame.length_toNat {r : RawFrame} (h : r.wf = true) : r.length.toNat = r.bytes.length := by
  simp only [RawFrame.wf, decide_eq_true_eq] at h
  simp only [RawFrame.length, BitVec.toNat_ofNat]
  omega

theorem RawFrame.wf_of_le {r : RawFrame} {m : Mode} (h : r.bytes.length ≤ m.linkCapacity) : r.wf = true := by
  simp only [RawFrame.wf, decide_eq_true_eq]
  cases m <;> simp at h <;> omega

/-- What parses is no longer than the link carries (R117), so an 8-bit `length` counts it. -/
theorem parseFrame_length {msb : Bool} {m : Mode} {bytes : List Byte} {f : LogicalFrame}
    (h : parseFrame msb m bytes = .ok f) : bytes.length ≤ m.linkCapacity := by
  unfold parseFrame at h
  split at h
  · exact absurd h (by simp)
  · omega

theorem RawFrame.wf_of_parseFrame {msb : Bool} {m : Mode} {r : RawFrame} {f : LogicalFrame}
    (h : parseFrame msb m r.bytes = .ok f) : r.wf = true := RawFrame.wf_of_le (parseFrame_length h)

end Sys2Proof

namespace Sys2Proof.Machine

/-! ### What a port takes, and DECODE -/

theorem takeFrame_of_wf {raw : RawFrame} (h : raw.wf = true) (r : Result) : takeFrame raw r = r := if_pos h

theorem takeFrame_of_not_wf {raw : RawFrame} (h : raw.wf = false) (r : Result) :
    takeFrame raw r = .refused .frameTooLong := by simp [takeFrame, h]

/-- DECODE of a frame that parses (R111 to R115). -/
theorem execDecode_ok {s : State} {m : Mode} {raw : RawFrame} {f : LogicalFrame}
    (h : parseFrame s.params.lenMsbFirst m raw.bytes = .ok f) :
    execDecode m raw s = .next (s.setCodec (.logical f)) := by
  unfold execDecode
  rw [takeFrame_of_wf (RawFrame.wf_of_parseFrame h), h]

/-- DECODE of a raw frame that does not parse (R116, R117). -/
theorem execDecode_error {s : State} {m : Mode} {raw : RawFrame} {e : ParseError} (hw : raw.wf = true)
    (h : parseFrame s.params.lenMsbFirst m raw.bytes = .error e) :
    execDecode m raw s = .next (s.setCodec (.parseError e)) := by
  unfold execDecode
  rw [takeFrame_of_wf hw, h]

/-- DECODE of more bytes than a raw frame has. -/
theorem execDecode_too_long {m : Mode} {raw : RawFrame} (hw : raw.wf = false) (s : State) :
    execDecode m raw s = .refused .frameTooLong := takeFrame_of_not_wf hw _

/-- Everything DECODE can do if it answers a next state: it returns a logical frame or the ParseError. -/
theorem execDecode_next {s t : State} {m : Mode} {raw : RawFrame} (h : execDecode m raw s = .next t) :
    (∃ f, t = s.setCodec (.logical f)) ∨ ∃ e, t = s.setCodec (.parseError e) := by
  cases hw : raw.wf
  · rw [execDecode_too_long hw] at h; cases h
  · cases hp : parseFrame s.params.lenMsbFirst m raw.bytes with
    | ok g => rw [execDecode_ok hp] at h; cases h; exact .inl ⟨g, rfl⟩
    | error e => rw [execDecode_error hw hp] at h; cases h; exact .inr ⟨e, rfl⟩

/-- Everything an ENC operation can do if it answers a next state: it returns its frame. -/
theorem returnFrame_next {s t : State} {raw : Option RawFrame} (h : returnFrame raw s = .next t) :
    ∃ r, raw = some r ∧ t = s.setCodec (.raw r) := by
  cases raw with
  | none => cases h
  | some r => cases h; exact ⟨r, rfl, rfl⟩

/-- What DECODE returned says how the frame parses. -/
theorem execDecode_logical {s t : State} {m : Mode} {raw : RawFrame} {f : LogicalFrame}
    (h : execDecode m raw s = .next t) (hc : t.codec = some (.logical f)) :
    parseFrame s.params.lenMsbFirst m raw.bytes = .ok f := by
  cases hw : raw.wf
  · rw [execDecode_too_long hw] at h; cases h
  · cases hp : parseFrame s.params.lenMsbFirst m raw.bytes with
    | ok g => rw [execDecode_ok hp] at h; cases h; cases hc; rfl
    | error e => rw [execDecode_error hw hp] at h; cases h; cases hc

end Sys2Proof.Machine
end

