-- ==== Sys2Proof/Laws/Memory.lean ====
section
/-! SUPPORT. The byte spaces: a read after a write, every write keeps the canonical form, block reads and writes are byte
reads and writes, and a store defines what it stores. -/

namespace Sys2Proof.Machine

/-! ### One byte -/

theorem Memory.read_of_lt {m : Memory} {a : Nat} (h : ∀ c ∈ m, a < c.1) : Memory.read m a = unlistedByte := by
  induction m with
  | nil => rfl
  | cons c r ih =>
    have hc : a < c.1 := h c (by simp)
    have : a ≠ c.1 := by omega
    simp only [Memory.read, this, if_false]
    exact ih fun x hx => h x (by simp [hx])

theorem Memory.wf_tail {c : Host.Cell} {m : Memory} (h : Memory.wf (c :: m)) :
    Memory.wf m ∧ (∀ x ∈ m, c.1 < x.1) ∧ c.2 ≠ unlistedByte := by
  obtain ⟨hp, hd⟩ := h
  rw [List.pairwise_cons] at hp
  exact ⟨⟨hp.2, fun x hx => hd x (by simp [hx])⟩, hp.1, hd c (by simp)⟩

/-- Every key of a written space is the key written or an old one. -/
theorem Memory.mem_write {m : Memory} {a : Nat} {v : Byte} {c : Host.Cell} (h : c ∈ Memory.write m a v) :
    (c = (a, v) ∧ v ≠ unlistedByte) ∨ c ∈ m := by
  induction m with
  | nil =>
    unfold Memory.write at h
    split at h <;> simp_all
  | cons d r ih =>
    obtain ⟨k, w⟩ := d
    unfold Memory.write at h
    split at h
    · split at h <;> simp_all
    · split at h
      · split at h <;> simp_all
        rcases h with h | h <;> simp [h]
      · rcases List.mem_cons.1 h with h | h
        · simp [h]
        · rcases ih h with h' | h' <;> simp [h']

/-- A write keeps the canonical form. -/
theorem Memory.wf_write {m : Memory} (hm : Memory.wf m) (a : Nat) (v : Byte) : Memory.wf (Memory.write m a v) := by
  induction m with
  | nil =>
    unfold Memory.write
    split <;> simp_all [Memory.wf]
  | cons d r ih =>
    obtain ⟨k, w⟩ := d
    obtain ⟨hr, hlt, hw⟩ := Memory.wf_tail hm
    simp only at hlt hw
    unfold Memory.write
    split
    · split
      · exact hm
      · refine ⟨List.pairwise_cons.2 ⟨?_, hm.1⟩, ?_⟩
        · intro x hx
          rcases List.mem_cons.1 hx with rfl | hx
          · assumption
          · exact Nat.lt_trans ‹_› (hlt x hx)
        · intro x hx
          rcases List.mem_cons.1 hx with rfl | hx
          · assumption
          · exact hm.2 x hx
    · split
      · split
        · exact hr
        · subst_vars
          refine ⟨List.pairwise_cons.2 ⟨hlt, hr.1⟩, ?_⟩
          intro x hx
          rcases List.mem_cons.1 hx with rfl | hx
          · assumption
          · exact hr.2 x hx
      · refine ⟨List.pairwise_cons.2 ⟨?_, (ih hr).1⟩, ?_⟩
        · intro x hx
          rcases Memory.mem_write hx with ⟨rfl, -⟩ | hx
          · simp only; omega
          · exact hlt x hx
        · intro x hx
          rcases List.mem_cons.1 hx with rfl | hx
          · exact hw
          · exact (ih hr).2 x hx

/-- A read after a write. -/
theorem Memory.read_write {m : Memory} (hm : Memory.wf m) (a b : Nat) (v : Byte) :
    Memory.read (Memory.write m a v) b = if b = a then v else Memory.read m b := by
  induction m with
  | nil =>
    unfold Memory.write
    split <;> simp_all [Memory.read]
  | cons d r ih =>
    obtain ⟨k, w⟩ := d
    obtain ⟨hr, hlt, hw⟩ := Memory.wf_tail hm
    simp only at hlt hw
    unfold Memory.write
    split
    · split
      · split
        · subst_vars
          rw [Memory.read_of_lt]
          intro c hc
          rcases List.mem_cons.1 hc with rfl | hc
          · assumption
          · exact Nat.lt_trans ‹_› (hlt c hc)
        · rfl
      · simp [Memory.read]
    · split
      · subst_vars
        split
        · subst_vars
          split
          · subst_vars
            rw [Memory.read_of_lt hlt]
          · simp [Memory.read, *]
        · simp only [Memory.read]
          split <;> rfl
      · simp only [Memory.read, ih hr]
        split
        · subst_vars
          rw [if_neg (by omega)]
        · rfl

/-! ### Blocks -/

@[simp] theorem Memory.readBytes_length (m : Memory) (a n : Nat) : (Memory.readBytes m a n).length = n := by
  induction n generalizing a with
  | zero => rfl
  | succ n ih => simp [Memory.readBytes, ih]

theorem Memory.readBytes_getElem (m : Memory) (a n k : Nat) (h : k < (Memory.readBytes m a n).length) :
    (Memory.readBytes m a n)[k] = Memory.read m (a + k) := by
  induction n generalizing a k with
  | zero => simp [Memory.readBytes] at h
  | succ n ih =>
    cases k with
    | zero => simp [Memory.readBytes]
    | succ k =>
      simp only [Memory.readBytes, List.getElem_cons_succ]
      rw [ih]
      congr 1
      omega

/-- A block read is the bytes of SRC in order. -/
theorem readBytes_eq_srcBytes (s : State) (a n : Nat) : Memory.readBytes s.src a n = s.srcBytes a n := by
  apply List.ext_getElem
  · simp [State.srcBytes]
  · intro k h _
    rw [Memory.readBytes_getElem]
    simp [State.srcBytes, State.readSrc]

theorem Memory.wf_writeBytes {m : Memory} (hm : Memory.wf m) (a : Nat) (v : List Byte) :
    Memory.wf (Memory.writeBytes m a v) := by
  induction v generalizing m a with
  | nil => exact hm
  | cons b bs ih => exact ih (Memory.wf_write hm a b) (a + 1)

theorem Memory.mem_writeBytes {m : Memory} {a : Nat} {v : List Byte} {c : Host.Cell}
    (h : c ∈ Memory.writeBytes m a v) : (a ≤ c.1 ∧ c.1 < a + v.length) ∨ c ∈ m := by
  induction v generalizing m a with
  | nil => exact .inr h
  | cons b bs ih =>
    simp only [List.length_cons]
    rcases ih h with h | h
    · left; omega
    · rcases Memory.mem_write h with ⟨rfl, -⟩ | h
      · left; simp only; omega
      · exact .inr h

/-- A read after a block write. -/
theorem Memory.read_writeBytes {m : Memory} (hm : Memory.wf m) (a b : Nat) (v : List Byte) :
    Memory.read (Memory.writeBytes m a v) b =
      if h : a ≤ b ∧ b < a + v.length then v[b - a]'(by omega) else Memory.read m b := by
  induction v generalizing m a with
  | nil =>
    simp only [Memory.writeBytes, List.length_nil]
    rw [dif_neg (by omega)]
  | cons x xs ih =>
    simp only [Memory.writeBytes, List.length_cons]
    rw [ih (Memory.wf_write hm a x), Memory.read_write hm]
    by_cases h1 : b = a
    · subst h1
      rw [dif_neg (by omega), dif_pos (by omega)]
      simp
    · by_cases h2 : a + 1 ≤ b ∧ b < a + 1 + xs.length
      · rw [dif_pos h2, dif_pos (by omega)]
        obtain ⟨k, rfl⟩ : ∃ k, b = a + 1 + k := ⟨b - (a + 1), by omega⟩
        have e1 : a + 1 + k - (a + 1) = k := by omega
        have e2 : a + 1 + k - a = k + 1 := by omega
        simp [e1, e2]
      · rw [dif_neg h2, dif_neg (by omega), if_neg h1]

/-! ### The undefined regions -/

theorem Region.find_append (rs ts : List Region) (a : Nat) :
    Region.find (rs ++ ts) a = (Region.find rs a).or (Region.find ts a) := by
  induction rs with
  | nil => simp [Region.find]
  | cons r rs ih =>
    simp only [List.cons_append, Region.find]
    split <;> simp_all

theorem Region.find_minus (lo hi : Nat) (r : Region) (a : Nat) :
    Region.find (Region.minus lo hi r) a =
      if r.lo ≤ a ∧ a < r.hi ∧ ¬(lo ≤ a ∧ a < hi) then some r.stamp else none := by
  unfold Region.minus
  rw [Region.find_append]
  by_cases h1 : r.lo < min r.hi lo <;> by_cases h2 : max r.lo hi < r.hi <;>
    simp only [h1, h2, if_true, if_false, Region.find] <;> repeat' split
  all_goals first | rfl | (exfalso; omega)

/-- What a store defines is no longer undefined; every other offset is as before. -/
theorem Region.find_minusAll (lo hi : Nat) (rs : List Region) (a : Nat) :
    Region.find (Region.minusAll lo hi rs) a = if lo ≤ a ∧ a < hi then none else Region.find rs a := by
  induction rs with
  | nil => simp [Region.minusAll, Region.find]
  | cons r rs ih =>
    simp only [Region.minusAll, Region.find_append, Region.find_minus, ih, Region.find]
    by_cases h : lo ≤ a ∧ a < hi
    · simp [h]
    · by_cases h2 : r.lo ≤ a ∧ a < r.hi
      · simp [h, h2]
      · rw [if_neg (fun h' => h2 ⟨h'.1, h'.2.1⟩)]
        simp [h, h2]

theorem Region.minus_nonempty {lo hi : Nat} {r x : Region} (h : x ∈ Region.minus lo hi r) : x.lo < x.hi := by
  unfold Region.minus at h
  rcases List.mem_append.1 h with h | h <;> split at h <;> simp_all

theorem Region.minusAll_nonempty {lo hi : Nat} {rs : List Region} {x : Region}
    (h : x ∈ Region.minusAll lo hi rs) : x.lo < x.hi := by
  induction rs with
  | nil => simp [Region.minusAll] at h
  | cons r rs ih =>
    rcases List.mem_append.1 h with h | h
    · exact Region.minus_nonempty h
    · exact ih h

/-! ### MemRead, MemWrite -/

/-- MemRead answers the bytes of SRC wherever the offsets exist. -/
theorem memReadSrc_eq {s : State} {off n : Nat} (h : off + n ≤ offsetSpace) :
    memReadSrc s off n = some (s.srcBytes off n) := by
  simp [memReadSrc, h, readBytes_eq_srcBytes]

/-- What MemRead answers, if it answers. -/
theorem memReadSrc_some {s : State} {off n : Nat} {v : List Byte} (h : memReadSrc s off n = some v) :
    v = s.srcBytes off n := by
  unfold memReadSrc at h
  split at h
  · rw [readBytes_eq_srcBytes] at h
    exact (Option.some.inj h).symm
  · exact absurd h (by simp)

/-- MemWrite happens wherever the offsets exist. -/
theorem memWriteDst_isSome {s : State} {off : Nat} {v : List Byte} (h : off + v.length ≤ offsetSpace) :
    ∃ t, memWriteDst s off v = some t := by
  unfold memWriteDst
  split
  · exact ⟨s, rfl⟩
  · exact ⟨_, rfl⟩

/-- What MemWrite changes: DST and its undefined regions, nothing else. -/
theorem memWriteDst_frame {s t : State} {off : Nat} {v : List Byte} (h : memWriteDst s off v = some t) :
    t = s.setDst t.dst t.dstUndefined := by
  unfold memWriteDst at h
  split at h
  · cases h; rfl
  · split at h
    · cases h; rfl
    · exact absurd h (by simp)

/-- MemWrite keeps DST canonical and inside the offsets that exist. -/
theorem memWriteDst_ok {s t : State} {off : Nat} {v : List Byte} (h : memWriteDst s off v = some t)
    (hd : Memory.Ok s.dst) (hu : ∀ r ∈ s.dstUndefined, r.lo < r.hi) :
    Memory.Ok t.dst ∧ ∀ r ∈ t.dstUndefined, r.lo < r.hi := by
  unfold memWriteDst at h
  split at h
  · cases h; exact ⟨hd, hu⟩
  · split at h
    · cases h
      refine ⟨⟨Memory.wf_writeBytes hd.1 _ _, ?_⟩, fun r hr => Region.minusAll_nonempty hr⟩
      intro c hc
      rcases Memory.mem_writeBytes hc with hc | hc
      · omega
      · exact hd.2 c hc
    · exact absurd h (by simp)

/-- What the caller reads after MemWrite. -/
theorem memWriteDst_stored {s t : State} {off : Nat} {v : List Byte} (h : memWriteDst s off v = some t)
    (hd : Memory.wf s.dst) : DstStored s t off v := by
  unfold memWriteDst at h
  split at h
  · cases h
    subst_vars
    exact ⟨fun k hk => absurd hk (by simp), fun _ _ => rfl⟩
  · split at h
    · cases h
      constructor
      · intro k hk
        simp only [State.readDst, State.setDst_dstUndefined, State.setDst_dst, Region.find_minusAll]
        rw [if_pos (by omega), Memory.read_writeBytes hd, dif_pos (by omega)]
        simp
      · intro a ha
        simp only [State.readDst, State.setDst_dstUndefined, State.setDst_dst, Region.find_minusAll]
        rw [if_neg (by omega), Memory.read_writeBytes hd, dif_neg (by omega)]
    · exact absurd h (by simp)

/-! ### What errors, abandonment and reset leave undefined -/

/-- Marking offsets of DST undefined writes no register and no byte. -/
theorem markUndefined_frame (lo hi : Nat) (s : State) :
    markUndefined lo hi s =
      { s with dstUndefined := (markUndefined lo hi s).dstUndefined, free := (markUndefined lo hi s).free } := by
  unfold markUndefined
  split <;> rfl

/-- What the caller reads after it: a free value at the offsets marked, every other byte as before. -/
theorem markUndefined_readDst (lo hi : Nat) (s : State) (a : Nat) :
    (markUndefined lo hi s).readDst a = if lo ≤ a ∧ a < hi then Config.freeByte s.free a else s.readDst a := by
  unfold markUndefined
  split
  · rw [if_neg (by omega)]
  · simp only [State.readDst, State.setFree_dstUndefined, State.setFree_dst, State.setDst_dstUndefined,
      State.setDst_dst, Region.find]
    by_cases h : lo ≤ a ∧ a < hi
    · simp only [if_pos h]
    · simp only [if_neg h]

theorem markUndefined_nonempty {s : State} (lo hi : Nat) (hu : ∀ r ∈ s.dstUndefined, r.lo < r.hi) :
    ∀ r ∈ (markUndefined lo hi s).dstUndefined, r.lo < r.hi := by
  unfold markUndefined
  split
  · exact hu
  · intro r hr
    simp only [State.setFree_dstUndefined, State.setDst_dstUndefined, List.mem_cons] at hr
    rcases hr with rfl | hr
    · simp only; omega
    · exact hu r hr

end Sys2Proof.Machine
end

