-- ==== Sys2Proof/Laws/PerInstr.lean ====
section
/-! SUPPORT. What holds of every instruction as syntax: family `RowBounds`. -/

namespace Sys2Proof.Laws.RowBounds

/-- What a well-formed instruction is encoded to fits its row of the table (R71, R92, R94): a wire row is a frame whose first
byte is one of the five tags and whose length is within the link capacity, an operation a command with one of the eleven
codes. -/
def Statement (i : Instr) : Prop :=
  i.wf = true → ∀ msb,
    match encode msb i with
    | .frame m raw => ∃ tag rest, raw.bytes = tag :: rest ∧ tag.toNat ≤ 4 ∧ raw.bytes.length ≤ m.linkCapacity
    | .command c => c.code.toNat ≤ 0x0A

theorem startC (id : Word) (total : Byte) (data : List Byte) : Statement (.startC id total data) := by
  intro h msb
  refine ⟨_, _, rfl, by decide, ?_⟩
  simp only [Instr.wf, decide_eq_true_eq] at h
  simp at h
  simp [layoutStart]
  omega

theorem startX (id : Word) (total : BitVec 16) (data : List Byte) : Statement (.startX id total data) := by
  intro h msb
  refine ⟨_, _, rfl, by decide, ?_⟩
  simp only [Instr.wf, decide_eq_true_eq] at h
  simp at h
  simp [layoutStart]
  omega

theorem consecutiveC (id : Word) (sequence : Byte) (data : List Byte) : Statement (.consecutiveC id sequence data) := by
  intro h msb
  refine ⟨_, _, rfl, by decide, ?_⟩
  simp only [Instr.wf, decide_eq_true_eq] at h
  simp at h
  simp [layoutConsecutive]
  omega

theorem consecutiveX (id : Word) (sequence : Byte) (data : List Byte) : Statement (.consecutiveX id sequence data) := by
  intro h msb
  refine ⟨_, _, rfl, by decide, ?_⟩
  simp only [Instr.wf, decide_eq_true_eq] at h
  simp at h
  simp [layoutConsecutive]
  omega

theorem endC (id : Word) (data : List Byte) : Statement (.endC id data) := by
  intro h msb
  refine ⟨_, _, rfl, by decide, ?_⟩
  simp only [Instr.wf, decide_eq_true_eq] at h
  simp at h
  simp [layoutEnd]
  omega

theorem endX (id : Word) (data : List Byte) : Statement (.endX id data) := by
  intro h msb
  refine ⟨_, _, rfl, by decide, ?_⟩
  simp only [Instr.wf, decide_eq_true_eq] at h
  simp at h
  simp [layoutEnd]
  omega

theorem flowcontrolC (id : Word) (command : FlowCommand) (ignored : List Byte) :
    Statement (.flowcontrolC id command ignored) := by
  intro h msb
  refine ⟨_, _, rfl, by decide, ?_⟩
  simp only [Instr.wf, decide_eq_true_eq] at h
  simp at h
  simp [layoutFlowControl]
  omega

theorem flowcontrolX (id : Word) (command : FlowCommand) (ignored : List Byte) :
    Statement (.flowcontrolX id command ignored) := by
  intro h msb
  refine ⟨_, _, rfl, by decide, ?_⟩
  simp only [Instr.wf, decide_eq_true_eq] at h
  simp at h
  simp [layoutFlowControl]
  omega

theorem errorC (id : Word) (code : Byte) (ignored : List Byte) : Statement (.errorC id code ignored) := by
  intro h msb
  refine ⟨_, _, rfl, by decide, ?_⟩
  simp only [Instr.wf, decide_eq_true_eq] at h
  simp at h
  simp [layoutError]
  omega

theorem errorX (id : Word) (code : Byte) (ignored : List Byte) : Statement (.errorX id code ignored) := by
  intro h msb
  refine ⟨_, _, rfl, by decide, ?_⟩
  simp only [Instr.wf, decide_eq_true_eq] at h
  simp at h
  simp [layoutError]
  omega

theorem encStart (mode : Mode) (id total : Word) (data : List Byte) : Statement (.encStart mode id total data) :=
  fun _ _ => by simp [encode]

theorem encCons (mode : Mode) (id : Word) (sequence : Byte) (data : List Byte) :
    Statement (.encCons mode id sequence data) := fun _ _ => by simp [encode]

theorem encEnd (mode : Mode) (id : Word) (data : List Byte) : Statement (.encEnd mode id data) :=
  fun _ _ => by simp [encode]

theorem encFc (mode : Mode) (id : Word) (command : FlowCommand) : Statement (.encFc mode id command) :=
  fun _ _ => by simp [encode]

theorem encErr (mode : Mode) (id : Word) (code : Byte) : Statement (.encErr mode id code) := fun _ _ => by simp [encode]

theorem decode (mode : Mode) (raw : RawFrame) : Statement (.decode mode raw) := fun _ _ => by simp [encode]

theorem sendTransfer (id len : Word) (mode : Mode) : Statement (.sendTransfer id len mode) := fun _ _ => by simp [encode]

theorem send (id len : Word) (mode : Mode) : Statement (.send id len mode) := fun _ _ => by simp [encode]

theorem pollOnce (mode : Mode) : Statement (.pollOnce mode) := fun _ _ => by simp [encode]

theorem receive (capacity : Word) (mode : Mode) : Statement (.receive capacity mode) := fun _ _ => by simp [encode]

theorem receiveBytes (length : Word) (mode : Mode) : Statement (.receiveBytes length mode) :=
  fun _ _ => by simp [encode]

end Sys2Proof.Laws.RowBounds
end

