-- ==== Sys2Proof/Laws/Sender.lean ====
section
/-! SUPPORT. The sender: what LinkTransmit does, everything a sender step can do, the frame each phase sends where the
registers are in order, and that each step keeps them in order. -/

namespace Sys2Proof.Machine

@[simp] theorem word_toNat {n : Nat} (h : n < offsetSpace) : (word n).toNat = n := by
  simp only [offsetSpace] at h
  simp only [word, BitVec.toNat_ofNat]
  omega

@[simp] theorem word_of_toNat (w : Word) : word w.toNat = w := by simp [word]

theorem toNat_lt_space (w : Word) : w.toNat < offsetSpace := w.isLt

/-! ### The encoder's frames -/

/-- A frame of the encoder is one of the five layouts within its Mode's bounds (R104), so an 8-bit `length` counts it. -/
theorem startFrame_some {msb : Bool} {m : Mode} {id total : Word} {data : List Byte} {r : RawFrame}
    (h : startFrame msb m id total data = some r) :
    r = ⟨id, layoutStart msb m total data⟩ ∧ data.length ≤ m.startCapacity ∧ total.toNat ≤ m.maxLenField := by
  simp only [startFrame, startContract, Bool.and_eq_true, decide_eq_true_eq] at h
  split at h
  · cases h; exact ⟨rfl, by assumption⟩
  · cases h

theorem consecutiveFrame_some {m : Mode} {id : Word} {sequence : Byte} {data : List Byte} {r : RawFrame}
    (h : consecutiveFrame m id sequence data = some r) :
    r = ⟨id, layoutConsecutive sequence data⟩ ∧ data.length ≤ m.consecutiveCapacity := by
  simp only [consecutiveFrame, consecutiveContract, decide_eq_true_eq] at h
  split at h
  · cases h; exact ⟨rfl, by assumption⟩
  · cases h

theorem endFrame_some {m : Mode} {id : Word} {data : List Byte} {r : RawFrame} (h : endFrame m id data = some r) :
    r = ⟨id, layoutEnd data⟩ ∧ data.length ≤ m.endCapacity := by
  simp only [endFrame, endContract, decide_eq_true_eq] at h
  split at h
  · cases h; exact ⟨rfl, by assumption⟩
  · cases h

theorem startFrame_wf {msb : Bool} {m : Mode} {id total : Word} {data : List Byte} {r : RawFrame}
    (h : startFrame msb m id total data = some r) : r.wf = true := by
  obtain ⟨rfl, hd, ht⟩ := startFrame_some h
  exact RawFrame.wf_of_parseFrame (parseFrame_start (msb := msb) hd ht)

theorem consecutiveFrame_wf {m : Mode} {id : Word} {sequence : Byte} {data : List Byte} {r : RawFrame}
    (h : consecutiveFrame m id sequence data = some r) : r.wf = true := by
  obtain ⟨rfl, hd⟩ := consecutiveFrame_some h
  exact RawFrame.wf_of_parseFrame (parseFrame_consecutive (msb := true) hd)

theorem endFrame_wf {m : Mode} {id : Word} {data : List Byte} {r : RawFrame} (h : endFrame m id data = some r) :
    r.wf = true := by
  obtain ⟨rfl, hd⟩ := endFrame_some h
  exact RawFrame.wf_of_parseFrame (parseFrame_end (msb := true) hd)

/-! ### The adapter -/

/-- LinkTransmit: its answer, and the adapter after it. -/
theorem linkTransmit_eq (raw : RawFrame) (s : State) :
    linkTransmit raw s = (s.link.accepts, if s.link.accepts then s.setLink (s.link.taking raw) else s) := by
  unfold linkTransmit Link.accepts Link.taking
  cases h : s.link.adapter <;> simp [h]

theorem transmit_of_accepts {raw : RawFrame} {after : Sender} {s : State} (h : s.link.accepts = true) :
    transmit (some raw) after s = .next ((s.setLink (s.link.taking raw)).setTx (afterFrame after)) := by
  simp [transmit, linkTransmit_eq, h]

theorem transmit_of_rejects {raw : RawFrame} {after : Sender} {s : State} (h : s.link.accepts = false) :
    transmit (some raw) after s = .next (s.setTx { s.tx with phase := .failed, error := .linkTransmitFailure }) := by
  simp [transmit, linkTransmit_eq, h, raise]

theorem transmit_next {raw : Option RawFrame} {after : Sender} {s t : State} (h : transmit raw after s = .next t) :
    ∃ r, raw = some r ∧
      ((s.link.accepts = true ∧ t = (s.setLink (s.link.taking r)).setTx (afterFrame after)) ∨
        (s.link.accepts = false ∧ t = s.setTx { s.tx with phase := .failed, error := .linkTransmitFailure })) := by
  match raw, h with
  | some r, h =>
    refine ⟨r, rfl, ?_⟩
    cases ha : s.link.accepts
    · rw [transmit_of_rejects ha] at h
      cases h
      simp
    · rw [transmit_of_accepts ha] at h
      cases h
      simp

/-- Everything a sender step can do if it answers a next state: pass, send a frame, or fail. -/
theorem senderStep_next {s t : State} (h : senderStep s = .next t) :
    (s.tx.busy = false ∧ t = s) ∨
    (s.tx.busy = true ∧ s.link.accepts = true ∧
      ∃ raw after, raw.wf = true ∧ t = (s.setLink (s.link.taking raw)).setTx (afterFrame after)) ∨
    (s.tx.busy = true ∧ s.link.accepts = false ∧
      t = s.setTx { s.tx with phase := .failed, error := .linkTransmitFailure }) := by
  have key : ∀ {raw after}, transmit raw after s = .next t → (∀ r, raw = some r → r.wf = true) → s.tx.busy = true →
      (s.tx.busy = true ∧ s.link.accepts = true ∧
        ∃ raw after, raw.wf = true ∧ t = (s.setLink (s.link.taking raw)).setTx (afterFrame after)) ∨
      (s.tx.busy = true ∧ s.link.accepts = false ∧
        t = s.setTx { s.tx with phase := .failed, error := .linkTransmitFailure }) := by
    intro raw after ht hw hb
    obtain ⟨r, hr, ⟨ha, e⟩ | ⟨ha, e⟩⟩ := transmit_next ht
    · exact .inl ⟨hb, ha, r, after, hw r hr, e⟩
    · exact .inr ⟨hb, ha, e⟩
  unfold senderStep at h
  split at h <;> rename_i hp
  · unfold sendStartFrame at h
    simp only at h
    split at h
    · exact absurd h (by simp)
    · exact .inr (key h (fun _ => startFrame_wf) (by simp [Sender.busy, hp]))
  · unfold sendBodyFrame at h
    simp only at h
    split at h <;> split at h <;>
      first
      | exact .inr (key h (fun _ => endFrame_wf) (by simp [Sender.busy, hp]))
      | exact .inr (key h (fun _ => consecutiveFrame_wf) (by simp [Sender.busy, hp]))
      | exact absurd h (by simp)
  all_goals
    cases h
    exact .inl ⟨by simp [Sender.busy, hp], rfl⟩

theorem Link.taking_driver {l : Link} {raw : RawFrame} (h : l.adapter = .driver) : (l.taking raw).queue = l.queue := by
  simp [Link.taking, h]

@[simp] theorem Link.taking_sent (l : Link) (raw : RawFrame) : (l.taking raw).sent = l.sent ++ [raw] := by
  cases h : l.adapter <;> simp [Link.taking, h]

@[simp] theorem Link.taking_adapter (l : Link) (raw : RawFrame) : (l.taking raw).adapter = l.adapter := by
  cases h : l.adapter <;> simp [Link.taking, h]

@[simp] theorem Link.taking_answer (l : Link) (raw : RawFrame) : (l.taking raw).answer = l.answer := by
  cases h : l.adapter <;> simp [Link.taking, h]

/-- The adapter holds the frame taken and the frames it held. -/
theorem Link.taking_all {l : Link} {raw : RawFrame} {p : RawFrame → Prop} (h : p raw) (hq : ∀ r ∈ l.queue, p r)
    (hs : ∀ r ∈ l.sent, p r) : (∀ r ∈ (l.taking raw).queue, p r) ∧ ∀ r ∈ (l.taking raw).sent, p r := by
  have add : ∀ {q : List RawFrame}, (∀ r ∈ q, p r) → ∀ r ∈ q ++ [raw], p r := fun hq r hr => by
    rcases List.mem_append.1 hr with hr | hr
    · exact hq r hr
    · rw [List.mem_singleton.1 hr]; exact h
  cases ha : l.adapter <;> simp only [Link.taking, ha]
  · exact ⟨add hq, add hs⟩
  · exact ⟨hq, add hs⟩

theorem Link.taking_loopback {l : Link} {raw : RawFrame} (h : l.adapter = .loopback) :
    (l.taking raw).queue = l.queue ++ [raw] := by
  simp [Link.taking, h]

/-- A sender step moves the sender and the adapter only. -/
theorem senderStep_frame {s t : State} (h : senderStep s = .next t) : SenderOnly s t := by
  obtain ⟨-, rfl⟩ | ⟨-, -, raw, after, -, rfl⟩ | ⟨-, -, rfl⟩ := senderStep_next h <;> rfl

/-! ### What each phase sends -/

/-- The step in Start. -/
theorem senderStep_start {s : State} (hok : s.tx.Ok) (hp : s.tx.phase = .start) :
    senderStep s = transmit
      (some ⟨s.tx.id, layoutStart s.params.lenMsbFirst s.tx.mode s.tx.total
        (s.srcBytes s.tx.base.toNat (min s.tx.total.toNat s.tx.mode.startCapacity))⟩)
      { s.tx with sent := word (min s.tx.total.toNat s.tx.mode.startCapacity) } s := by
  obtain ⟨h1, h2⟩ := hok.1 (by simp [Sender.busy, hp])
  have h3 := Mode.maxTransfer_le_maxLenField s.tx.mode
  simp only [senderStep, hp, sendStartFrame]
  rw [memReadSrc_eq (by omega)]
  simp only
  congr 1
  unfold startFrame startContract
  rw [if_pos]
  simp only [State.srcBytes, List.length_map, List.length_range, Bool.and_eq_true, decide_eq_true_eq]
  omega

/-- The step in Body when the rest fits an END frame. -/
theorem senderStep_end {s : State} (hok : s.tx.Ok) (hp : s.tx.phase = .body)
    (hr : s.tx.remaining ≤ s.tx.mode.endCapacity) :
    senderStep s = transmit (some ⟨s.tx.id, layoutEnd (s.srcBytes s.tx.address s.tx.remaining)⟩)
      { s.tx with sent := s.tx.total } s := by
  obtain ⟨h1, h2⟩ := hok.1 (by simp [Sender.busy, hp])
  obtain ⟨h3, -⟩ := hok.2.2.1 hp
  simp only [senderStep, hp, sendBodyFrame, hr, if_true]
  rw [memReadSrc_eq (by simp only [Sender.address, Sender.remaining]; omega)]
  simp only
  congr 1
  unfold endFrame endContract
  rw [if_pos]
  simpa [State.srcBytes] using hr

/-- The step in Body when it does not. -/
theorem senderStep_consecutive {s : State} (hok : s.tx.Ok) (hp : s.tx.phase = .body)
    (hr : s.tx.mode.endCapacity < s.tx.remaining) :
    senderStep s = transmit
      (some ⟨s.tx.id, layoutConsecutive s.tx.seq (s.srcBytes s.tx.address s.tx.mode.consecutiveCapacity)⟩)
      { s.tx with sent := word (s.tx.sent.toNat + s.tx.mode.consecutiveCapacity), seq := s.tx.seq + 1 } s := by
  obtain ⟨h1, h2⟩ := hok.1 (by simp [Sender.busy, hp])
  have hc : s.tx.mode.consecutiveCapacity ≤ s.tx.mode.endCapacity := by cases s.tx.mode <;> decide
  have hr' : ¬ s.tx.remaining ≤ s.tx.mode.endCapacity := by omega
  simp only [senderStep, hp, sendBodyFrame, hr', if_false]
  rw [memReadSrc_eq (by simp only [Sender.address, Sender.remaining] at *; omega)]
  simp only
  congr 1
  unfold consecutiveFrame consecutiveContract
  rw [if_pos]
  simp [State.srcBytes]

/-- Where the registers are in order a busy sender offers a frame: it neither faults nor refuses. -/
theorem senderStep_busy {s : State} (hok : s.tx.Ok) (hb : s.tx.busy = true) :
    ∃ raw after, senderStep s = transmit (some raw) after s := by
  cases hp : s.tx.phase
  case start => exact ⟨_, _, senderStep_start hok hp⟩
  case body =>
    by_cases hr : s.tx.remaining ≤ s.tx.mode.endCapacity
    · exact ⟨_, _, senderStep_end hok hp hr⟩
    · exact ⟨_, _, senderStep_consecutive hok hp (by omega)⟩
  all_goals simp [Sender.busy, hp] at hb

theorem senderStep_idle {s : State} (hb : s.tx.busy = false) : senderStep s = .next s := by
  cases hp : s.tx.phase <;> simp_all [Sender.busy, senderStep]

/-! ### The registers stay in order -/

theorem Sender.Ok.of_not_busy {t : Sender} (hb : t.busy = false) : t.Ok := by
  cases hp : t.phase <;> simp_all [Sender.busy, Sender.Ok]

theorem nextSlice_le (mode : Mode) (len off : Nat) : nextSlice mode len off ≤ mode.maxTransfer ∧
    nextSlice mode len off ≤ len - off := by
  unfold nextSlice
  omega

/-- A fresh transfer is in order. -/
theorem beginTransfer_ok {t : Sender} {base total : Nat} (ht : total ≤ t.mode.maxTransfer)
    (hb : base + total ≤ offsetSpace) (hb' : base < offsetSpace) (h0 : t.op = .sendTransfer → base = 0)
    (hs : t.op = .send → t.msgOff = word base ∧ total = nextSlice t.mode t.msgLen.toNat base ∧
      base + total ≤ t.msgLen.toNat) :
    (beginTransfer base total t).Ok := by
  have hm : t.mode.maxTransfer < offsetSpace := by cases t.mode <;> decide
  have ht' : total < offsetSpace := by omega
  refine ⟨fun _ => ⟨by simpa [beginTransfer, ht'] using ht, by simpa [beginTransfer, ht', hb'] using hb⟩,
    fun _ => ⟨rfl, rfl⟩, fun h => by simp [beginTransfer] at h, fun _ ho => ?_, fun _ ho => ?_⟩
  · rw [show (beginTransfer base total t).base = word base from rfl, h0 ho]
    rfl
  · obtain ⟨h1, h2, h3⟩ := hs ho
    refine ⟨by simp [beginTransfer, h1], ?_, ?_⟩ <;>
      simp only [beginTransfer, h1, word_toNat ht', word_toNat hb'] <;> assumption

theorem finishTransfer_ok (t : Sender) : (finishTransfer t).Ok := by
  unfold finishTransfer
  split
  · exact .of_not_busy rfl
  · rename_i ho
    simp only
    split
    · exact .of_not_busy rfl
    · rename_i hlt
      have hl := toNat_lt_space t.msgLen
      have hn := nextSlice_le t.mode t.msgLen.toNat (t.msgOff.toNat + t.total.toNat)
      apply beginTransfer_ok
      · exact hn.1
      · omega
      · omega
      · simp [ho]
      · intro _
        exact ⟨rfl, rfl, by simp only; omega⟩

/-- A sender step keeps the sender's registers in order. -/
theorem senderStep_ok {s t : State} (hok : s.tx.Ok) (h : senderStep s = .next t) : t.tx.Ok := by
  by_cases hb : s.tx.busy = true
  swap
  · rw [senderStep_idle (by simpa using hb)] at h
    cases h
    exact hok
  obtain ⟨hm, hbase⟩ := hok.1 hb
  have htot := toNat_lt_space s.tx.total
  cases ha : s.link.accepts
  · obtain ⟨raw, after, e⟩ := senderStep_busy hok hb
    rw [e, transmit_of_rejects ha] at h
    cases h
    exact .of_not_busy rfl
  · cases hp : s.tx.phase
    case start =>
      rw [senderStep_start hok hp, transmit_of_accepts ha] at h
      cases h
      obtain ⟨-, hseq⟩ := hok.2.1 hp
      simp only [State.setTx_tx, afterFrame]
      split
      · exact finishTransfer_ok _
      · rename_i hne
        have hlt : min s.tx.total.toNat s.tx.mode.startCapacity < offsetSpace := by omega
        have hsc : s.tx.mode.startCapacity < s.tx.total.toNat := by
          by_contra hc
          rw [min_eq_left (by omega)] at hne
          exact hne (by simp)
        refine ⟨fun _ => ⟨hm, hbase⟩, by simp, fun _ => ?_, fun _ => hok.2.2.2.1 hb, fun _ => hok.2.2.2.2 hb⟩
        simp only [word_toNat hlt, hseq]
        simp
        omega
    case body =>
      obtain ⟨hlt, hsent⟩ := hok.2.2.1 hp
      by_cases hr : s.tx.remaining ≤ s.tx.mode.endCapacity
      · rw [senderStep_end hok hp hr, transmit_of_accepts ha] at h
        cases h
        simp only [State.setTx_tx, afterFrame, if_true]
        exact finishTransfer_ok _
      · rw [senderStep_consecutive hok hp (by omega), transmit_of_accepts ha] at h
        cases h
        simp only [Sender.remaining] at hr
        have hec : s.tx.mode.endCapacity = s.tx.mode.consecutiveCapacity + 1 := by cases s.tx.mode <;> rfl
        have hw : s.tx.sent.toNat + s.tx.mode.consecutiveCapacity < offsetSpace := by omega
        simp only [State.setTx_tx, afterFrame]
        rw [if_neg]
        · refine ⟨fun _ => ⟨hm, hbase⟩, by simp, fun _ => ?_, fun _ => hok.2.2.2.1 hb, fun _ => hok.2.2.2.2 hb⟩
          simp only [word_toNat hw]
          refine ⟨by omega, ?_⟩
          have hseq : (s.tx.seq + 1).toNat = s.tx.seq.toNat + 1 := by
            have hcap : s.tx.seq.toNat < 255 := by
              have := s.tx.seq.isLt
              cases hmode : s.tx.mode <;> simp_all <;> omega
            rw [BitVec.toNat_add, show (1 : Byte).toNat = 1 from rfl]
            omega
          rw [hseq, hsent]
          ring
        · intro he
          have := congrArg BitVec.toNat he
          simp only [word_toNat hw] at this
          omega
    all_goals simp [Sender.busy, hp] at hb

end Sys2Proof.Machine
end

