-- ==== Sys2Proof/Laws/Receiver.lean ====
section
/-! SUPPORT. The receiver: what raising an error and succeeding change, everything an accepted frame can do, that a wire row is
its logical frame, and that each step keeps the registers in order. -/

namespace Sys2Proof.Machine

/-! ### Frames of the shared operations -/

theorem ReceiverOnly.refl (s : State) : ReceiverOnly s s := ⟨rfl, rfl, rfl, rfl, rfl, rfl, rfl, rfl⟩

theorem ReceiverOnly.trans {s t u : State} (h : ReceiverOnly s t) (k : ReceiverOnly t u) : ReceiverOnly s u := by
  obtain ⟨a1, a2, a3, a4, a5, a6, a7, a8⟩ := h
  obtain ⟨b1, b2, b3, b4, b5, b6, b7, b8⟩ := k
  exact ⟨b1.trans a1, b2.trans a2, b3.trans a3, b4.trans a4, b5.trans a5, b6.trans a6, b7.trans a7,
    by rw [b8, a8]⟩

/-- Raising an error in the receiver (R210, R212, R57). -/
theorem raise_receiver (e : ErrorCode) (s : State) : ReceiverFailed e s (raise .receiver e s) := by
  unfold raise
  simp only
  split
  · exact ⟨rfl, rfl, rfl, ReceiverOnly.refl s, rfl, fun _ _ => rfl⟩
  · have h := markUndefined_frame s.rx.base.toNat (s.rx.base.toNat + s.rx.capacity.toNat) s
    refine ⟨?_, rfl, ?_, ?_, ?_, fun a ha => ?_⟩
    · rw [h]; rfl
    · rw [h]; rfl
    · rw [h]; exact ReceiverOnly.refl s
    · rw [h]; rfl
    · exact (markUndefined_readDst _ _ s a).trans (if_neg (by omega))

theorem raise_receiver_nonempty (e : ErrorCode) {s : State} (hu : ∀ r ∈ s.dstUndefined, r.lo < r.hi) :
    ∀ r ∈ (raise .receiver e s).dstUndefined, r.lo < r.hi := by
  unfold raise
  simp only
  split
  · exact hu
  · exact markUndefined_nonempty _ _ hu

/-- Succeeding writes receiver registers, the StepResult and the free index, nothing else. -/
theorem succeed_frame (n : Word) (s : State) :
    succeed n s = { s with rx := (succeed n s).rx, poll := some (.done n), free := (succeed n s).free } := by
  unfold succeed beginReceive
  simp only
  split
  · rfl
  · split <;> rfl

theorem succeed_receive {n : Word} {s : State} (h : s.rx.op = .receive) :
    succeed n s = { s with rx := { s.rx with state := .done, resultLen := n }, poll := some (.done n) } := by
  simp [succeed, h, State.setRx, State.setPoll]

theorem succeed_receiveBytes {n : Word} {s : State} (h : s.rx.op = .receiveBytes) :
    succeed n s =
      if s.rx.rbLength.toNat ≤ s.rx.rbAccumulated.toNat + n.toNat then
        (s.setRx { s.rx with
          state := .done, resultLen := word (s.rx.rbAccumulated.toNat + n.toNat),
          rbAccumulated := word (s.rx.rbAccumulated.toNat + n.toNat) }).setPoll (.done n)
      else
        beginReceive (s.rx.rbAccumulated.toNat + n.toNat) (s.rx.rbLength.toNat - (s.rx.rbAccumulated.toNat + n.toNat))
          s.rx.mode ((s.setRx { s.rx with
            state := .done, resultLen := n, rbAccumulated := word (s.rx.rbAccumulated.toNat + n.toNat) }).setPoll
              (.done n)) := by
  simp only [succeed, h]
  rfl

/-- Everything an accepted frame can do if it answers a next state: nothing but Pending, an error, or one store followed by
Pending or by success. -/
theorem acceptFrame_next {f : LogicalFrame} {s t : State} (h : acceptFrame f s = .next t) :
    t = pending s ∨ (∃ e, t = raise .receiver e s) ∨
    (∃ off v u rx, memWriteDst s off v = some u ∧
      s.rx.base.toNat ≤ off ∧ (s.rx.Ok → off + v.length ≤ s.rx.base.toNat + s.rx.capacity.toNat) ∧
      (t = pending (u.setRx rx) ∧ rx.state = .awaitingMore ∨ ∃ n, t = succeed n (u.setRx rx))) := by
  cases f with
  | start total data =>
    simp only [acceptFrame, acceptStart, outOfPattern] at h
    split at h
    · cases h; exact .inr (.inl ⟨_, rfl⟩)
    split at h
    · cases h; exact .inr (.inl ⟨_, rfl⟩)
    rename_i hcap
    split at h
    · exact absurd h (by simp)
    rename_i u hu
    refine .inr (.inr ⟨s.rx.base.toNat, data.take (startStored total data), u, ?_⟩)
    have hb : s.rx.base.toNat + (List.take (startStored total data) data).length ≤
        s.rx.base.toNat + s.rx.capacity.toNat := by
      simp only [List.length_take, startStored]; omega
    split at h
    · cases h; exact ⟨_, hu, Nat.le_refl _, fun _ => hb, .inr ⟨_, rfl⟩⟩
    · cases h; exact ⟨_, hu, Nat.le_refl _, fun _ => hb, .inl ⟨rfl, rfl⟩⟩
  | consecutive sequence data =>
    simp only [acceptFrame, acceptConsecutive, outOfPattern] at h
    split at h
    · cases h; exact .inr (.inl ⟨_, rfl⟩)
    rename_i hst
    split at h
    · cases h; exact .inr (.inl ⟨_, rfl⟩)
    split at h
    · cases h; exact .inr (.inl ⟨_, rfl⟩)
    rename_i hcap
    split at h
    · exact absurd h (by simp)
    rename_i u hu
    cases h
    have hst' : s.rx.state = .awaitingMore := by simpa using hst
    refine .inr (.inr ⟨_, _, u, _, hu, Nat.le_add_right _ _, fun _ => ?_, .inl ⟨rfl, ?_⟩⟩)
    · simp only [Receiver.address]; omega
    · rw [memWriteDst_frame hu]; exact hst'
  | endOf data =>
    simp only [acceptFrame, acceptEnd, outOfPattern] at h
    split at h
    · cases h; exact .inr (.inl ⟨_, rfl⟩)
    split at h
    · cases h; exact .inr (.inl ⟨_, rfl⟩)
    split at h
    · cases h; exact .inr (.inl ⟨_, rfl⟩)
    split at h
    · exact absurd h (by simp)
    rename_i hcap _ _ u hu
    cases h
    refine .inr (.inr ⟨_, _, u, _, hu, Nat.le_add_right _ _, fun _ => ?_, .inr ⟨_, rfl⟩⟩)
    simp only [Receiver.address, List.length_take]; omega
  | flowControl c =>
    cases h; exact .inl rfl
  | error c =>
    cases h; exact .inl rfl

/-- An accepted frame moves the receiver only, and not the adapter. -/
theorem acceptFrame_frame {f : LogicalFrame} {s t : State} (h : acceptFrame f s = .next t) :
    ReceiverOnly s t ∧ t.link = s.link := by
  obtain rfl | ⟨e, rfl⟩ | ⟨off, v, u, rx, hu, -, -, ⟨rfl, -⟩ | ⟨n, rfl⟩⟩ := acceptFrame_next h
  · exact ⟨ReceiverOnly.refl s, rfl⟩
  · exact ⟨(raise_receiver e s).2.2.2.1, (raise_receiver e s).2.2.2.2.1⟩
  · rw [memWriteDst_frame hu]
    exact ⟨ReceiverOnly.refl s, rfl⟩
  · rw [succeed_frame, memWriteDst_frame hu]
    exact ⟨ReceiverOnly.refl s, rfl⟩

/-! ### The poll -/

/-- A poll of an empty link. -/
theorem pollStep_nil {s : State} (h : s.link.queue = []) : pollStep s = .next (pending s) := by
  simp [pollStep, linkPoll, h]

/-- A poll that finds a frame. -/
theorem pollStep_cons {s : State} {raw : RawFrame} {rest : List RawFrame} (h : s.link.queue = raw :: rest) :
    pollStep s = examineFrame raw (s.setLink { s.link with queue := rest }) := by
  simp [pollStep, linkPoll, h]

theorem examineFrame_next {raw : RawFrame} {s t : State} (h : examineFrame raw s = .next t) :
    t = pending s ∨ ∃ f, raw.id = s.params.rxId ∧
      parseFrame s.params.lenMsbFirst s.rx.mode raw.bytes = .ok f ∧ acceptFrame f s = .next t := by
  unfold examineFrame at h
  split at h
  · cases h; exact .inl rfl
  rename_i hid
  split at h
  · cases h; exact .inl rfl
  · rename_i f hf
    exact .inr ⟨f, by simpa using hid, hf, h⟩

/-- A related frame is its logical frame. -/
theorem examineFrame_ok {raw : RawFrame} {s : State} {f : LogicalFrame} (hid : raw.id = s.params.rxId)
    (hf : parseFrame s.params.lenMsbFirst s.rx.mode raw.bytes = .ok f) : examineFrame raw s = acceptFrame f s := by
  simp [examineFrame, hid, hf]

/-- Everything a receiver step can do if it answers a next state. -/
theorem receiverStep_next {s t : State} (h : receiverStep s = .next t) :
    (s.rx.live = false ∧ t = s) ∨
    (s.rx.live = true ∧ s.link.queue = [] ∧ t = pending s) ∨
    (s.rx.live = true ∧ ∃ raw rest, s.link.queue = raw :: rest ∧
      examineFrame raw (s.setLink { s.link with queue := rest }) = .next t) := by
  unfold receiverStep at h
  split at h <;> rename_i hl
  · cases hq : s.link.queue with
    | nil =>
      rw [pollStep_nil hq] at h
      cases h
      exact .inr (.inl ⟨hl, rfl, rfl⟩)
    | cons raw rest =>
      rw [pollStep_cons hq] at h
      exact .inr (.inr ⟨hl, raw, rest, rfl, h⟩)
  · cases h
    exact .inl ⟨by simpa using hl, rfl⟩

/-- A receiver step moves the receiver and takes from the adapter's queue only. -/
theorem receiverStep_frame {s t : State} (h : receiverStep s = .next t) : ReceiverOnly s t := by
  obtain ⟨-, rfl⟩ | ⟨-, -, rfl⟩ | ⟨-, raw, rest, -, h⟩ := receiverStep_next h
  · exact ReceiverOnly.refl t
  · exact ReceiverOnly.refl s
  · have h0 : ReceiverOnly s (s.setLink { s.link with queue := rest }) := ⟨rfl, rfl, rfl, rfl, rfl, rfl, rfl, rfl⟩
    obtain rfl | ⟨f, -, -, h⟩ := examineFrame_next h
    · exact h0
    · exact h0.trans (acceptFrame_frame h).1

/-- Delivering a frame: refused where it is longer than any frame, else the receiver's step with the frame in front. -/
theorem deliver_of_wf {raw : RawFrame} (hw : raw.wf = true) (s : State) :
    deliver raw s = receiverStep (s.setLink { s.link with queue := raw :: s.link.queue }) :=
  takeFrame_of_wf hw _

theorem deliver_of_not_wf {raw : RawFrame} (hw : raw.wf = false) (s : State) :
    deliver raw s = .refused .frameTooLong := takeFrame_of_not_wf hw _

theorem deliver_next {raw : RawFrame} {s t : State} (h : deliver raw s = .next t) :
    raw.wf = true ∧ receiverStep (s.setLink { s.link with queue := raw :: s.link.queue }) = .next t := by
  cases hw : raw.wf
  · rw [deliver_of_not_wf hw] at h; cases h
  · exact ⟨rfl, (deliver_of_wf hw s).symm.trans h⟩

/-- A frame delivered to a live receiver is the frame it polls. -/
theorem deliver_live {raw : RawFrame} {s : State} (hw : raw.wf = true) (h : s.rx.live = true) :
    deliver raw s = examineFrame raw s := by
  have : (s.setLink { s.link with queue := raw :: s.link.queue }).rx.live = true := h
  rw [deliver_of_wf hw]
  unfold receiverStep
  rw [if_pos this, pollStep_cons (raw := raw) (rest := s.link.queue) rfl]
  rfl

/-- A frame delivered where no receive is in progress waits in the adapter. -/
theorem deliver_not_live {raw : RawFrame} {s : State} (hw : raw.wf = true) (h : s.rx.live = false) :
    deliver raw s = .next (s.setLink { s.link with queue := raw :: s.link.queue }) := by
  have : (s.setLink { s.link with queue := raw :: s.link.queue }).rx.live = false := h
  rw [deliver_of_wf hw]
  unfold receiverStep
  rw [if_neg (by rw [this]; simp)]

/-- Executing a wire row is delivering the frame it encodes to. -/
theorem exec_wire {i : Instr} {m : Mode} {id : Word} {f : LogicalFrame} (h : i.asFrame = some (m, id, f)) (s : State) :
    ∃ raw, encode s.params.lenMsbFirst i = .frame m raw ∧ raw.id = id ∧ exec i s = deliver raw s := by
  cases i <;> simp only [Instr.asFrame, Option.some.injEq, Prod.mk.injEq, reduceCtorEq] at h
  all_goals
    obtain ⟨rfl, rfl, -⟩ := h
    exact ⟨_, rfl, rfl, rfl⟩

/-- A well-formed wire row parses as its logical frame. -/
theorem parseFrame_wire {i : Instr} {m : Mode} {id : Word} {f : LogicalFrame} {msb : Bool} {raw : RawFrame}
    (hw : i.wf = true) (h : i.asFrame = some (m, id, f)) (he : encode msb i = .frame m raw) :
    parseFrame msb m raw.bytes = .ok f := by
  cases i <;> simp only [Instr.asFrame, Option.some.injEq, Prod.mk.injEq, reduceCtorEq] at h
  all_goals
    obtain ⟨rfl, rfl, rfl⟩ := h
    simp only [encode, PortWord.frame.injEq, true_and] at he
    subst he
    simp only [Instr.wf, decide_eq_true_eq] at hw
    first
    | exact parseFrame_consecutive hw
    | exact parseFrame_end hw
    | exact parseFrame_flowControl hw
    | exact parseFrame_error hw
    | exact parseFrame_start hw (by
        simp only [BitVec.toNat_setWidth, Mode.maxLenField_classic, Mode.maxLenField_extended]
        omega)

/-- A well-formed wire row is encoded to a raw frame. -/
theorem wf_wire {i : Instr} {m : Mode} {id : Word} {f : LogicalFrame} {msb : Bool} {raw : RawFrame}
    (hw : i.wf = true) (h : i.asFrame = some (m, id, f)) (he : encode msb i = .frame m raw) : raw.wf = true :=
  RawFrame.wf_of_parseFrame (parseFrame_wire hw h he)

/-! ### The registers stay in order -/

theorem Receiver.Ok.of_not_live {r : Receiver} (h : r.live = false) : r.Ok := by
  cases hs : r.state <;> simp_all [Receiver.live, Receiver.Ok]

/-- A receive that starts is in order. -/
theorem beginReceive_ok {base capacity : Nat} {mode : Mode} {s : State} (h : base + capacity < offsetSpace)
    (h0 : s.rx.op = .receive → base = 0)
    (hb : s.rx.op = .receiveBytes → s.rx.rbAccumulated = word base ∧ base + capacity = s.rx.rbLength.toNat) :
    (beginReceive base capacity mode s).rx.Ok := by
  have h1 : base < offsetSpace := by omega
  have h2 : capacity < offsetSpace := by omega
  refine ⟨fun _ => rfl, fun h' => by simp [beginReceive] at h', fun _ => ?_, fun _ ho => ?_, fun _ ho => ?_⟩
  · simp only [beginReceive, State.setFree_rx, State.setRx_rx, word_toNat h1, word_toNat h2]
    omega
  · have : base = 0 := h0 ho
    subst this
    rfl
  · obtain ⟨e1, e2⟩ := hb ho
    refine ⟨e1.symm, ?_⟩
    simp only [beginReceive, State.setFree_rx, State.setRx_rx, e1, word_toNat h1, word_toNat h2, e2]

theorem succeed_ok {n : Word} {s : State}
    (h : s.rx.op = .receiveBytes → s.rx.rbAccumulated.toNat + n.toNat ≤ s.rx.rbLength.toNat) :
    (succeed n s).rx.Ok := by
  cases ho : s.rx.op
  · rw [succeed_receive ho]
    exact .of_not_live rfl
  · rw [succeed_receiveBytes ho]
    split
    · exact .of_not_live rfl
    · have hl := toNat_lt_space s.rx.rbLength
      apply beginReceive_ok
      · have := h ho
        omega
      · intro h'
        simp only [State.setPoll_rx, State.setRx_rx, ho] at h'
        cases h'
      · intro _
        refine ⟨rfl, ?_⟩
        have := h ho
        simp only [State.setPoll_rx, State.setRx_rx]
        omega

/-- An accepted frame keeps the receiver's registers in order. -/
theorem acceptFrame_ok {f : LogicalFrame} {s t : State} (hok : s.rx.Ok) (hl : s.rx.live = true)
    (h : acceptFrame f s = .next t) : t.rx.Ok := by
  obtain ⟨h1, h2, h3, h4, h5⟩ := hok
  have hraise : ∀ e, (raise .receiver e s).rx.Ok := fun e => by
    rw [(raise_receiver e s).1]
    exact .of_not_live rfl
  have hroom : s.rx.op = .receiveBytes → ∀ n, n ≤ s.rx.capacity.toNat →
      s.rx.rbAccumulated.toNat + n ≤ s.rx.rbLength.toNat := by
    intro ho n hn
    have := (h5 hl ho).2
    omega
  cases f with
  | start total data =>
    simp only [acceptFrame, acceptStart, outOfPattern] at h
    split at h
    · cases h; exact hraise _
    split at h
    · cases h; exact hraise _
    rename_i hcap
    split at h
    · exact absurd h (by simp)
    rename_i u hu
    have hf := memWriteDst_frame hu
    have hrx : u.rx = s.rx := by rw [hf]; rfl
    split at h
    · cases h
      apply succeed_ok
      intro ho
      simp only [State.setRx_rx, hrx] at ho ⊢
      exact hroom ho _ (by omega)
    · cases h
      have hn : startStored total data < offsetSpace := by
        have := toNat_lt_space total
        simp only [startStored]; omega
      simp only [pending, State.setPoll_rx, State.setRx_rx, hrx]
      refine ⟨by simp, fun _ => ⟨rfl, by simp only; omega, ?_⟩, fun _ => h3 hl, fun _ => h4 hl, fun _ => h5 hl⟩
      simp only [word_toNat hn]
      simp only [startStored]; omega
  | consecutive sequence data =>
    simp only [acceptFrame, acceptConsecutive, outOfPattern] at h
    split at h
    · cases h; exact hraise _
    rename_i hst
    split at h
    · cases h; exact hraise _
    split at h
    · cases h; exact hraise _
    rename_i hcap
    split at h
    · exact absurd h (by simp)
    rename_i u hu
    have hf := memWriteDst_frame hu
    have hrx : u.rx = s.rx := by rw [hf]; rfl
    cases h
    have hst' : s.rx.state = .awaitingMore := by simpa using hst
    have hn : s.rx.receivedLength.toNat + data.length < offsetSpace := by
      have := toNat_lt_space s.rx.capacity
      omega
    simp only [pending, State.setPoll_rx, State.setRx_rx, hrx]
    refine ⟨by simp [hst'], fun _ => ⟨(h2 hst').1, (h2 hst').2.1, ?_⟩, fun _ => h3 hl, fun _ => h4 hl, fun _ => h5 hl⟩
    simp only [word_toNat hn]
    omega
  | endOf data =>
    simp only [acceptFrame, acceptEnd, outOfPattern] at h
    split at h
    · cases h; exact hraise _
    rename_i hst
    split at h
    · cases h; exact hraise _
    split at h
    · cases h; exact hraise _
    split at h
    · exact absurd h (by simp)
    rename_i _ _ _ u hu
    have hf := memWriteDst_frame hu
    have hrx : u.rx = s.rx := by rw [hf]; rfl
    cases h
    have hst' : s.rx.state = .awaitingMore := by simpa using hst
    apply succeed_ok
    intro ho
    simp only [State.setRx_rx, hrx] at ho ⊢
    exact hroom ho _ (h2 hst').2.1
  | flowControl c => cases h; exact ⟨h1, h2, h3, h4, h5⟩
  | error c => cases h; exact ⟨h1, h2, h3, h4, h5⟩

/-- Where the registers are in order an accepted frame always answers a next state. -/
theorem acceptFrame_completes {s : State} (hok : s.rx.Ok) (hl : s.rx.live = true) (f : LogicalFrame) :
    ∃ t, acceptFrame f s = .next t := by
  obtain ⟨h1, h2, h3, h4, h5⟩ := hok
  have hb := h3 hl
  cases f with
  | start total data =>
    simp only [acceptFrame, acceptStart, outOfPattern]
    split
    · exact ⟨_, rfl⟩
    split
    · exact ⟨_, rfl⟩
    rename_i hcap
    obtain ⟨u, hu⟩ := memWriteDst_isSome (s := s) (off := s.rx.base.toNat) (v := data.take (startStored total data))
      (by simp only [List.length_take, startStored]; omega)
    rw [hu]
    simp only
    split <;> exact ⟨_, rfl⟩
  | consecutive sequence data =>
    simp only [acceptFrame, acceptConsecutive, outOfPattern]
    split
    · exact ⟨_, rfl⟩
    split
    · exact ⟨_, rfl⟩
    split
    · exact ⟨_, rfl⟩
    rename_i hcap
    obtain ⟨u, hu⟩ := memWriteDst_isSome (s := s) (off := s.rx.address) (v := data)
      (by simp only [Receiver.address]; omega)
    rw [hu]
    exact ⟨_, rfl⟩
  | endOf data =>
    simp only [acceptFrame, acceptEnd, outOfPattern]
    split
    · exact ⟨_, rfl⟩
    split
    · exact ⟨_, rfl⟩
    rename_i hcap
    split
    · exact ⟨_, rfl⟩
    obtain ⟨u, hu⟩ := memWriteDst_isSome (s := s) (off := s.rx.address) (v := data.take s.rx.bytesLeft)
      (by simp only [Receiver.address, List.length_take]; omega)
    rw [hu]
    exact ⟨_, rfl⟩
  | flowControl c => exact ⟨_, rfl⟩
  | error c => exact ⟨_, rfl⟩

/-- An accepted frame keeps DST canonical and its undefined regions non-empty. -/
theorem acceptFrame_dst {f : LogicalFrame} {s t : State} (h : acceptFrame f s = .next t) (hd : Memory.Ok s.dst)
    (hu : ∀ r ∈ s.dstUndefined, r.lo < r.hi) : Memory.Ok t.dst ∧ ∀ r ∈ t.dstUndefined, r.lo < r.hi := by
  obtain rfl | ⟨e, rfl⟩ | ⟨off, v, u, rx, hw, -, -, ⟨rfl, -⟩ | ⟨n, rfl⟩⟩ := acceptFrame_next h
  · exact ⟨hd, hu⟩
  · rw [(raise_receiver e s).2.2.1]
    exact ⟨hd, raise_receiver_nonempty e hu⟩
  · exact memWriteDst_ok (t := u) hw hd hu
  · rw [succeed_frame]
    exact memWriteDst_ok (t := u) hw hd hu

/-- A receiver step keeps the receiver's part of the invariant. -/
theorem receiverStep_ok {s t : State} (h : receiverStep s = .next t) (hok : s.rx.Ok) (hd : Memory.Ok s.dst)
    (hu : ∀ r ∈ s.dstUndefined, r.lo < r.hi) :
    t.rx.Ok ∧ Memory.Ok t.dst ∧ ∀ r ∈ t.dstUndefined, r.lo < r.hi := by
  obtain ⟨-, rfl⟩ | ⟨-, -, rfl⟩ | ⟨hl, raw, rest, -, h⟩ := receiverStep_next h
  · exact ⟨hok, hd, hu⟩
  · exact ⟨hok, hd, hu⟩
  · obtain rfl | ⟨f, -, -, h⟩ := examineFrame_next h
    · exact ⟨hok, hd, hu⟩
    · exact ⟨acceptFrame_ok (s := s.setLink { s.link with queue := rest }) hok hl h, acceptFrame_dst h hd hu⟩

/-- Where the registers are in order a receiver step always answers a next state. -/
theorem receiverStep_completes {s : State} (hok : s.rx.Ok) : ∃ t, receiverStep s = .next t := by
  unfold receiverStep
  split <;> rename_i hl
  · cases hq : s.link.queue with
    | nil => exact ⟨_, pollStep_nil hq⟩
    | cons raw rest =>
      rw [pollStep_cons hq]
      unfold examineFrame
      split
      · exact ⟨_, rfl⟩
      · split
        · exact ⟨_, rfl⟩
        · exact acceptFrame_completes (s := s.setLink { s.link with queue := rest }) hok hl _
  · exact ⟨_, rfl⟩

end Sys2Proof.Machine
end

