-- ==== Sys2Proof/Laws/Step.lean ====
section
/-! SUPPORT. The whole step: everything one step can do, what a delivered frame and reset leave alone, runs of steps, and how
a transfer's bytes fall into frames. -/

namespace Sys2Proof.Machine

/-! ### One step -/

/-- Everything a step can do if it answers a next state. -/
theorem step_cases {s t : State} (h : step s = .next t) :
    (s.nextTurn = .caller ∧ ((s.commands = [] ∧ t = s.setTurns s.turns.tail) ∨
      ∃ c rest i, s.commands = c :: rest ∧ decodeCommand c = .ok i ∧
        exec i ((s.setTurns s.turns.tail).setCommands rest) = .next t)) ∨
    (s.nextTurn = .sender ∧ senderStep (s.setTurns s.turns.tail) = .next t) ∨
    (s.nextTurn = .receiver ∧ receiverStep (s.setTurns s.turns.tail) = .next t) ∨
    (s.nextTurn = .reset ∧ t = resetEvent (s.setTurns s.turns.tail)) ∨
    (∃ e, s.nextTurn = .abandon e ∧ t = abandon e (s.setTurns s.turns.tail)) ∨
    (∃ q a, s.nextTurn = .link q a ∧ (∀ r ∈ q, r.wf = true) ∧
      t = (s.setTurns s.turns.tail).setLink { s.link with queue := q, answer := a }) ∨
    (∃ off b, s.nextTurn = .writeSrc off b ∧ s.tx.busy = false ∧
      t = (s.setTurns s.turns.tail).setSrc (Memory.write s.src off.toNat b)) ∨
    (∃ off b, s.nextTurn = .writeDst off b ∧ s.rx.live = false ∧
      t = (s.setTurns s.turns.tail).setDst (Memory.write s.dst off.toNat b)
        (Region.minusAll off.toNat (off.toNat + 1) s.dstUndefined)) ∨
    (∃ off, s.nextTurn = .readDst off ∧ s.rx.live = false ∧
      t = (s.setTurns s.turns.tail).setDstRead (s.readDst off.toNat)) := by
  cases hn : s.nextTurn with
  | caller =>
    simp only [step, hn, callerStep, fetchCommand, State.setTurns_commands] at h
    cases hc : s.commands with
    | nil => rw [hc] at h; cases h; exact .inl ⟨rfl, .inl ⟨rfl, rfl⟩⟩
    | cons c rest =>
      rw [hc] at h
      simp only [decode] at h
      split at h
      · exact .inl ⟨rfl, .inr ⟨c, rest, _, rfl, by assumption, h⟩⟩
      · cases h
  | sender => simp only [step, hn] at h; exact .inr (.inl ⟨rfl, h⟩)
  | receiver => simp only [step, hn] at h; exact .inr (.inr (.inl ⟨rfl, h⟩))
  | reset => simp only [step, hn] at h; cases h; exact .inr (.inr (.inr (.inl ⟨rfl, rfl⟩)))
  | abandon e => simp only [step, hn] at h; cases h; exact .inr (.inr (.inr (.inr (.inl ⟨e, rfl, rfl⟩))))
  | link q a =>
    simp only [step, hn, linkEvent] at h
    split at h <;> cases h
    rename_i hq
    exact .inr (.inr (.inr (.inr (.inr (.inl ⟨q, a, rfl, List.all_eq_true.1 hq, rfl⟩)))))
  | writeSrc off b =>
    simp only [step, hn] at h
    cases hb : s.tx.busy <;> simp [writeSrcEvent, hb] at h
    subst h
    exact .inr (.inr (.inr (.inr (.inr (.inr (.inl ⟨off, b, rfl, rfl, rfl⟩))))))
  | writeDst off b =>
    simp only [step, hn] at h
    cases hb : s.rx.live <;> simp [writeDstEvent, hb] at h
    subst h
    exact .inr (.inr (.inr (.inr (.inr (.inr (.inr (.inl ⟨off, b, rfl, rfl, rfl⟩)))))))
  | readDst off =>
    simp only [step, hn] at h
    cases hb : s.rx.live <;> simp [readDstEvent, hb] at h
    subst h
    exact .inr (.inr (.inr (.inr (.inr (.inr (.inr (.inr ⟨off, rfl, rfl, rfl⟩)))))))

/-- Delivering a frame moves the receiver and the adapter's queue only. -/
theorem deliver_frame {raw : RawFrame} {s t : State} (h : deliver raw s = .next t) : ReceiverOnly s t := by
  have h0 : ReceiverOnly s (s.setLink { s.link with queue := raw :: s.link.queue }) :=
    ⟨rfl, rfl, rfl, rfl, rfl, rfl, rfl, rfl⟩
  exact h0.trans (receiverStep_frame (deliver_next h).2)

/-! ### Every frame has an 8-bit length -/

/-- A sender step hands over frames of the encoder only. -/
theorem senderStep_framesOk {s t : State} (h : senderStep s = .next t) (hf : s.FramesOk) : t.FramesOk := by
  obtain ⟨-, rfl⟩ | ⟨-, -, raw, after, hw, rfl⟩ | ⟨-, -, rfl⟩ := senderStep_next h
  · exact hf
  · obtain ⟨hq, hs⟩ := Link.taking_all (p := fun r => r.wf = true) hw hf.1 hf.2.1
    exact ⟨hq, hs, hf.2.2⟩
  · exact hf

/-- A receiver step only takes frames from the adapter. -/
theorem receiverStep_framesOk {s t : State} (h : receiverStep s = .next t) (hf : s.FramesOk) : t.FramesOk := by
  obtain ⟨-, rfl⟩ | ⟨-, -, rfl⟩ | ⟨-, raw, rest, hq, h⟩ := receiverStep_next h
  · exact hf
  · exact hf
  · have h0 : (s.setLink { s.link with queue := rest }).FramesOk :=
      ⟨fun r hr => hf.1 r (by rw [hq]; exact List.mem_cons_of_mem _ hr), hf.2.1, hf.2.2⟩
    obtain rfl | ⟨f, -, -, h⟩ := examineFrame_next h
    · exact h0
    · obtain ⟨⟨-, -, -, -, hc, -, -, -⟩, hl⟩ := acceptFrame_frame h
      unfold State.FramesOk
      rw [hl, hc]
      exact h0

/-! ### Abandoned operations and reset -/

/-- Abandoning a send. -/
theorem abandon_sender_of_busy {s : State} (h : s.tx.busy = true) : abandon .sender s = s.setTx Sender.reset := if_pos h

/-- Abandoning a receive. -/
theorem abandon_receiver_of_live {s : State} (h : s.rx.live = true) :
    abandon .receiver s = (markUndefined 0 s.rx.storedEnd s).setRx Receiver.reset := if_pos h

/-- Where an engine runs no operation there is nothing to abandon. -/
theorem abandon_sender_of_not_busy {s : State} (h : s.tx.busy = false) : abandon .sender s = s := by simp [abandon, h]

theorem abandon_receiver_of_not_live {s : State} (h : s.rx.live = false) : abandon .receiver s = s := by
  simp [abandon, h]

/-- Abandoning an operation writes its engine's registers, the undefined offsets and the free index, nothing else. -/
theorem abandon_frame (e : Engine) (s : State) :
    abandon e s = { s with
      rx := (abandon e s).rx, tx := (abandon e s).tx, dstUndefined := (abandon e s).dstUndefined,
      free := (abandon e s).free } := by
  cases e <;> unfold abandon <;> simp only <;> split
  · rfl
  · rfl
  · rw [markUndefined_frame]; rfl
  · rfl

/-- Abandoning a receive leaves the sender alone, and a send the receiver and what the caller reads. -/
theorem abandon_receiver_tx (s : State) : (abandon .receiver s).tx = s.tx := by
  cases h : s.rx.live
  · rw [abandon_receiver_of_not_live h]
  · rw [abandon_receiver_of_live h, markUndefined_frame]; rfl

theorem abandon_sender_rx (s : State) : (abandon .sender s).rx = s.rx := by
  cases h : s.tx.busy
  · rw [abandon_sender_of_not_busy h]
  · rw [abandon_sender_of_busy h]; rfl

theorem abandon_sender_readDst (s : State) (a : Nat) : (abandon .sender s).readDst a = s.readDst a := by
  cases h : s.tx.busy
  · rw [abandon_sender_of_not_busy h]
  · rw [abandon_sender_of_busy h]; rfl

/-- What the caller reads after a receive is abandoned: a free value where the receive has stored, every other byte as
before (R231). -/
theorem abandon_receiver_readDst (s : State) (a : Nat) :
    (abandon .receiver s).readDst a =
      if s.rx.live = true ∧ a < s.rx.storedEnd then Config.freeByte s.free a else s.readDst a := by
  cases h : s.rx.live
  · simp [abandon_receiver_of_not_live h]
  · rw [abandon_receiver_of_live h]
    exact (markUndefined_readDst 0 s.rx.storedEnd s a).trans (by simp)

/-- Abandoning keeps both engines' registers in order and the undefined regions non-empty. -/
theorem abandon_ok (e : Engine) {s : State} (hr : s.rx.Ok) (ht : s.tx.Ok) (hu : ∀ r ∈ s.dstUndefined, r.lo < r.hi) :
    (abandon e s).rx.Ok ∧ (abandon e s).tx.Ok ∧ ∀ r ∈ (abandon e s).dstUndefined, r.lo < r.hi := by
  cases e
  · cases h : s.tx.busy
    · rw [abandon_sender_of_not_busy h]; exact ⟨hr, ht, hu⟩
    · rw [abandon_sender_of_busy h]; exact ⟨hr, .of_not_busy rfl, hu⟩
  · refine ⟨?_, by rw [abandon_receiver_tx]; exact ht, ?_⟩ <;> cases h : s.rx.live
    · rw [abandon_receiver_of_not_live h]; exact hr
    · rw [abandon_receiver_of_live h]; exact .of_not_live rfl
    · rw [abandon_receiver_of_not_live h]; exact hu
    · rw [abandon_receiver_of_live h]; exact markUndefined_nonempty _ _ hu

/-- Reset is the abandonment of both engines' operations, with the registers and the ports at their reset values. -/
theorem resetEvent_frame (s : State) :
    resetEvent s = { s with
      rx := Receiver.reset, tx := Sender.reset, codec := none, poll := none, dstRead := none,
      dstUndefined := (abandon .receiver (abandon .sender s)).dstUndefined,
      free := (abandon .receiver (abandon .sender s)).free } := by
  unfold resetEvent
  rw [abandon_frame .receiver, abandon_frame .sender]

theorem resetEvent_readDst (s : State) (a : Nat) : (resetEvent s).readDst a = (abandon .receiver s).readDst a := by
  rw [show (resetEvent s).readDst a = (abandon .receiver (abandon .sender s)).readDst a from rfl,
    abandon_receiver_readDst, abandon_receiver_readDst, abandon_sender_rx, abandon_sender_readDst,
    show (abandon .sender s).free = s.free by cases h : s.tx.busy <;> simp [abandon, h]]

/-- Reset keeps the undefined regions non-empty. -/
theorem resetEvent_nonempty {s : State} (hr : s.rx.Ok) (ht : s.tx.Ok) (hu : ∀ r ∈ s.dstUndefined, r.lo < r.hi) :
    ∀ r ∈ (resetEvent s).dstUndefined, r.lo < r.hi := by
  obtain ⟨hr', ht', hu'⟩ := abandon_ok .sender hr ht hu
  exact (abandon_ok .receiver hr' ht' hu').2.2

/-- Where the registers are in order a sender step always answers a next state. -/
theorem senderStep_completes {s : State} (hok : s.tx.Ok) : ∃ t, senderStep s = .next t := by
  cases hb : s.tx.busy
  · exact ⟨_, senderStep_idle hb⟩
  · obtain ⟨raw, after, e⟩ := senderStep_busy hok hb
    rw [e]
    cases ha : s.link.accepts
    · exact ⟨_, transmit_of_rejects ha⟩
    · exact ⟨_, transmit_of_accepts ha⟩

/-! ### Runs -/

theorem run_zero (s : State) : Sys2Proof.core.run 0 s = .next s := rfl

/-- A run whose first step answers a next state. -/
theorem run_succ {s t : State} (n : Nat) (h : step s = .next t) : Sys2Proof.core.run (n+1) s = Sys2Proof.core.run n t := by
  have h' : Sys2Proof.core.step s = .next t := h
  simp only [Host.Core.run, h']

/-- Runs compose. -/
theorem run_add {s t : State} (a b : Nat) (h : Sys2Proof.core.run a s = .next t) :
    Sys2Proof.core.run (a + b) s = Sys2Proof.core.run b t := by
  induction a generalizing s with
  | zero => cases h; simp
  | succ a ih =>
    rw [show a + 1 + b = (a + b) + 1 by omega]
    cases hs : step s with
    | next u => rw [run_succ _ hs]; rw [run_succ _ hs] at h; exact ih h
    | fault r => 
      have : Sys2Proof.core.run (a+1) s = .fault r := by
        have h' : Sys2Proof.core.step s = .fault r := hs
        simp only [Host.Core.run, h']
      rw [this] at h; cases h
    | refused r => 
      have : Sys2Proof.core.run (a+1) s = .refused r := by
        have h' : Sys2Proof.core.step s = .refused r := hs
        simp only [Host.Core.run, h']
      rw [this] at h; cases h

/-- With no script a busy sender has the turn. -/
theorem step_sender {s : State} (ht : s.turns = []) (hb : s.tx.busy = true) : step s = senderStep s := by
  have : s.nextTurn = .sender := by simp [State.nextTurn, ht, hb]
  simp only [step, this]
  have : s.setTurns s.turns.tail = s := by rw [ht]; cases s; simp only at ht; subst ht; rfl
  rw [this]

/-! ### Frames of a transfer -/

theorem srcBytes_take (s : State) (off n m : Nat) : (s.srcBytes off n).take m = s.srcBytes off (min n m) := by
  simp only [State.srcBytes, ← List.map_take, List.take_range, Nat.min_comm]

theorem srcBytes_drop (s : State) (off n m : Nat) : (s.srcBytes off n).drop m = s.srcBytes (off + m) (n - m) := by
  apply List.ext_getElem
  · simp [State.srcBytes]
  · intro k _ _
    simp [State.srcBytes, Nat.add_assoc]

theorem srcBytes_length (s : State) (off n : Nat) : (s.srcBytes off n).length = n := by simp [State.srcBytes]

/-- How far the CONSECUTIVE frames of a transfer reach (R132, R134, R138). -/
theorem consecutiveCount_bounds {m : Mode} {len j : Nat} (hl : m.startCapacity < len) (hm : len ≤ m.maxTransfer)
    (hj : j ≤ consecutiveCount m len) :
    m.startCapacity + j * m.consecutiveCapacity < len ∧ j ≤ 255 ∧
      (j < consecutiveCount m len ↔ m.endCapacity < len - (m.startCapacity + j * m.consecutiveCapacity)) := by
  unfold consecutiveCount at *
  by_cases hc : len - m.startCapacity ≤ m.endCapacity <;> simp only [hc, if_true, if_false] at hj ⊢ <;>
  cases m <;> simp only [Mode.startCapacity_classic, Mode.startCapacity_extended, Mode.consecutiveCapacity_classic,
    Mode.consecutiveCapacity_extended, Mode.endCapacity_classic, Mode.endCapacity_extended, Mode.maxTransfer_classic,
    Mode.maxTransfer_extended] at * <;> omega

end Sys2Proof.Machine
end

