-- ==== Sys2Proof/Tests/Slice0.lean ====
section
/-! SUPPORT. The model's own tests: the ill-formed terms WellFormed refuses, words written out from the spec's encodings, the
vectors of `95_test_vectors.md` one step at a time, and for each statement with hypotheses a state and operands that meet them. -/

namespace Sys2Proof.Tests

open Sys2Proof Sys2Proof.Machine

/-! ### Helpers -/

/-- The outcome is a next state of which `p` holds. -/
def nextIs (r : Result) (p : State → Bool) : Bool :=
  match r with
  | .next t => p t
  | .fault _ => false
  | .refused _ => false

/-- The outcome is this refusal. -/
def refusedAs (r : Result) (why : Refusal) : Bool :=
  match r with
  | .next _ => false
  | .fault _ => false
  | .refused w => w = why

/-- The first `n` bytes of DST as the caller reads them. -/
def dstBytes (t : State) (n : Nat) : List Byte := (List.range n).map t.readDst

/-- A list of bytes as a byte space from offset 0 on (none of them zero). -/
def space : Nat → List Byte → Memory
  | _, [] => []
  | a, b :: bs => (a, b) :: space (a + 1) bs

/-- The payload of S2. -/
def s2 : List Byte :=
  [0x10, 0x11, 0x12, 0x13, 0x14, 0x15, 0x16, 0x17] ++ [0x18, 0x19, 0x1A, 0x1B, 0x1C, 0x1D, 0x1E]

/-- Reset with DST filled with 16 bytes `EE` and the payload of S2 in SRC. -/
def start : State := { State.reset with src := space 0 s2, dst := space 0 (List.replicate 16 0xEE) }

/-- A receive of Mode `m` and capacity `cap` waits for its START frame. -/
def awaitingStart (m : Mode) (cap : Word) : State :=
  { start with rx := { Receiver.reset with state := .awaitingStart, mode := m, capacity := cap } }

/-- A receive of Mode `m` inside a transfer. -/
def awaitingMore (m : Mode) (cap total received : Word) (expected : Byte) : State :=
  { start with rx := { Receiver.reset with
      state := .awaitingMore, started := true, mode := m, capacity := cap, totalLength := total,
      receivedLength := received, expectedSequence := expected } }

/-- A SEND_TRANSFER of `total` bytes in phase Start. -/
def sending (m : Mode) (total : Word) : State :=
  { start with tx := { Sender.reset with phase := .start, id := 0x123, mode := m, total := total } }

/-- A Classic SEND_TRANSFER of `total` bytes in phase Body. -/
def sendingBody (total sent : Word) (seq : Byte) : State :=
  { start with tx := { Sender.reset with phase := .body, id := 0x123, total := total, sent := sent, seq := seq } }

/-- The same state over a driver that answers `answer`. -/
def overDriver (answer : Bool) (s : State) : State :=
  { s with link := { s.link with adapter := .driver, answer := answer } }

/-! ### WellFormed refuses an ill-formed term at each check -/

theorem test_wf_startC : Instr.wf (.startC 0 0 (List.replicate 7 1)) = false := by decide
theorem test_wf_startX : Instr.wf (.startX 0 0 (List.replicate 62 1)) = false := by decide
theorem test_wf_consecutiveC : Instr.wf (.consecutiveC 0 0 (List.replicate 7 1)) = false := by decide
theorem test_wf_consecutiveX : Instr.wf (.consecutiveX 0 0 (List.replicate 63 1)) = false := by decide
theorem test_wf_endC : Instr.wf (.endC 0 (List.replicate 8 1)) = false := by decide
theorem test_wf_endX : Instr.wf (.endX 0 (List.replicate 64 1)) = false := by decide
theorem test_wf_flowcontrolC : Instr.wf (.flowcontrolC 0 .cont (List.replicate 7 1)) = false := by decide
theorem test_wf_flowcontrolX : Instr.wf (.flowcontrolX 0 .cont (List.replicate 63 1)) = false := by decide
theorem test_wf_errorC : Instr.wf (.errorC 0 0 (List.replicate 7 1)) = false := by decide
theorem test_wf_errorX : Instr.wf (.errorX 0 0 (List.replicate 63 1)) = false := by decide
theorem test_wf_decode (bytes : List Byte) (h : bytes.length = 256) : Instr.wf (.decode .classic ⟨0, bytes⟩) = false := by
  simp [Instr.wf, RawFrame.wf, h]

/-! ### Words written out from the spec's encodings -/

/-- S1; R72. -/
theorem test_decode_startC : decode true (.frame .classic ⟨0x123, [0x00, 0x03, 0xAA, 0xBB, 0xCC]⟩) =
    .ok (.startC 0x123 3 [0xAA, 0xBB, 0xCC]) := by rfl
/-- K4; R73, LEN_MSB_FIRST true. -/
theorem test_decode_startX : decode true (.frame .extended ⟨0x7E0, [0x00, 0x00, 0xC8, 0x01, 0x08]⟩) =
    .ok (.startX 0x7E0 200 [0x01, 0x08]) := by rfl
/-- K5; R73, LEN_MSB_FIRST false. -/
theorem test_decode_startX_lsb : decode false (.frame .extended ⟨0x7E0, [0x00, 0xC8, 0x00, 0x01, 0x08]⟩) =
    .ok (.startX 0x7E0 200 [0x01, 0x08]) := by rfl
/-- K7; R74. -/
theorem test_decode_consecutiveC :
    decode true (.frame .classic ⟨0x123, [0x01, 0x00, 0x16, 0x17, 0x18, 0x19, 0x1A, 0x1B]⟩) =
      .ok (.consecutiveC 0x123 0 [0x16, 0x17, 0x18, 0x19, 0x1A, 0x1B]) := by rfl
/-- R74, in Extended. -/
theorem test_decode_consecutiveX : decode true (.frame .extended ⟨0x123, [0x01, 0xFF, 0x16]⟩) =
    .ok (.consecutiveX 0x123 255 [0x16]) := by rfl
/-- K9; R75. -/
theorem test_decode_endC : decode true (.frame .classic ⟨0x123, [0x02, 0x1C, 0x1D, 0x1E]⟩) =
    .ok (.endC 0x123 [0x1C, 0x1D, 0x1E]) := by rfl
/-- K11; R75. -/
theorem test_decode_endX : decode true (.frame .extended ⟨0x1, [0x02]⟩) = .ok (.endX 0x1 []) := by rfl
/-- K31; R76, R82: byte 2 is carried and ignored. -/
theorem test_decode_flowcontrolC : decode true (.frame .classic ⟨0x123, [0x03, 0x02, 0x99]⟩) =
    .ok (.flowcontrolC 0x123 .abort [0x99]) := by rfl
/-- K12; R76. -/
theorem test_decode_flowcontrolX : decode true (.frame .extended ⟨0x123, [0x03, 0x01]⟩) =
    .ok (.flowcontrolX 0x123 .wait []) := by rfl
/-- R77. -/
theorem test_decode_errorC : decode true (.frame .classic ⟨0x123, [0x04, 0x07, 0x00]⟩) =
    .ok (.errorC 0x123 0x07 [0x00]) := by rfl
/-- K13; R77. -/
theorem test_decode_errorX : decode true (.frame .extended ⟨0x7E0, [0x04, 0x05]⟩) = .ok (.errorX 0x7E0 0x05 []) := by rfl
/-- K20: an unknown tag. -/
theorem test_decode_unknown_tag : decode true (.frame .classic ⟨0x123, [0x09, 0x01, 0x02]⟩) =
    .error (.unparseable .unknownFrameKind) := by rfl

/-- R92: code 0x00. -/
theorem test_decode_encStart : decode true (.command ⟨0x00, { id := 0x123, totalLength := 3, data := [0xAA] }⟩) =
    .ok (.encStart .classic 0x123 3 [0xAA]) := by rfl
/-- R92: code 0x01. -/
theorem test_decode_encCons : decode true (.command ⟨0x01, { id := 0x123, sequence := 9, data := [0xAA] }⟩) =
    .ok (.encCons .classic 0x123 9 [0xAA]) := by rfl
/-- R92: code 0x02. -/
theorem test_decode_encEnd : decode true (.command ⟨0x02, { mode := .extended, id := 1, data := [0xAA] }⟩) =
    .ok (.encEnd .extended 1 [0xAA]) := by rfl
/-- R92: code 0x03. -/
theorem test_decode_encFc : decode true (.command ⟨0x03, { id := 1, command := .wait }⟩) =
    .ok (.encFc .classic 1 .wait) := by rfl
/-- R92: code 0x04. -/
theorem test_decode_encErr : decode true (.command ⟨0x04, { id := 1, code := 5 }⟩) = .ok (.encErr .classic 1 5) := by rfl
/-- R92: code 0x05. -/
theorem test_decode_decode : decode true (.command ⟨0x05, { raw := ⟨7, [0x02]⟩ }⟩) =
    .ok (.decode .classic ⟨7, [0x02]⟩) := by rfl
/-- R92: code 0x06. -/
theorem test_decode_sendTransfer : decode true (.command ⟨0x06, { id := 1, len := 15 }⟩) =
    .ok (.sendTransfer 1 15 .classic) := by rfl
/-- R92: code 0x07. -/
theorem test_decode_send : decode true (.command ⟨0x07, { id := 1, len := 300 }⟩) = .ok (.send 1 300 .classic) := by rfl
/-- R92: code 0x08. -/
theorem test_decode_pollOnce : decode true (.command ⟨0x08, { mode := .extended }⟩) = .ok (.pollOnce .extended) := by rfl
/-- R92: code 0x09. -/
theorem test_decode_receive : decode true (.command ⟨0x09, { capacity := 16 }⟩) = .ok (.receive 16 .classic) := by rfl
/-- R92: code 0x0A. -/
theorem test_decode_receiveBytes : decode true (.command ⟨0x0A, { length := 300 }⟩) =
    .ok (.receiveBytes 300 .classic) := by rfl
/-- R92: code 0x0B names no operation. -/
theorem test_decode_unknown_code : decode true (.command ⟨0x0B, {}⟩) = .error (.unknownCommand 0x0B) := by rfl
/-- The table's rows of codes 0x05 and 0x0A, as the table numbers their bits. -/
theorem test_decodeTableWord : decodeTableWord 8 0x05 = some (.decode .classic ⟨0, []⟩) ∧
    decodeTableWord 8 0x0A = some (.receiveBytes 0 .classic) ∧ decodeTableWord 8 0x0B = none := by decide

/-! ### The codec (vectors K) -/

/-- K3. -/
theorem test_encStart_K3 : nextIs (exec (.encStart .classic 0x123 255 [1, 2, 3, 4, 5, 6]) start) (fun t =>
    t.codec = some (.raw ⟨0x123, [0x00, 0xFF, 1, 2, 3, 4, 5, 6]⟩)) = true := by decide
/-- K5: the same total, least significant byte first. -/
theorem test_encStart_K5 : nextIs (exec (.encStart .extended 0x7E0 200 [0x01, 0x08])
    { start with params := ⟨0x7E0, false⟩ }) (fun t =>
      t.codec = some (.raw ⟨0x7E0, [0x00, 0xC8, 0x00, 0x01, 0x08]⟩)) = true := by decide
/-- K8. -/
theorem test_encCons_K8 : nextIs (exec (.encCons .classic 0x123 255 []) start) (fun t =>
    t.codec = some (.raw ⟨0x123, [0x01, 0xFF]⟩)) = true := by decide
/-- The contract vectors of section 3. -/
theorem test_encCons_contract :
    refusedAs (exec (.encCons .extended 0x123 0 (List.replicate 63 1)) start) .encContract = true := by decide
/-- K10. -/
theorem test_encEnd_K10 : nextIs (exec (.encEnd .classic 0x123 [1, 2, 3, 4, 5, 6, 7]) start) (fun t =>
    t.codec = some (.raw ⟨0x123, [0x02, 1, 2, 3, 4, 5, 6, 7]⟩)) = true := by decide
/-- K12. -/
theorem test_encFc_K12 : nextIs (exec (.encFc .classic 0x123 .abort) start) (fun t =>
    t.codec = some (.raw ⟨0x123, [0x03, 0x02]⟩)) = true := by decide
/-- K13. -/
theorem test_encErr_K13 : nextIs (exec (.encErr .extended 0x7E0 0x05) start) (fun t =>
    t.codec = some (.raw ⟨0x7E0, [0x04, 0x05]⟩)) = true := by decide
/-- K34: the Mode hazard. -/
theorem test_decode_K34 : nextIs (exec (.decode .extended ⟨0x123, [0x00, 0x09, 1, 2, 3, 4, 5, 6, 7]⟩) start) (fun t =>
    t.codec = some (.logical (.start 2305 [2, 3, 4, 5, 6, 7]))) = true := by decide
/-- K33. -/
theorem test_decode_K33 : nextIs (exec (.decode .classic ⟨0x123, [0x00, 0x09, 1, 2, 3, 4, 5, 6, 7]⟩) start) (fun t =>
    t.codec = some (.parseError .unknownFrameKind)) = true := by decide

/-! ### The sender (vectors S2, section 4) -/

/-- R130; 255 bytes are the most a Classic transfer carries. -/
theorem test_sendTransfer_issue : nextIs (exec (.sendTransfer 0x123 255 .classic) start) (fun t =>
    t.tx.phase = .start ∧ t.tx.total = 255) = true := by decide
/-- R147: 256 bytes are refused. -/
theorem test_sendTransfer_refused :
    refusedAs (exec (.sendTransfer 0x123 256 .classic) start) .transferTooLong = true := by decide
/-- Section 4: SEND of 300 bytes begins with a transfer of 255. -/
theorem test_send_issue : nextIs (exec (.send 0x123 300 .classic) start) (fun t =>
    t.tx.phase = .start ∧ t.tx.total = 255 ∧ t.tx.msgLen = 300) = true := by decide
/-- S2, frame 1. -/
theorem test_sender_start_frame : nextIs (senderStep (sending .classic 15)) (fun t =>
    t.tx.phase = .body ∧ t.link.sent = [⟨0x123, [0x00, 0x0F, 0x10, 0x11, 0x12, 0x13, 0x14, 0x15]⟩]) = true := by decide
/-- S2, frame 2. -/
theorem test_sender_consecutive_frame : nextIs (senderStep (sendingBody 15 6 0)) (fun t =>
    t.tx.sent = 12 ∧ t.tx.seq = 1 ∧
      t.link.sent = [⟨0x123, [0x01, 0x00, 0x16, 0x17, 0x18, 0x19, 0x1A, 0x1B]⟩]) = true := by decide
/-- S2, frame 3. -/
theorem test_sender_end_frame : nextIs (senderStep (sendingBody 15 12 1)) (fun t =>
    t.tx.phase = .done ∧ t.tx.resultLen = 15 ∧ t.link.sent = [⟨0x123, [0x02, 0x1C, 0x1D, 0x1E]⟩]) = true := by decide
/-- Section 4: 13 bytes are S E(7), so no CONSECUTIVE frame. -/
theorem test_sender_full_end : nextIs (senderStep (sendingBody 13 6 0)) (fun t =>
    t.tx.phase = .done ∧ t.link.sent = [⟨0x123, [0x02, 0x16, 0x17, 0x18, 0x19, 0x1A, 0x1B, 0x1C]⟩]) = true := by decide
/-- Section 4, the last lines: the adapter refuses frame 2 of S2. -/
theorem test_sender_failure : nextIs (senderStep (overDriver false (sendingBody 15 6 0))) (fun t =>
    t.tx.phase = .failed ∧ t.tx.error = .linkTransmitFailure ∧ t.tx.sent = 6 ∧ t.link.sent = []) = true := by decide

/-! ### The receiver (vectors V, X, Y) -/

/-- V1, row 1. -/
theorem test_startC_V1 : nextIs
    (exec (.startC 0x123 15 [0x10, 0x11, 0x12, 0x13, 0x14, 0x15]) (awaitingStart .classic 16)) (fun t =>
      t.poll = some .pending ∧ t.rx.state = .awaitingMore ∧ t.rx.totalLength = 15 ∧ t.rx.receivedLength = 6 ∧
        t.rx.expectedSequence = 0) = true := by decide
/-- R25, R26: a START frame that holds its whole transfer leaves the expected sequence 0. -/
theorem test_startC_whole : nextIs (exec (.startC 0x123 3 [0xAA, 0xBB, 0xCC]) { awaitingStart .classic 8 with
    rx := { (awaitingStart .classic 8).rx with expectedSequence := 7 } }) (fun t =>
      t.rx.state = .done ∧ t.rx.started = true ∧ t.rx.totalLength = 3 ∧ t.rx.receivedLength = 3 ∧
        t.rx.expectedSequence = 0) = true := by decide
/-- Y2: a padded START frame. -/
theorem test_startC_Y2 : nextIs
    (exec (.startC 0x123 3 [0xAA, 0xBB, 0xCC, 0, 0, 0]) (awaitingStart .classic 8)) (fun t =>
      t.poll = some (.done 3) ∧ dstBytes t 5 = [0xAA, 0xBB, 0xCC, 0xEE, 0xEE]) = true := by decide
/-- Y7. -/
theorem test_startX_Y7 : nextIs (exec (.startX 0x123 2 [0x09, 0x08]) (awaitingStart .extended 64)) (fun t =>
    t.poll = some (.done 2) ∧ dstBytes t 3 = [0x09, 0x08, 0xEE]) = true := by decide
/-- X1: BufferTooSmall, no copy. -/
theorem test_startX_too_small : nextIs (exec (.startX 0x123 15 [0x10]) (awaitingStart .extended 14)) (fun t =>
    t.poll = some (.failed .bufferTooSmall) ∧ dstBytes t 2 = [0xEE, 0xEE]) = true := by decide
/-- V1, row 2. -/
theorem test_consecutiveC_V1 : nextIs
    (exec (.consecutiveC 0x123 0 [0x16, 0x17, 0x18, 0x19, 0x1A, 0x1B]) (awaitingMore .classic 16 15 6 0)) (fun t =>
      t.poll = some .pending ∧ t.rx.receivedLength = 12 ∧ t.rx.expectedSequence = 1 ∧ t.readDst 6 = 0x16 ∧
        t.readDst 12 = 0xEE) = true := by decide
/-- X8: BufferOverflow although the bytes fit the capacity. -/
theorem test_consecutiveC_X8 : nextIs
    (exec (.consecutiveC 0x123 0 [7, 8, 9, 10, 11, 12]) (awaitingMore .classic 16 10 6 0)) (fun t =>
      t.poll = some (.failed .bufferOverflow) ∧ t.rx.receivedLength = 6) = true := by decide
/-- Y8: the expected sequence wraps from 255 to 0. -/
theorem test_consecutiveX_Y8 : nextIs (exec (.consecutiveX 0x123 255 []) (awaitingMore .extended 64 20 10 255)) (fun t =>
    t.poll = some .pending ∧ t.rx.expectedSequence = 0) = true := by decide
/-- X2, in Extended: SequenceMismatch. -/
theorem test_consecutiveX_X2 : nextIs (exec (.consecutiveX 0x123 1 [0x16]) (awaitingMore .extended 16 15 6 0)) (fun t =>
    t.poll = some (.failed .sequenceMismatch) ∧ t.rx.expectedSequence = 0) = true := by decide
/-- Y4: surplus END bytes are ignored. -/
theorem test_endC_Y4 : nextIs
    (exec (.endC 0x123 [0x1C, 0x1D, 0x1E, 0x55, 0x55, 0x55, 0x55]) (awaitingMore .classic 16 15 12 1)) (fun t =>
      t.poll = some (.done 15) ∧ t.readDst 14 = 0x1E ∧ t.readDst 15 = 0xEE) = true := by decide
/-- X3: END before START. -/
theorem test_endC_X3 : nextIs (exec (.endC 0x123 [0x1C, 0x1D, 0x1E]) (awaitingStart .classic 16)) (fun t =>
    t.poll = some (.failed .protocolViolation) ∧ t.dst = start.dst) = true := by decide
/-- Y5, in Extended: an END frame without data where nothing is lacking. -/
theorem test_endX_Y5 : nextIs (exec (.endX 0x123 []) (awaitingMore .extended 16 12 12 1)) (fun t =>
    t.poll = some (.done 12)) = true := by decide
/-- X6, in Extended: one byte too few. -/
theorem test_endX_X6 : nextIs (exec (.endX 0x123 [0x1C, 0x1D]) (awaitingMore .extended 16 15 12 1)) (fun t =>
    t.poll = some (.failed .protocolViolation) ∧ t.rx.state = .failed) = true := by decide
/-- V2: FC(Wait) is ignored. -/
theorem test_flowcontrolC_V2 : nextIs (exec (.flowcontrolC 0x123 .wait []) (awaitingMore .classic 16 15 6 0)) (fun t =>
    t = { awaitingMore .classic 16 15 6 0 with poll := some .pending }) = true := by decide
/-- V2, in Extended, before START. -/
theorem test_flowcontrolX_V2 : nextIs (exec (.flowcontrolX 0x123 .abort [1]) (awaitingStart .extended 16)) (fun t =>
    t = { awaitingStart .extended 16 with poll := some .pending }) = true := by decide
/-- V2: ERR is ignored. -/
theorem test_errorC_V2 : nextIs (exec (.errorC 0x123 0x07 []) (awaitingMore .classic 16 15 6 0)) (fun t =>
    t = { awaitingMore .classic 16 15 6 0 with poll := some .pending }) = true := by decide
/-- V2, in Extended: an unrelated id. -/
theorem test_errorX_unrelated : nextIs (exec (.errorX 0x124 0x07 []) (awaitingMore .extended 16 15 6 0)) (fun t =>
    t = { awaitingMore .extended 16 15 6 0 with poll := some .pending }) = true := by decide
/-- R245: an Extended START frame polled by a Classic receive is read as a Classic one. -/
theorem test_mode_mismatch : nextIs (exec (.startX 0x123 2 [0x09, 0x08]) (awaitingStart .classic 64)) (fun t =>
    t.poll = some (.done 0)) = true := by decide
/-- V2, row 2: POLL_ONCE takes an unrelated frame off the link. -/
theorem test_pollOnce_V2 : nextIs (exec (.pollOnce .classic)
    { awaitingStart .classic 16 with link := { start.link with queue := [⟨0x456, [0x01, 0x09]⟩] } }) (fun t =>
      t.poll = some .pending ∧ t.link.queue = [] ∧ t.rx.state = .awaitingStart) = true := by decide
/-- G2: a POLL_ONCE after the end is refused. -/
theorem test_pollOnce_G2 : refusedAs (exec (.pollOnce .classic) start) .pollNotLive = true := by decide
/-- R161. -/
theorem test_receive_issue : nextIs (exec (.receive 16 .classic) start) (fun t =>
    t.rx.state = .awaitingStart ∧ t.rx.capacity = 16 ∧ t.rx.base = 0) = true := by decide
/-- R66. -/
theorem test_receive_busy : refusedAs (exec (.receive 16 .classic) (awaitingStart .classic 16)) .receiverBusy = true := by
  decide
/-- R186. -/
theorem test_receiveBytes_issue : nextIs (exec (.receiveBytes 300 .classic) start) (fun t =>
    t.rx.state = .awaitingStart ∧ t.rx.rbLength = 300 ∧ t.rx.rbAccumulated = 0 ∧ t.rx.capacity = 300) = true := by decide
/-- G4: after the first transfer, of 255 bytes, the second inner receive has base 255 and capacity 45. -/
theorem test_receiveBytes_G4 : nextIs (exec (.endC 0x123 [0xFC, 0xFD, 0xFE])
    { awaitingMore .classic 300 255 252 41 with rx := { (awaitingMore .classic 300 255 252 41).rx with
        op := .receiveBytes, rbLength := 300 } }) (fun t =>
      t.rx.state = .awaitingStart ∧ t.rx.base = 255 ∧ t.rx.capacity = 45 ∧ t.rx.rbAccumulated = 255) = true := by decide

/-- R178, R231: a receive given up after six bytes. The engine is idle, the stale frame stays queued, the stored bytes stay
stored, and the bytes never stored read as before. -/
theorem test_abandon_receive : nextIs (step
    { awaitingMore .classic 16 15 6 0 with
      turns := [.abandon .receiver], link := { start.link with queue := [⟨0x123, [0x02]⟩] } }) (fun t =>
      t.rx = Receiver.reset ∧ t.link.queue = [⟨0x123, [0x02]⟩] ∧ t.dst = start.dst ∧
        t.dstUndefined = [⟨0, 6, 0⟩] ∧ t.readDst 6 = 0xEE) = true := by decide
/-- R247: the next RECEIVE meets the stale END frame and fails with ProtocolViolation. -/
theorem test_abandon_then_stale : nextIs (exec (.pollOnce .classic)
    { awaitingStart .classic 16 with link := { start.link with queue := [⟨0x123, [0x02]⟩] } }) (fun t =>
      t.poll = some (.failed .protocolViolation) ∧ t.link.queue = []) = true := by decide
/-- R231: reset inside the second transfer of a message of 510 bytes leaves 255 + 252 bytes stored and undefined. -/
theorem test_reset_in_message : nextIs (step
    { start with
      turns := [.reset],
      rx := { Receiver.reset with
        state := .awaitingMore, started := true, op := .receiveBytes, rbLength := 510, rbAccumulated := 255, base := 255,
        capacity := 255, totalLength := 255, receivedLength := 252 } }) (fun t =>
      t.rx.state = .idle ∧ t.dstUndefined = [⟨0, 507, 0⟩] ∧ t.dst = start.dst) = true := by decide
/-- R231: a send given up after one frame leaves that frame sent, and the receiver alone. -/
theorem test_abandon_send : nextIs (step
    { sendingBody 15 6 0 with turns := [.abandon .sender], rx := (awaitingStart .classic 16).rx }) (fun t =>
      t.tx.phase = .idle ∧ t.link = start.link ∧ t.rx = (awaitingStart .classic 16).rx) = true := by decide
/-- R12: the environment's adapter holds no frame of 256 bytes. -/
theorem test_link_frame_too_long (bytes : List Byte) (h : bytes.length = 256) :
    step { start with turns := [.link [⟨0x123, bytes⟩] true] } = .refused .frameTooLong := by
  simp [step, State.nextTurn, linkEvent, RawFrame.wf, h]

/-- R61, R243: a read of DST during a receive is refused. -/
theorem test_readDst_live :
    refusedAs (step { awaitingMore .classic 16 15 6 0 with turns := [.readDst 3] }) .destinationInUse = true := by decide
/-- R61: after a receive that ended in Done the caller reads its buffer; V1's byte 15 is unchanged. -/
theorem test_readDst_done : nextIs (step
    { start with turns := [.readDst 15], rx := { Receiver.reset with state := .done } }) (fun t =>
      t.dstRead = some 0xEE ∧ t.turns = []) = true := by decide

/-! ### Witnesses: the hypotheses of each statement can be met, each clause at a boundary -/

theorem start_src_ok : Memory.Ok start.src := ⟨⟨by decide, by decide⟩, by decide⟩
theorem start_dst_ok : Memory.Ok start.dst := ⟨⟨by decide, by decide⟩, by decide⟩

theorem framesOk_start : start.FramesOk :=
  ⟨fun _ hr => absurd hr List.not_mem_nil, fun _ hr => absurd hr List.not_mem_nil, fun _ hr => by cases hr⟩

/-- A sender or a receiver at work, with S2 in SRC and `EE` in DST, meets the invariant. -/
theorem inv_sending (t : Sender) (h : t.Ok) : { start with tx := t }.Inv :=
  ⟨.of_not_live rfl, h, start_src_ok, start_dst_ok, fun _ hr => absurd hr List.not_mem_nil, framesOk_start⟩

theorem inv_receiving (r : Receiver) (h : r.Ok) : { start with rx := r }.Inv :=
  ⟨h, .of_not_busy rfl, start_src_ok, start_dst_ok, fun _ hr => absurd hr List.not_mem_nil, framesOk_start⟩

/-- A Classic receive whose link holds one frame. -/
def polling (raw : RawFrame) : State := { awaitingStart .classic 16 with link := { start.link with queue := [raw] } }

theorem inv_start : start.Inv := inv_receiving _ (.of_not_live rfl)
theorem inv_sending_15 : (sending .classic 15).Inv := inv_sending _ (by unfold Sender.Ok; decide)
theorem inv_sending_6 : (sending .classic 6).Inv := inv_sending _ (by unfold Sender.Ok; decide)
theorem inv_body_13 : (sendingBody 13 6 0).Inv := inv_sending _ (by unfold Sender.Ok; decide)
theorem inv_body_14 : (sendingBody 14 6 0).Inv := inv_sending _ (by unfold Sender.Ok; decide)
theorem inv_awaitingStart : (awaitingStart .classic 15).Inv := inv_receiving _ (by unfold Receiver.Ok; decide)
theorem inv_awaitingMore : (awaitingMore .classic 16 15 6 0).Inv := inv_receiving _ (by unfold Receiver.Ok; decide)
theorem inv_awaitingEnd : (awaitingMore .classic 15 15 12 1).Inv := inv_receiving _ (by unfold Receiver.Ok; decide)

/-- A SEND of 300 bytes in the START frame of a transfer of six bytes, and at the end of its last. -/
def messageStart : Sender :=
  { Sender.reset with phase := .start, op := .send, total := 6, msgLen := 6 }
def messageFirst : Sender :=
  { Sender.reset with phase := .body, op := .send, total := 255, sent := 252, seq := 41, msgLen := 300 }
theorem inv_messageStart : { start with tx := messageStart }.Inv := inv_sending _ (by unfold Sender.Ok; decide)
theorem inv_messageFirst : { start with tx := messageFirst }.Inv := inv_sending _ (by unfold Sender.Ok; decide)

/-- A RECEIVE_BYTES of `length` bytes with its first inner receive before, and inside, a transfer. -/
def messageAwaiting (length : Word) : Receiver :=
  { Receiver.reset with state := .awaitingStart, op := .receiveBytes, capacity := length, rbLength := length }
def messageMore (length total received : Word) : Receiver :=
  { messageAwaiting length with state := .awaitingMore, started := true, totalLength := total, receivedLength := received }
theorem inv_messageAwaiting : { start with rx := messageAwaiting 6 }.Inv := inv_receiving _ (by unfold Receiver.Ok; decide)
theorem inv_messageMore : { start with rx := messageMore 300 255 252 }.Inv :=
  inv_receiving _ (by unfold Receiver.Ok; decide)
theorem inv_messageLast : { start with rx := messageMore 255 255 252 }.Inv :=
  inv_receiving _ (by unfold Receiver.Ok; decide)

theorem witness_EncStartReturnsItsFrame :
    ([1, 2, 3, 4, 5, 6] : List Byte).length ≤ Mode.classic.startCapacity ∧
    (255 : Word).toNat ≤ 2 ^ (8 * Mode.classic.lenFieldBytes) - 1 ∧
    (List.replicate 61 (1 : Byte)).length ≤ Mode.extended.startCapacity ∧
    (65535 : Word).toNat ≤ 2 ^ (8 * Mode.extended.lenFieldBytes) - 1 := by decide

theorem witness_EncConsAndEncEndReturnTheirFrames :
    (List.replicate 6 (1 : Byte)).length ≤ Mode.classic.consecutiveCapacity ∧
    (List.replicate 62 (1 : Byte)).length ≤ Mode.extended.consecutiveCapacity ∧
    (List.replicate 7 (1 : Byte)).length ≤ Mode.classic.endCapacity ∧
    (List.replicate 63 (1 : Byte)).length ≤ Mode.extended.endCapacity := by decide

theorem witness_EncoderContractIsEnforced :
    Mode.classic.startCapacity < (List.replicate 7 (1 : Byte)).length ∧
    2 ^ (8 * Mode.classic.lenFieldBytes) - 1 < (256 : Word).toNat ∧
    Mode.classic.consecutiveCapacity < (List.replicate 7 (1 : Byte)).length ∧
    Mode.classic.endCapacity < (List.replicate 8 (1 : Byte)).length ∧ (sending .classic 15).Inv :=
  ⟨by decide, by decide, by decide, by decide, inv_sending_15⟩

theorem witness_DecodeReadsStartFrames :
    (List.replicate 6 (1 : Byte)).length ≤ 6 ∧ (List.replicate 61 (1 : Byte)).length ≤ 61 ∧
    1 + ([] : List Byte).length < 1 + Mode.classic.lenFieldBytes ∧
    1 + ([5] : List Byte).length < 1 + Mode.extended.lenFieldBytes := by decide

theorem witness_DecodeReadsConsecutiveAndEndFrames :
    (List.replicate 6 (1 : Byte)).length ≤ Mode.classic.consecutiveCapacity ∧
    (List.replicate 63 (1 : Byte)).length ≤ Mode.extended.endCapacity := by decide

theorem witness_DecodeReadsFlowControlAndErrorFrames :
    2 + (List.replicate 6 (1 : Byte)).length ≤ Mode.classic.linkCapacity ∧ 3 ≤ (0x03 : Byte).toNat ∧
    3 ≤ (0xFF : Byte).toNat := by decide

theorem witness_DecodeRejectsUnknownAndMalformedFrames :
    (⟨0, List.replicate 9 1⟩ : RawFrame).wf = true ∧ (⟨0, List.replicate 255 1⟩ : RawFrame).wf = true ∧
    (⟨0, []⟩ : RawFrame).length.toNat = 0 ∧
    Mode.classic.linkCapacity < (⟨0, List.replicate 9 1⟩ : RawFrame).length.toNat ∧
    5 ≤ (0x05 : Byte).toNat ∧ (⟨0, [0x00]⟩ : RawFrame).length.toNat < 1 + Mode.classic.lenFieldBytes ∧
    (⟨0, [0x00, 0x05]⟩ : RawFrame).length.toNat < 1 + Mode.extended.lenFieldBytes ∧
    (⟨0, [0x01]⟩ : RawFrame).length.toNat < 2 :=
  ⟨by decide, by simp only [RawFrame.wf, List.length_replicate]; decide, by decide, by decide, by decide, by decide, by decide, by decide⟩

/-- The longest raw frame, and one byte more. -/
theorem witness_DecodeIsTotal :
    (List.replicate 255 (1 : Byte)).length ≤ 255 ∧ 255 < (List.replicate 256 (1 : Byte)).length := by
  simp only [List.length_replicate]
  decide

/-- K1 for a chunked kind, K12 for a kind of two bytes. -/
theorem witness_DecodeAfterEncodeIsIdentity :
    (∃ t, exec ((LogicalFrame.start 3 [0xAA]).enc .classic 0x123) start = .next t) ∧
    (∃ t, exec ((LogicalFrame.flowControl .wait).enc .classic 0x123) start = .next t) :=
  ⟨⟨_, rfl⟩, ⟨_, rfl⟩⟩

/-- K36 and K31. -/
theorem witness_EncodeAfterDecodeIsIdentity :
    exec (.decode .classic ⟨0x123, [0x00, 0x03, 0xAA, 0xBB, 0xCC, 0, 0, 0]⟩) start =
      .next { start with codec := some (.logical (.start 3 [0xAA, 0xBB, 0xCC, 0, 0, 0])) } ∧
    exec (.decode .classic ⟨0x123, [0x03, 0x02, 0x99]⟩) start =
      .next { start with codec := some (.logical (.flowControl .abort)) } := ⟨rfl, rfl⟩

theorem witness_DecodeEncodeRoundTrip :
    Instr.wf (.startX 0x123 65535 (List.replicate 61 1)) = true ∧
    Instr.wf (.flowcontrolC 0x123 .abort (List.replicate 6 1)) = true ∧
    Instr.wf (.receiveBytes 0xFFFFFFFF .extended) = true := by decide

theorem witness_EncodeDecodeRoundTripOnFrames :
    decode false (.frame .classic ⟨0x123, [0x03, 0x02, 0x99]⟩) = .ok (.flowcontrolC 0x123 .abort [0x99]) := rfl

theorem witness_CommandCodesAreTheSpecs :
    { start with commands := [⟨0x0B, {}⟩] }.nextTurn = .caller ∧
    { start with commands := [⟨0x0B, {}⟩] }.commands = [⟨0x0B, {}⟩] ∧ 0x0B ≤ (⟨0x0B, {}⟩ : Command).code.toNat := by decide

theorem witness_StepRunsTheDecodedInstruction :
    { start with commands := [⟨0x09, { capacity := 16 }⟩] }.nextTurn = .caller ∧
    { start with commands := [⟨0x09, { capacity := 16 }⟩] }.commands = ⟨0x09, { capacity := 16 }⟩ :: [] ∧
    decode start.params.lenMsbFirst (.command ⟨0x09, { capacity := 16 }⟩) = .ok (.receive 16 .classic) :=
  ⟨by decide, rfl, rfl⟩

theorem witness_ReceiverTurnRunsTheDecodedFrame :
    (polling ⟨0x123, [0x00, 0x00]⟩).nextTurn = .receiver ∧ (polling ⟨0x123, [0x00, 0x00]⟩).rx.live = true ∧
    (polling ⟨0x123, [0x00, 0x00]⟩).link.queue = ⟨0x123, [0x00, 0x00]⟩ :: [] ∧
    decode start.params.lenMsbFirst (.frame (polling ⟨0x123, [0x00, 0x00]⟩).rx.mode ⟨0x123, [0x00, 0x00]⟩) =
      .ok (.startC 0x123 0 []) := ⟨by decide, by decide, rfl, rfl⟩

theorem witness_TurnsWithNothingToDoPass :
    (start.nextTurn = .caller ∧ start.commands = []) ∧
    ({ start with turns := [.sender] }.nextTurn = .sender ∧ start.tx.busy = false) ∧
    ({ start with turns := [.receiver] }.nextTurn = .receiver ∧ start.rx.live = false) ∧
    { start with turns := [.abandon .sender] }.nextTurn = .abandon .sender ∧
    { start with turns := [.abandon .receiver] }.nextTurn = .abandon .receiver := by decide

theorem witness_PollOnceRunsThePolledFrame :
    (∀ raw, (polling raw).rx.live = true ∧ (polling raw).link.queue = raw :: []) ∧
    decode true (.frame .classic ⟨0x123, [0x00, 0x00]⟩) = .ok (.startC 0x123 0 []) ∧
    decode true (.frame .classic ⟨0x123, [0x05]⟩) = .error (.unparseable .unknownFrameKind) :=
  ⟨fun _ => ⟨rfl, rfl⟩, rfl, rfl⟩

theorem witness_WireRowIsItsLogicalFrame :
    Instr.wf (.errorC 0x123 0xFF (List.replicate 6 1)) = true ∧
    Instr.asFrame (.errorC 0x123 0xFF (List.replicate 6 1)) =
      some ((awaitingStart .classic 16).rx.mode, start.params.rxId, .error 0xFF) ∧
    (awaitingStart .classic 16).rx.live = true := by decide

theorem witness_WireRowsComplete :
    Instr.wf (.endX 0x456 []) = true ∧ Instr.asFrame (.endX 0x456 []) = some (.extended, 0x456, .endOf []) ∧ (awaitingStart .classic 15).Inv ∧
    start.rx.live = false := ⟨by decide, by decide, inv_awaitingStart, by decide⟩

theorem witness_SendTransferIsIssued :
    start.tx.busy = false ∧ (255 : Word).toNat ≤ Mode.classic.maxTransfer ∧
    (15934 : Word).toNat ≤ Mode.extended.maxTransfer := by decide

theorem witness_SendIsIssued : start.tx.busy = false := by decide

theorem witness_ForbiddenOperationsAreRefused :
    (start.tx.busy = false ∧ Mode.classic.maxTransfer < (256 : Word).toNat ∧
      Mode.extended.maxTransfer < (15935 : Word).toNat) ∧
    (sending .classic 15).tx.phase = .start ∧ (sendingBody 15 6 0).tx.phase = .body ∧
    (awaitingStart .classic 16).rx.state = .awaitingStart ∧
    (awaitingMore .classic 16 15 6 0).rx.state = .awaitingMore := by decide

theorem witness_StartPhaseSendsTheStartFrame :
    ((sending .classic 15).Inv ∧ (sending .classic 15).tx.phase = .start ∧ (sending .classic 15).link.accepts = true ∧
      Mode.classic.startCapacity < (15 : Word).toNat) ∧
    ((sending .classic 6).Inv ∧ (sending .classic 6).tx.phase = .start ∧
      (6 : Word).toNat ≤ Mode.classic.startCapacity ∧ (sending .classic 6).tx.op = .sendTransfer) :=
  ⟨⟨inv_sending_15, rfl, rfl, by decide⟩, ⟨inv_sending_6, rfl, by decide, rfl⟩⟩

theorem witness_BodyPhaseSendsOneFrame :
    ((sendingBody 13 6 0).Inv ∧ (sendingBody 13 6 0).tx.phase = .body ∧ (sendingBody 13 6 0).link.accepts = true ∧
      (13 : Word).toNat - (6 : Word).toNat ≤ Mode.classic.endCapacity) ∧
    ((sendingBody 14 6 0).Inv ∧ (sendingBody 14 6 0).tx.phase = .body ∧
      Mode.classic.endCapacity < (14 : Word).toNat - (6 : Word).toNat) :=
  ⟨⟨inv_body_13, rfl, rfl, by decide⟩, ⟨inv_body_14, rfl, by decide⟩⟩

/-- The last transfer of a message in one frame; the first transfer of G4, with 45 bytes to follow. -/
theorem witness_SendGoesOnWithTheNextSlice :
    ({ start with tx := messageStart }.Inv ∧ messageStart.op = .send ∧ start.link.accepts = true ∧
      messageStart.phase = .start ∧ messageStart.total.toNat ≤ messageStart.mode.startCapacity ∧
      messageStart.msgLen.toNat ≤ messageStart.msgOff.toNat + messageStart.total.toNat) ∧
    ({ start with tx := messageFirst }.Inv ∧ messageFirst.op = .send ∧ messageFirst.phase = .body ∧
      messageFirst.total.toNat - messageFirst.sent.toNat ≤ messageFirst.mode.endCapacity ∧
      messageFirst.msgOff.toNat + messageFirst.total.toNat < messageFirst.msgLen.toNat) :=
  ⟨⟨inv_messageStart, rfl, rfl, rfl, by decide, by decide⟩, ⟨inv_messageFirst, rfl, rfl, by decide, by decide⟩⟩

theorem witness_TransmitFailureEndsTheSend :
    (overDriver false (sending .classic 15)).Inv ∧ (overDriver false (sending .classic 15)).tx.busy = true ∧
    (overDriver false (sending .classic 15)).link.accepts = false := ⟨inv_sending_15, by decide, by decide⟩

theorem witness_SendTransferSendsExactlyItsFrames :
    start.tx.busy = false ∧ (255 : Word).toNat ≤ Mode.classic.maxTransfer ∧ start.link.accepts = true ∧
    (overDriver true start).link.accepts = true ∧ start.turns = [] := by decide

theorem witness_ReceiveIsIssued : start.rx.live = false := by decide

theorem witness_ReceiveBytesIsIssued : start.rx.live = false := by decide

theorem witness_PollOnceCompletesWhereLive :
    ((awaitingStart .classic 15).Inv ∧ (awaitingStart .classic 15).rx.live = true) ∧ start.rx.live = false ∧
    Mode.extended ≠ (awaitingStart .classic 15).rx.mode := ⟨⟨inv_awaitingStart, by decide⟩, by decide, by decide⟩

theorem witness_SkippedPollsChangeNothing :
    ((awaitingMore .classic 16 15 6 0).rx.live = true ∧ (awaitingMore .classic 16 15 6 0).link.queue = []) ∧
    (∀ raw, (polling raw).rx.live = true ∧ (polling raw).link.queue = raw :: []) ∧
    (0x124 : Word) ≠ start.params.rxId ∧ parseFrame true .classic [0x05] = .error .unknownFrameKind ∧
    parseFrame true .classic [0x03, 0x02] = .ok (.flowControl .abort) ∧
    parseFrame true .classic [0x04, 0xFF] = .ok (.error 0xFF) ∧
    Instr.wf (.flowcontrolC 0x123 .wait (List.replicate 6 1)) = true ∧
    Instr.asFrame (.flowcontrolC 0x123 .wait (List.replicate 6 1)) =
      some ((awaitingMore .classic 16 15 6 0).rx.mode, start.params.rxId, .flowControl .wait) ∧
    Instr.asFrame (.endX 0x124 []) = some (.extended, 0x124, .endOf []) ∧ Instr.wf (.endX 0x124 []) = true :=
  ⟨⟨by decide, rfl⟩, fun _ => ⟨rfl, rfl⟩, by decide, rfl, rfl, rfl, by decide, rfl, rfl, by decide⟩

/-- V1 with capacity 14. -/
theorem witness_TooLongStartFailsBeforeAnyCopy :
    Instr.wf (.startC 0x123 15 (List.replicate 6 1)) = true ∧
    Instr.asFrame (.startC 0x123 15 (List.replicate 6 1)) =
      some ((awaitingStart .classic 14).rx.mode, start.params.rxId, .start 15 (List.replicate 6 1)) ∧
    (awaitingStart .classic 14).rx.state = .awaitingStart ∧
    (awaitingStart .classic 14).rx.capacity.toNat < (15 : Word).toNat := by decide

/-- V1 with capacity 15; and a START frame that holds its whole transfer. -/
theorem witness_StartFrameIsStored :
    (awaitingStart .classic 15).Inv ∧
    (Instr.wf (.startC 0x123 15 (List.replicate 6 1)) = true ∧
      Instr.asFrame (.startC 0x123 15 (List.replicate 6 1)) =
        some ((awaitingStart .classic 15).rx.mode, start.params.rxId, .start 15 (List.replicate 6 1)) ∧
      (awaitingStart .classic 15).rx.state = .awaitingStart ∧
      (15 : Word).toNat ≤ (awaitingStart .classic 15).rx.capacity.toNat ∧
      (List.replicate 6 (1 : Byte)).length < (15 : Word).toNat) ∧
    (Instr.asFrame (.startC 0x123 6 (List.replicate 6 1)) =
        some ((awaitingStart .classic 15).rx.mode, start.params.rxId, .start 6 (List.replicate 6 1)) ∧
      (6 : Word).toNat ≤ (List.replicate 6 (1 : Byte)).length ∧ (awaitingStart .classic 15).rx.op = .receive) :=
  ⟨inv_awaitingStart, by decide, by decide⟩

/-- Y5: the frame that fills the total exactly. -/
theorem witness_ConsecutiveFrameIsStored :
    (awaitingMore .classic 16 15 6 0).Inv ∧ Instr.wf (.consecutiveC 0x123 0 (List.replicate 6 1)) = true ∧
    Instr.asFrame (.consecutiveC 0x123 0 (List.replicate 6 1)) = some ((awaitingMore .classic 16 15 6 0).rx.mode,
      start.params.rxId, .consecutive (awaitingMore .classic 16 15 6 0).rx.expectedSequence (List.replicate 6 1)) ∧
    (awaitingMore .classic 16 15 6 0).rx.state = .awaitingMore ∧
    (6 : Word).toNat + (List.replicate 6 (1 : Byte)).length ≤ (15 : Word).toNat :=
  ⟨inv_awaitingMore, by decide, by decide, by decide, by decide⟩

theorem witness_OutOfSequenceFrameFails :
    Instr.wf (.consecutiveC 0x123 1 []) = true ∧
    Instr.asFrame (.consecutiveC 0x123 1 []) =
      some ((awaitingMore .classic 16 15 6 0).rx.mode, start.params.rxId, .consecutive 1 []) ∧
    (awaitingMore .classic 16 15 6 0).rx.state = .awaitingMore ∧
    (1 : Byte) ≠ (awaitingMore .classic 16 15 6 0).rx.expectedSequence := by decide

/-- X8 with total 11, one byte too little. -/
theorem witness_OverflowingFrameFails :
    Instr.wf (.consecutiveC 0x123 0 (List.replicate 6 1)) = true ∧
    Instr.asFrame (.consecutiveC 0x123 0 (List.replicate 6 1)) = some ((awaitingMore .classic 16 11 6 0).rx.mode,
      start.params.rxId, .consecutive (awaitingMore .classic 16 11 6 0).rx.expectedSequence (List.replicate 6 1)) ∧
    (awaitingMore .classic 16 11 6 0).rx.state = .awaitingMore ∧
    ((awaitingMore .classic 11 11 6 0).rx.capacity.toNat < (6 : Word).toNat + (List.replicate 6 (1 : Byte)).length ∧
      (11 : Word).toNat < (6 : Word).toNat + (List.replicate 6 (1 : Byte)).length) := by decide

theorem witness_EndFrameCompletesTheTransfer :
    (awaitingMore .classic 15 15 12 1).Inv ∧ Instr.wf (.endC 0x123 [1, 2, 3]) = true ∧
    Instr.asFrame (.endC 0x123 [1, 2, 3]) =
      some ((awaitingMore .classic 15 15 12 1).rx.mode, start.params.rxId, .endOf [1, 2, 3]) ∧
    (awaitingMore .classic 15 15 12 1).rx.state = .awaitingMore ∧
    (15 : Word).toNat - (12 : Word).toNat ≤ ([1, 2, 3] : List Byte).length ∧
    (awaitingMore .classic 15 15 12 1).rx.op = .receive := ⟨inv_awaitingEnd, by decide⟩

theorem witness_ShortEndFrameFails :
    (awaitingMore .classic 15 15 12 1).Inv ∧ Instr.wf (.endC 0x123 [1, 2]) = true ∧
    Instr.asFrame (.endC 0x123 [1, 2]) =
      some ((awaitingMore .classic 15 15 12 1).rx.mode, start.params.rxId, .endOf [1, 2]) ∧
    (awaitingMore .classic 15 15 12 1).rx.state = .awaitingMore ∧
    ([1, 2] : List Byte).length < (15 : Word).toNat - (12 : Word).toNat := ⟨inv_awaitingEnd, by decide⟩

/-- X4, X3, X5. -/
theorem witness_OutOfPatternFrameFails :
    (awaitingStart .classic 16).rx.state = .awaitingStart ∧
    Instr.asFrame (.consecutiveC 0x123 0 []) =
      some ((awaitingStart .classic 16).rx.mode, start.params.rxId, .consecutive 0 []) ∧
    Instr.asFrame (.endC 0x123 []) = some ((awaitingStart .classic 16).rx.mode, start.params.rxId, .endOf []) ∧
    (awaitingMore .classic 16 15 6 0).rx.state = .awaitingMore ∧
    Instr.asFrame (.startC 0x123 15 []) =
      some ((awaitingMore .classic 16 15 6 0).rx.mode, start.params.rxId, .start 15 []) ∧
    Instr.wf (.startC 0x123 15 []) = true ∧ Instr.wf (.endC 0x123 []) = true ∧
    Instr.wf (.consecutiveC 0x123 0 []) = true := by decide

/-- The last transfer of a message whole in its START frame; the first transfer of G4; a message that an END frame ends. -/
theorem witness_ReceiveBytesCollectsTransfers :
    ({ start with rx := messageAwaiting 6 }.Inv ∧ (messageAwaiting 6).op = .receiveBytes ∧
      (messageAwaiting 6).state = .awaitingStart ∧
      Instr.asFrame (.startC 0x123 6 (List.replicate 6 1)) =
        some ((messageAwaiting 6).mode, start.params.rxId, .start 6 (List.replicate 6 1)) ∧
      (6 : Word).toNat ≤ (List.replicate 6 (1 : Byte)).length ∧ (6 : Word).toNat ≤ (messageAwaiting 6).capacity.toNat) ∧
    ({ start with rx := messageMore 300 255 252 }.Inv ∧ (messageMore 300 255 252).op = .receiveBytes ∧
      (messageMore 300 255 252).state = .awaitingMore ∧
      Instr.asFrame (.endC 0x123 [1, 2, 3]) = some ((messageMore 300 255 252).mode, start.params.rxId, .endOf [1, 2, 3]) ∧
      (255 : Word).toNat - (252 : Word).toNat ≤ ([1, 2, 3] : List Byte).length) ∧
    ({ start with rx := messageMore 255 255 252 }.Inv ∧ (messageMore 255 255 252).op = .receiveBytes ∧
      (messageMore 255 255 252).state = .awaitingMore ∧
      nextIs (exec (.endC 0x123 [1, 2, 3]) { start with rx := messageMore 255 255 252 })
        (fun t => t.rx.rbAccumulated = (messageMore 255 255 252).rbLength) = true) :=
  ⟨⟨inv_messageAwaiting, by decide⟩, ⟨inv_messageMore, by decide⟩, ⟨inv_messageLast, by decide⟩⟩

/-- X3 as a receiver step. -/
theorem witness_ErrorsArePrecise :
    (polling ⟨0x123, [0x02]⟩).rx.live = true ∧
    nextIs (receiverStep (polling ⟨0x123, [0x02]⟩)) (fun t => t.rx.state = .failed) = true := by decide

theorem witness_StoresStayInsideTheBuffer : (awaitingStart .classic 15).Inv ∧
    ∃ t, receiverStep (awaitingStart .classic 15) = .next t := ⟨inv_awaitingStart, ⟨_, rfl⟩⟩

/-- Reset; a receive given up inside a transfer, with 6 bytes stored, and before one; a message given up with 255 bytes
collected and 252 of the next transfer stored; a send. -/
theorem witness_AbandonedOperationsLeaveOnlyTheirTraces :
    { awaitingMore .classic 16 15 6 0 with turns := [.reset] }.nextTurn = .reset ∧
    (∀ e, { awaitingMore .classic 16 15 6 0 with turns := [.abandon e] }.nextTurn = .abandon e) ∧
    ((awaitingMore .classic 16 15 6 0).rx.live = true ∧ (awaitingMore .classic 16 15 6 0).rx.storedEnd = 6) ∧
    ((awaitingStart .classic 16).rx.live = true ∧ (awaitingStart .classic 16).rx.storedEnd = 0) ∧
    ({ messageMore 510 255 252 with base := 255, capacity := 255, rbAccumulated := 255 }.live = true ∧
      { messageMore 510 255 252 with base := 255, capacity := 255, rbAccumulated := 255 }.storedEnd = 507) ∧
    (sending .classic 15).tx.busy = true := ⟨by decide, fun _ => rfl, by decide, by decide, by decide, by decide⟩

theorem witness_ParametersNeverChange : ∃ t, step start = .next t := ⟨_, rfl⟩

theorem witness_EnginesShareNoState :
    (∃ t, senderStep (overDriver true (sending .classic 15)) = .next t) ∧
    (overDriver true (sending .classic 15)).link.adapter = .driver ∧
    (∃ t, receiverStep (awaitingStart .classic 15) = .next t) := ⟨⟨_, rfl⟩, rfl, ⟨_, rfl⟩⟩

/-- Both engines at work over a driver. -/
def bothBusy : State := overDriver true { sending .classic 15 with rx := (awaitingStart .classic 15).rx }

theorem witness_EngineStepsCommute :
    bothBusy.link.adapter = .driver ∧ (∃ a, senderStep bothBusy = .next a) ∧ (∃ b, receiverStep bothBusy = .next b) :=
  ⟨rfl, ⟨_, rfl⟩, ⟨_, rfl⟩⟩

theorem witness_EndedOperationsStayEnded :
    { start with rx := { Receiver.reset with state := .done } }.rx.ended = true ∧
    { start with tx := { Sender.reset with phase := .failed } }.tx.ended = true ∧
    (∃ t, step { start with rx := { Receiver.reset with state := .done }, turns := [.reset] } = .next t ∧
      t.rx.state ≠ .done) := ⟨by decide, by decide, ⟨_, rfl, by decide⟩⟩

theorem witness_BuffersAreLockedDuringOperations :
    ({ sending .classic 15 with turns := [.writeSrc 0 1] }.nextTurn = .writeSrc 0 1 ∧
      (sending .classic 15).tx.busy = true) ∧
    ({ awaitingStart .classic 15 with turns := [.writeDst 0xFFFFFFFF 0] }.nextTurn = .writeDst 0xFFFFFFFF 0 ∧
      (awaitingStart .classic 15).rx.live = true) ∧
    (∀ (s : State) (off : Word), { s with turns := [.readDst off] }.nextTurn = .readDst off) ∧
    start.tx.busy = false ∧ start.rx.live = false ∧ start.Inv :=
  ⟨by decide, by decide, fun _ _ => rfl, by decide, by decide, inv_start⟩

theorem witness_LoopbackIsFirstInFirstOut : start.link.adapter = .loopback ∧ start.link.queue = [] := by decide

theorem witness_EveryStepKeepsTheInvariant :
    (sending .classic 15).Inv ∧ ∃ t, step (sending .classic 15) = .next t := ⟨inv_sending_15, ⟨_, rfl⟩⟩

theorem witness_EnginesNeverGetStuck :
    ((sending .classic 15).Inv ∧ (sending .classic 15).nextTurn = .sender) ∧
    ((awaitingStart .classic 15).Inv ∧ (awaitingStart .classic 15).nextTurn = .receiver) :=
  ⟨⟨inv_sending_15, by decide⟩, ⟨inv_awaitingStart, by decide⟩⟩

/-- S2 in a buffer of exactly its length. -/
theorem witness_OneTransferRoundTrips :
    start.Inv ∧ start.tx.busy = false ∧ start.rx.live = false ∧ start.turns = [] ∧ start.link.adapter = .loopback ∧
    start.link.queue = [] ∧ (15 : Word).toNat ≤ Mode.classic.maxTransfer ∧ (15 : Word).toNat ≤ (15 : Word).toNat ∧
    { start with commands := [⟨0x06#8, { id := start.params.rxId, len := 15 }⟩, ⟨0x09#8, { capacity := 15 }⟩] }.commands =
      [⟨0x06#8, { id := start.params.rxId, len := 15, mode := .classic }⟩,
        ⟨0x09#8, { capacity := 15, mode := .classic }⟩] :=
  ⟨inv_start, by decide, by decide, rfl, rfl, rfl, by decide, by decide, rfl⟩

/-- A message of 300 bytes (G4). -/
theorem witness_MessagesRoundTrip :
    start.Inv ∧ start.tx.busy = false ∧ start.rx.live = false ∧ start.turns = [] ∧ start.link.adapter = .loopback ∧
    start.link.queue = [] ∧
    { start with commands := [⟨0x07#8, { id := start.params.rxId, len := 300 }⟩, ⟨0x0A#8, { length := 300 }⟩] }.commands =
      [⟨0x07#8, { id := start.params.rxId, len := 300, mode := .classic }⟩,
        ⟨0x0A#8, { length := 300, mode := .classic }⟩] :=
  ⟨inv_start, by decide, by decide, rfl, rfl, rfl, rfl⟩

end Sys2Proof.Tests
end

section
/-! The Mode table (R6 to R9): the record of each Mode, read off the laws of its capacities, and the formulas of R8 and R9. -/

namespace Sys2Proof

@[simp] theorem Mode.maxSequence_eq (m : Mode) : m.maxSequence = 255 := rfl

theorem Mode.record_classic : Mode.classic.record = ⟨8, 1, 6, 6, 7, 255, 255⟩ := by
  simp [Mode.record]

theorem Mode.record_extended : Mode.extended.record = ⟨64, 2, 61, 62, 63, 255, 15934⟩ := by
  simp [Mode.record]

/-- R8: each capacity is the link capacity less the header of its frame kind. -/
theorem Mode.capacities_eq_linkCapacity_sub_header (m : Mode) :
    m.startCapacity = m.linkCapacity - (1 + m.lenFieldBytes) ∧
    m.consecutiveCapacity = m.linkCapacity - 2 ∧ m.endCapacity = m.linkCapacity - 1 :=
  ⟨rfl, rfl, rfl⟩

/-- R9: the lesser of what the frames of one transfer hold and what the length field can say. -/
theorem Mode.maxTransfer_eq_min (m : Mode) :
    m.maxTransfer = min (m.startCapacity + m.maxSequence * m.consecutiveCapacity + m.endCapacity)
      (2 ^ (8 * m.lenFieldBytes) - 1) :=
  rfl

/-- Settles O1: the two records of R7, then the formulas of R8 and R9, which the model's definitions follow. -/
theorem modeTableIsTheSpecs : Obligations.ModeTableIsTheSpecs :=
  ⟨Mode.record_classic, Mode.record_extended, Mode.capacities_eq_linkCapacity_sub_header, Mode.maxTransfer_eq_min⟩

end Sys2Proof
end

section
/-! The codec (R100 to R118): what the ENC operations return, what the parser makes of the bytes of each kind, which frames
it rejects, and DECODE read off both. -/

namespace Sys2Proof

/-! ### The length field, from its bytes -/

theorem lenField_classic_setWidth (msb : Bool) (b : Byte) : lenField msb .classic (b.setWidth 32) = [b] := by
  simp [lenField, BitVec.setWidth_setWidth_of_le]

theorem be16_append (hi lo : Byte) : be16 (hi ++ lo) = [hi, lo] :=
  congrArg₂ (fun x y => [x, y]) BitVec.extractLsb'_append_eq_left BitVec.extractLsb'_append_eq_right

theorem le16_append (hi lo : Byte) : le16 (hi ++ lo) = [lo, hi] :=
  congrArg₂ (fun x y => [x, y]) BitVec.extractLsb'_append_eq_right BitVec.extractLsb'_append_eq_left

/-- The two bytes of an Extended length field, in the order LEN_MSB_FIRST gives (R51). -/
theorem lenField_extended_append (msb : Bool) (b1 b2 : Byte) :
    lenField msb .extended (if msb then (b1 ++ b2).setWidth 32 else (b2 ++ b1).setWidth 32) = [b1, b2] := by
  cases msb
  · simp [lenField, BitVec.setWidth_setWidth_of_le, le16_append]
  · simp [lenField, BitVec.setWidth_setWidth_of_le, be16_append]

/-! ### START frames, from their bytes -/

theorem parseFrame_start_classic {msb : Bool} {b : Byte} {data : List Byte}
    (hd : data.length ≤ Mode.classic.startCapacity) :
    parseFrame msb .classic (tagStart :: b :: data) = .ok (.start (b.setWidth 32) data) := by
  have ht : (b.setWidth 32).toNat ≤ Mode.classic.maxLenField := by
    rw [BitVec.toNat_setWidth, Mode.maxLenField_classic]
    omega
  simpa only [layoutStart, lenField_classic_setWidth, List.cons_append, List.nil_append] using
    parseFrame_start (msb := msb) hd ht

theorem parseFrame_start_extended {msb : Bool} {b1 b2 : Byte} {data : List Byte}
    (hd : data.length ≤ Mode.extended.startCapacity) :
    parseFrame msb .extended (tagStart :: b1 :: b2 :: data) =
      .ok (.start (if msb then (b1 ++ b2).setWidth 32 else (b2 ++ b1).setWidth 32) data) := by
  have ht : (if msb then (b1 ++ b2).setWidth 32 else (b2 ++ b1).setWidth 32 : Word).toNat ≤
      Mode.extended.maxLenField := by
    rw [← apply_ite, BitVec.toNat_setWidth, Mode.maxLenField_extended]
    omega
  simpa only [layoutStart, lenField_extended_append, List.cons_append, List.nil_append] using
    parseFrame_start (msb := msb) hd ht

/-! ### What the parser rejects -/

theorem parseFrame_nil (msb : Bool) (m : Mode) : parseFrame msb m [] = .error .unknownFrameKind := by
  simp [parseFrame]

/-- The parser has one error (R117), so what is not read as a frame gives it. -/
theorem parseFrame_eq_error {msb : Bool} {m : Mode} {bytes : List Byte}
    (h : ∀ f, parseFrame msb m bytes ≠ .ok f) : parseFrame msb m bytes = .error .unknownFrameKind := by
  cases hp : parseFrame msb m bytes with
  | ok f => exact absurd hp (h f)
  | error e => rfl

/-- What parses has one of the five tags (R116) and at least the header of its kind (R117). -/
theorem parseFrame_tag_header {msb : Bool} {m : Mode} {tag : Byte} {rest : List Byte} {f : LogicalFrame}
    (h : parseFrame msb m (tag :: rest) = .ok f) :
    tag.toNat < 5 ∧ (tag = tagStart → m.lenFieldBytes ≤ rest.length) ∧
      (tag = tagConsecutive ∨ tag = tagFlowControl ∨ tag = tagError → 1 ≤ rest.length) := by
  obtain ⟨_, _, -, hb, -⟩ | ⟨_, _, -, hb, -⟩ | ⟨_, -, hb, -⟩ | ⟨_, _, -, hb, -⟩ | ⟨_, _, -, hb, -⟩ :=
    parseFrame_cases h <;>
  · obtain ⟨rfl, rfl⟩ := List.cons.inj hb
    simp [tagStart, tagConsecutive, tagEnd, tagFlowControl, tagError]

/-- R117: a frame that ends within the header of its kind. -/
theorem parseFrame_short {msb : Bool} {m : Mode} {tag : Byte} {rest : List Byte}
    (h : (tag = tagStart ∧ rest.length < m.lenFieldBytes) ∨
      ((tag = tagConsecutive ∨ tag = tagFlowControl ∨ tag = tagError) ∧ rest.length < 1)) :
    parseFrame msb m (tag :: rest) = .error .unknownFrameKind := by
  refine parseFrame_eq_error fun f hf => ?_
  obtain ⟨-, hstart, htwo⟩ := parseFrame_tag_header hf
  obtain ⟨ht, hl⟩ | ⟨ht, hl⟩ := h
  · have := hstart ht
    omega
  · have := htwo ht
    omega

/-- R116: a tag outside the known kinds. -/
theorem parseFrame_unknown_tag {msb : Bool} {m : Mode} {tag : Byte} {rest : List Byte} (h : 5 ≤ tag.toNat) :
    parseFrame msb m (tag :: rest) = .error .unknownFrameKind := by
  refine parseFrame_eq_error fun f hf => ?_
  have := (parseFrame_tag_header hf).1
  omega

/-- R110: more bytes than the link carries. -/
theorem parseFrame_too_long {msb : Bool} {m : Mode} {bytes : List Byte} (h : m.linkCapacity < bytes.length) :
    parseFrame msb m bytes = .error .unknownFrameKind := if_pos h

theorem flowByte_lt (c : FlowCommand) : (flowByte c).toNat < 3 := by cases c <;> decide

/-- R114: a FLOWCONTROL frame with a reserved command. -/
theorem parseFrame_reserved_command {msb : Bool} {m : Mode} {b : Byte} {ignored : List Byte} (h : 3 ≤ b.toNat) :
    parseFrame msb m (tagFlowControl :: b :: ignored) = .error .unknownFrameKind := by
  refine parseFrame_eq_error fun f hf => ?_
  obtain ⟨_, _, -, hb, -⟩ | ⟨_, _, -, hb, -⟩ | ⟨_, -, hb, -⟩ | ⟨c, _, -, hb, -⟩ | ⟨_, _, -, hb, -⟩ :=
    parseFrame_cases hf
  case inr.inr.inr.inl =>
    obtain ⟨rfl, -⟩ := List.cons.inj (List.cons.inj hb).2
    have := flowByte_lt c
    omega
  all_goals exact absurd (List.cons.inj hb).1 (by decide)

end Sys2Proof

namespace Sys2Proof.Machine

/-! ### DECODE -/

theorem exec_decode_ok {s : State} {m : Mode} {raw : RawFrame} {f : LogicalFrame}
    (h : parseFrame s.params.lenMsbFirst m raw.bytes = .ok f) :
    exec (.decode m raw) s = .next { s with codec := some (.logical f) } := execDecode_ok h

theorem exec_decode_error {s : State} {m : Mode} {raw : RawFrame} {e : ParseError} (hw : raw.wf = true)
    (h : parseFrame s.params.lenMsbFirst m raw.bytes = .error e) :
    exec (.decode m raw) s = .next { s with codec := some (.parseError e) } := execDecode_error hw h

/-- DECODE of a frame that ends within the header of its kind (R117). -/
theorem exec_decode_short {s : State} {m : Mode} {id : Word} {tag : Byte} {rest : List Byte}
    (h : (tag = tagStart ∧ rest.length < m.lenFieldBytes) ∨
      ((tag = tagConsecutive ∨ tag = tagFlowControl ∨ tag = tagError) ∧ rest.length < 1)) :
    exec (.decode m ⟨id, tag :: rest⟩) s = .next { s with codec := some (.parseError .unknownFrameKind) } := by
  have hw : (⟨id, tag :: rest⟩ : RawFrame).wf = true := by
    have hm : m.lenFieldBytes ≤ 2 := by cases m <;> decide
    have hc : 3 ≤ m.linkCapacity := by cases m <;> decide
    refine RawFrame.wf_of_le (m := m) ?_
    rw [List.length_cons]
    omega
  exact exec_decode_error hw (parseFrame_short h)

/-- Settles O8: each Mode's START frame is the layout of its total, and the short forms end within their header. -/
theorem decodeReadsStartFrames : Obligations.DecodeReadsStartFrames := by
  intro s id
  refine ⟨fun b data hd => ?_, fun b1 b2 data hd => ?_, fun m rest hl => ?_⟩
  · exact exec_decode_ok (parseFrame_start_classic hd)
  · exact exec_decode_ok (parseFrame_start_extended hd)
  · exact exec_decode_short (.inl ⟨rfl, by omega⟩)

/-- Settles O9: both kinds parse as their layouts, and the one-byte CONSECUTIVE frame lacks its sequence. -/
theorem decodeReadsConsecutiveAndEndFrames : Obligations.DecodeReadsConsecutiveAndEndFrames := by
  intro s m id
  refine ⟨fun sequence data hd => ?_, ?_, fun data hd => ?_⟩
  · exact exec_decode_ok (parseFrame_consecutive hd)
  · exact exec_decode_short (.inr ⟨.inl rfl, by decide⟩)
  · exact exec_decode_ok (parseFrame_end hd)

/-- Settles O10: the three commands and every code parse as their layouts with the later bytes behind them; a reserved
command and a missing byte 1 do not parse. -/
theorem decodeReadsFlowControlAndErrorFrames : Obligations.DecodeReadsFlowControlAndErrorFrames := by
  intro s m id b ignored hl
  refine ⟨?_, ?_, ?_, fun hb => ?_, ?_, ?_, ?_⟩
  · rintro rfl
    exact exec_decode_ok (parseFrame_flowControl (c := .cont) hl)
  · rintro rfl
    exact exec_decode_ok (parseFrame_flowControl (c := .wait) hl)
  · rintro rfl
    exact exec_decode_ok (parseFrame_flowControl (c := .abort) hl)
  · have hw : (⟨id, 0x03#8 :: b :: ignored⟩ : RawFrame).wf = true :=
      RawFrame.wf_of_le (m := m) (by simp; omega)
    exact exec_decode_error hw (parseFrame_reserved_command hb)
  · exact exec_decode_ok (parseFrame_error hl)
  · exact exec_decode_short (.inr ⟨.inr (.inl rfl), by decide⟩)
  · exact exec_decode_short (.inr ⟨.inr (.inr rfl), by decide⟩)

/-- Settles O11: the empty frame, the frame too long, the unknown tag and the frame within its header, one law of the
parser each. -/
theorem decodeRejectsUnknownAndMalformedFrames : Obligations.DecodeRejectsUnknownAndMalformedFrames := by
  rintro s m ⟨id, bytes⟩ hw h
  rw [RawFrame.length_toNat hw] at h
  obtain hnil | hlong | ⟨tag, rest, rfl, htag | hshort⟩ := h
  · obtain rfl := List.eq_nil_of_length_eq_zero hnil
    exact exec_decode_error hw (parseFrame_nil _ m)
  · exact exec_decode_error hw (parseFrame_too_long hlong)
  · exact exec_decode_error hw (parseFrame_unknown_tag htag)
  · simp only [List.length_cons] at hshort
    exact exec_decode_short (hshort.imp (And.imp_right fun hl => by omega) (And.imp_right fun hl => by omega))

/-! ### The ENC operations -/

theorem startFrame_of_contract {msb : Bool} {m : Mode} {id total : Word} {data : List Byte}
    (hd : data.length ≤ m.startCapacity) (ht : total.toNat ≤ m.maxLenField) :
    startFrame msb m id total data = some ⟨id, layoutStart msb m total data⟩ :=
  if_pos (by simp [startContract, hd, ht])

theorem consecutiveFrame_of_contract {m : Mode} {id : Word} {sequence : Byte} {data : List Byte}
    (hd : data.length ≤ m.consecutiveCapacity) :
    consecutiveFrame m id sequence data = some ⟨id, layoutConsecutive sequence data⟩ :=
  if_pos (by simp [consecutiveContract, hd])

theorem endFrame_of_contract {m : Mode} {id : Word} {data : List Byte} (hd : data.length ≤ m.endCapacity) :
    endFrame m id data = some ⟨id, layoutEnd data⟩ :=
  if_pos (by simp [endContract, hd])

/-- An ENC operation whose frame there is returns it and changes nothing else (R108). -/
theorem returnFrame_eq_some {s : State} {frame : Option RawFrame} {raw : RawFrame} (h : frame = some raw) :
    returnFrame frame s = .next { s with codec := some (.raw raw) } := by
  subst h
  rfl

theorem layoutStart_length (msb : Bool) (m : Mode) (total : Word) (data : List Byte) :
    (layoutStart msb m total data).length = 1 + m.lenFieldBytes + data.length := by
  simp [layoutStart]
  omega

/-- Settles O4: within the contract the frame is START's layout, whose bytes an 8-bit `length` counts. -/
theorem encStartReturnsItsFrame : Obligations.EncStartReturnsItsFrame := by
  intro s m id total data hd ht
  have hframe := startFrame_of_contract (msb := s.params.lenMsbFirst) (id := id) hd ht
  refine ⟨_, returnFrame_eq_some hframe, rfl, ?_⟩
  rw [RawFrame.length_toNat (startFrame_wf hframe), layoutStart_length]

/-- Settles O5: within the contracts the frames are the layouts of CONSECUTIVE and END. -/
theorem encConsAndEncEndReturnTheirFrames : Obligations.EncConsAndEncEndReturnTheirFrames :=
  fun _ _ _ _ => ⟨fun _ hd => returnFrame_eq_some (consecutiveFrame_of_contract hd),
    fun hd => returnFrame_eq_some (endFrame_of_contract hd)⟩

theorem exec_encFc (s : State) (m : Mode) (id : Word) (c : FlowCommand) :
    exec (.encFc m id c) s = .next { s with codec := some (.raw ⟨id, layoutFlowControl c⟩) } := rfl

theorem exec_encErr (s : State) (m : Mode) (id : Word) (code : Byte) :
    exec (.encErr m id code) s = .next { s with codec := some (.raw ⟨id, layoutError code⟩) } := rfl

/-- Settles O6: ENC.FC and ENC.ERR have no contract and return their layouts. -/
theorem encFcAndEncErrReturnTheirFrames : Obligations.EncFcAndEncErrReturnTheirFrames :=
  fun s m id => ⟨exec_encFc s m id .cont, exec_encFc s m id .wait, exec_encFc s m id .abort, exec_encErr s m id⟩

end Sys2Proof.Machine
end

section
/-! Segmentation (R130 to R147): the send that a transmit failure ends, and the issues that are refused. -/

namespace Sys2Proof.Machine

/-! ### A transmit failure -/

/-- R136: a busy sender in order offers a frame, and a link that does not take it leaves the error and nothing else. -/
theorem senderStep_of_rejects {s : State} (hok : s.tx.Ok) (hb : s.tx.busy = true) (ha : s.link.accepts = false) :
    senderStep s = .next (s.setTx { s.tx with phase := .failed, error := .linkTransmitFailure }) := by
  obtain ⟨raw, after, hstep⟩ := senderStep_busy hok hb
  rw [hstep, transmit_of_rejects ha]

/-- Settles O31: the step raises the error, and in Failed the sender is not busy, so it has no step. -/
theorem transmitFailureEndsTheSend : Obligations.TransmitFailureEndsTheSend := by
  rintro s ⟨-, hok, -⟩ hb ha
  exact ⟨_, senderStep_of_rejects hok hb ha, rfl, senderStep_idle rfl⟩

/-! ### The phases of a busy engine -/

theorem Sender.busy_iff {t : Sender} : t.busy = true ↔ t.phase = .start ∨ t.phase = .body := by simp [Sender.busy]

theorem Receiver.live_iff {r : Receiver} : r.live = true ↔ r.state = .awaitingStart ∨ r.state = .awaitingMore := by
  simp [Receiver.live]

/-! ### Issuing an operation -/

theorem exec_sendTransfer_of_busy {s : State} (hb : s.tx.busy = true) (id len : Word) (mode : Mode) :
    exec (.sendTransfer id len mode) s = .refused .senderBusy := if_pos hb

theorem exec_sendTransfer_of_too_long {s : State} (hb : s.tx.busy = false) (id : Word) {len : Word} {mode : Mode}
    (hl : mode.maxTransfer < len.toNat) : exec (.sendTransfer id len mode) s = .refused .transferTooLong := by
  simp [exec, execSendTransfer, hb, hl]

theorem exec_send_of_busy {s : State} (hb : s.tx.busy = true) (id len : Word) (mode : Mode) :
    exec (.send id len mode) s = .refused .senderBusy := if_pos hb

theorem exec_send_of_not_busy {s : State} (hb : s.tx.busy = false) (id len : Word) (mode : Mode) :
    exec (.send id len mode) s = .next (s.setTx (beginTransfer 0 (nextSlice mode len.toNat 0)
      { s.tx with id := id, mode := mode, op := .send, msgLen := len, msgOff := 0 })) := by
  simp [exec, execSend, hb]

theorem exec_receive_of_live {s : State} (hl : s.rx.live = true) (capacity : Word) (mode : Mode) :
    exec (.receive capacity mode) s = .refused .receiverBusy := if_pos hl

theorem exec_receiveBytes_of_live {s : State} (hl : s.rx.live = true) (length : Word) (mode : Mode) :
    exec (.receiveBytes length mode) s = .refused .receiverBusy := if_pos hl

/-- Settles O27: a busy engine refuses its operations, SEND_TRANSFER is refused beyond `max_transfer`, and SEND begins its
first slice on a free sender whatever the length. -/
theorem forbiddenOperationsAreRefused : Obligations.ForbiddenOperationsAreRefused := by
  intro s a b mode
  refine ⟨fun hb hl => ?_, fun hp => ?_, fun hst => ?_, fun hb => ?_⟩
  · exact exec_sendTransfer_of_too_long hb a hl
  · have hb := Sender.busy_iff.2 hp
    exact ⟨exec_sendTransfer_of_busy hb a b mode, exec_send_of_busy hb a b mode⟩
  · have hl := Receiver.live_iff.2 hst
    exact ⟨exec_receive_of_live hl a mode, exec_receiveBytes_of_live hl a mode⟩
  · exact ⟨_, exec_send_of_not_busy hb a b mode⟩

end Sys2Proof.Machine
end

section
/-! Reassembly (R160 to R180): what a live receiver makes of a polled frame or a wire row, one equation for each outcome of a
CONSECUTIVE, END or misplaced frame, and the statements that follow. -/

namespace Sys2Proof.Machine

/-! ### A live receiver and the frame it is given -/

theorem exec_pollOnce_of_live {s : State} (hl : s.rx.live = true) : exec (.pollOnce s.rx.mode) s = pollStep s := by
  simp [exec, execPollOnce, hl]

/-- A wire row on a live receiver is examined as the raw frame it is encoded to. -/
theorem exec_wire_of_live {s : State} {i : Instr} {m : Mode} {id : Word} {f : LogicalFrame} (hw : i.wf = true)
    (hf : i.asFrame = some (m, id, f)) (hl : s.rx.live = true) :
    ∃ raw, encode s.params.lenMsbFirst i = .frame m raw ∧ raw.id = id ∧ exec i s = examineFrame raw s := by
  obtain ⟨raw, henc, hid, hexec⟩ := exec_wire hf s
  exact ⟨raw, henc, hid, hexec.trans (deliver_live (wf_wire hw hf henc) hl)⟩

/-- R180: a wire row of the receiver's Mode and id is accepted as its logical frame. -/
theorem exec_wire_related {s : State} {i : Instr} {f : LogicalFrame} (hw : i.wf = true)
    (hf : i.asFrame = some (s.rx.mode, s.params.rxId, f)) (hl : s.rx.live = true) : exec i s = acceptFrame f s := by
  obtain ⟨raw, henc, hid, hexec⟩ := exec_wire_of_live hw hf hl
  exact hexec.trans (examineFrame_ok hid (parseFrame_wire hw hf henc))

/-! ### Frames that are skipped -/

/-- R165: the id is tested before the bytes. -/
theorem examineFrame_unrelated {raw : RawFrame} {s : State} (h : raw.id ≠ s.params.rxId) :
    examineFrame raw s = .next (pending s) := if_pos h

/-- R166: a frame the decoder does not read is skipped, whatever its id. -/
theorem examineFrame_unparseable {raw : RawFrame} {s : State} {e : ParseError}
    (h : parseFrame s.params.lenMsbFirst s.rx.mode raw.bytes = .error e) : examineFrame raw s = .next (pending s) := by
  simp [examineFrame, h]

/-- R177: FLOWCONTROL and ERROR frames are consumed and ignored in both live states. -/
theorem acceptFrame_ignored {s : State} {f : LogicalFrame} (h : (∃ c, f = .flowControl c) ∨ ∃ c, f = .error c) :
    acceptFrame f s = .next (pending s) := by
  obtain ⟨c, rfl⟩ | ⟨c, rfl⟩ := h <;> rfl

theorem examineFrame_ignored {raw : RawFrame} {s : State} {f : LogicalFrame}
    (hp : parseFrame s.params.lenMsbFirst s.rx.mode raw.bytes = .ok f)
    (h : (∃ c, f = .flowControl c) ∨ ∃ c, f = .error c) : examineFrame raw s = .next (pending s) := by
  by_cases hid : raw.id = s.params.rxId
  · rw [examineFrame_ok hid hp, acceptFrame_ignored h]
  · exact examineFrame_unrelated hid

/-- Settles O36: each skipped frame stops at its own test, the id filter, the decoder or the state, and every one of them
answers Pending. -/
theorem skippedPollsChangeNothing : Obligations.SkippedPollsChangeNothing := by
  intro s hl
  refine ⟨fun hq => ?_, fun raw rest hq hskip => ?_, fun i f hw hf hkind => ?_, fun i m id f hw hf hid => ?_⟩
  · rw [exec_pollOnce_of_live hl, pollStep_nil hq]
    rfl
  · rw [exec_pollOnce_of_live hl, pollStep_cons hq]
    obtain hid | ⟨e, hp⟩ | ⟨c, hp⟩ | ⟨c, hp⟩ := hskip
    · exact examineFrame_unrelated hid
    · exact examineFrame_unparseable hp
    · exact examineFrame_ignored hp (.inl ⟨c, rfl⟩)
    · exact examineFrame_ignored hp (.inr ⟨c, rfl⟩)
  · exact (exec_wire_related hw hf hl).trans (acceptFrame_ignored hkind)
  · obtain ⟨raw, -, rfl, hexec⟩ := exec_wire_of_live hw hf hl
    exact hexec.trans (examineFrame_unrelated hid)

/-! ### Frames that fail -/

/-- A wire row whose logical frame raises an error ends the receive as `raise` does (R210, R212). -/
theorem exec_wire_fails {s : State} {i : Instr} {f : LogicalFrame} {e : ErrorCode} (hw : i.wf = true)
    (hf : i.asFrame = some (s.rx.mode, s.params.rxId, f)) (hl : s.rx.live = true)
    (h : acceptFrame f s = .next (raise .receiver e s)) : ∃ t, exec i s = .next t ∧ ReceiverFailed e s t :=
  ⟨_, (exec_wire_related hw hf hl).trans h, raise_receiver e s⟩

theorem Receiver.live_of_awaitingMore {r : Receiver} (h : r.state = .awaitingMore) : r.live = true :=
  Receiver.live_iff.2 (.inr h)

theorem acceptStart_outOfPattern {s : State} (h : s.rx.state ≠ .awaitingStart) (total : Word) (data : List Byte) :
    acceptStart total data s = outOfPattern s := if_pos h

theorem acceptConsecutive_outOfPattern {s : State} (h : s.rx.state ≠ .awaitingMore) (sequence : Byte)
    (data : List Byte) : acceptConsecutive sequence data s = outOfPattern s := if_pos h

theorem acceptEnd_outOfPattern {s : State} (h : s.rx.state ≠ .awaitingMore) (data : List Byte) :
    acceptEnd data s = outOfPattern s := if_pos h

/-- R172: the sequence is tested before the bounds. -/
theorem acceptConsecutive_outOfSequence {s : State} {sequence : Byte} (hst : s.rx.state = .awaitingMore)
    (hseq : sequence ≠ s.rx.expectedSequence) (data : List Byte) :
    acceptConsecutive sequence data s = .next (raise .receiver .sequenceMismatch s) := by
  simp [acceptConsecutive, hst, hseq]

/-- R170: a frame in sequence passes neither the capacity nor the total. -/
theorem acceptConsecutive_overflow {s : State} {data : List Byte} (hst : s.rx.state = .awaitingMore)
    (hover : s.rx.capacity.toNat < s.rx.receivedLength.toNat + data.length ∨
      s.rx.totalLength.toNat < s.rx.receivedLength.toNat + data.length) :
    acceptConsecutive s.rx.expectedSequence data s = .next (raise .receiver .bufferOverflow s) := by
  simp [acceptConsecutive, hst, hover]

/-- What the invariant says of a receiver in AwaitingMore: the buffer exists, and what was received lies within the total,
the total within the capacity (R24, R25). -/
theorem Receiver.Ok.awaitingMore_bounds {r : Receiver} (hok : r.Ok) (hst : r.state = .awaitingMore) :
    r.receivedLength.toNat ≤ r.totalLength.toNat ∧ r.totalLength.toNat ≤ r.capacity.toNat ∧
      r.base.toNat + r.capacity.toNat ≤ offsetSpace := by
  obtain ⟨-, hmore, hspace, -, -⟩ := hok
  obtain ⟨-, htotal, hreceived⟩ := hmore hst
  exact ⟨hreceived, htotal, hspace (Receiver.live_of_awaitingMore hst)⟩

/-- Conflict C7: the overflow test of an END frame cannot fire where the registers are in order. -/
theorem Receiver.Ok.bytesLeft_within_capacity {r : Receiver} (hok : r.Ok) (hst : r.state = .awaitingMore) :
    ¬ r.capacity.toNat < r.receivedLength.toNat + r.bytesLeft := by
  have hb := hok.awaitingMore_bounds hst
  simp only [Receiver.bytesLeft]
  omega

/-- R174: an END frame with too few bytes. -/
theorem acceptEnd_short {s : State} {data : List Byte} (hok : s.rx.Ok) (hst : s.rx.state = .awaitingMore)
    (hshort : data.length < s.rx.bytesLeft) :
    acceptEnd data s = .next (raise .receiver .protocolViolation s) := by
  simp only [acceptEnd, if_neg (not_not_intro hst), if_neg (hok.bytesLeft_within_capacity hst), if_pos hshort]

/-- Settles O40: the sequence test comes first in AwaitingMore. -/
theorem outOfSequenceFrameFails : Obligations.OutOfSequenceFrameFails :=
  fun _ _ _ data hw hf hst hseq =>
    exec_wire_fails hw hf (Receiver.live_of_awaitingMore hst) (acceptConsecutive_outOfSequence hst hseq data)

/-- Settles O41: in sequence, either bound passed raises BufferOverflow. -/
theorem overflowingFrameFails : Obligations.OverflowingFrameFails :=
  fun _ _ _ hw hf hst hover =>
    exec_wire_fails hw hf (Receiver.live_of_awaitingMore hst) (acceptConsecutive_overflow hst hover)

/-- Settles O43: under the invariant the overflow test of the END row passes, so the short frame raises ProtocolViolation. -/
theorem shortEndFrameFails : Obligations.ShortEndFrameFails := by
  rintro s i data ⟨hok, -⟩ hw hf hst hshort
  exact exec_wire_fails hw hf (Receiver.live_of_awaitingMore hst) (acceptEnd_short hok hst hshort)

/-- R175, R176: each kind of frame is accepted in one live state only. -/
theorem acceptFrame_outOfPattern {s : State} {f : LogicalFrame}
    (h : s.rx.state = .awaitingStart ∧ ((∃ q d, f = .consecutive q d) ∨ ∃ d, f = .endOf d) ∨
      s.rx.state = .awaitingMore ∧ ∃ n d, f = .start n d) : acceptFrame f s = outOfPattern s := by
  obtain ⟨hst, ⟨q, d, rfl⟩ | ⟨d, rfl⟩⟩ | ⟨hst, n, d, rfl⟩ := h
  · exact acceptConsecutive_outOfPattern (by simp [hst]) q d
  · exact acceptEnd_outOfPattern (by simp [hst]) d
  · exact acceptStart_outOfPattern (by simp [hst]) n d

/-- Settles O44: a frame outside the pattern of its live state raises ProtocolViolation before anything else is tested. -/
theorem outOfPatternFrameFails : Obligations.OutOfPatternFrameFails :=
  fun _ _ _ hw hf h =>
    exec_wire_fails hw hf (Receiver.live_iff.2 (h.imp And.left And.left)) (acceptFrame_outOfPattern h)

/-! ### Frames that are stored -/

theorem memWriteDst_rx {s u : State} {off : Nat} {v : List Byte} (h : memWriteDst s off v = some u) : u.rx = s.rx := by
  rw [memWriteDst_frame h, State.setDst_rx]

theorem memWriteDst_free {s u : State} {off : Nat} {v : List Byte} (h : memWriteDst s off v = some u) :
    u.free = s.free := by
  rw [memWriteDst_frame h, State.setDst_free]

/-- Bytes within the total are stored at the running offset, since the whole buffer exists (R38, R53). -/
theorem memWriteDst_within_total {s : State} {v : List Byte} (hok : s.rx.Ok) (hst : s.rx.state = .awaitingMore)
    (hv : s.rx.receivedLength.toNat + v.length ≤ s.rx.totalLength.toNat) :
    ∃ u, memWriteDst s s.rx.address v = some u := by
  have hb := hok.awaitingMore_bounds hst
  refine memWriteDst_isSome ?_
  simp only [Receiver.address]
  omega

/-- R171: the store, and the two counters after it. -/
theorem acceptConsecutive_stored {s u : State} {data : List Byte} (hok : s.rx.Ok) (hst : s.rx.state = .awaitingMore)
    (hfit : s.rx.receivedLength.toNat + data.length ≤ s.rx.totalLength.toNat)
    (hu : memWriteDst s s.rx.address data = some u) :
    acceptConsecutive s.rx.expectedSequence data s = .next (pending (u.setRx { s.rx with
      receivedLength := word (s.rx.receivedLength.toNat + data.length),
      expectedSequence := s.rx.expectedSequence + 1 })) := by
  have hb := hok.awaitingMore_bounds hst
  have hover : ¬ (s.rx.capacity.toNat < s.rx.receivedLength.toNat + data.length ∨
      s.rx.totalLength.toNat < s.rx.receivedLength.toNat + data.length) := by omega
  simp only [acceptConsecutive, if_neg (not_not_intro hst), if_neg (not_not_intro rfl), if_neg hover, hu,
    memWriteDst_rx hu]

/-- R173: the store of the bytes the transfer lacks, then success. -/
theorem acceptEnd_stored {s u : State} {data : List Byte} (hok : s.rx.Ok) (hst : s.rx.state = .awaitingMore)
    (hlen : s.rx.bytesLeft ≤ data.length) (hu : memWriteDst s s.rx.address (data.take s.rx.bytesLeft) = some u) :
    acceptEnd data s =
      .next (succeed s.rx.totalLength (u.setRx { s.rx with receivedLength := s.rx.totalLength })) := by
  simp only [acceptEnd, if_neg (not_not_intro hst), if_neg (hok.bytesLeft_within_capacity hst),
    if_neg (Nat.not_lt.2 hlen), hu, memWriteDst_rx hu]

/-- What has been stored is what a later state reads, as long as it reads DST the same. -/
theorem DstStored.of_readDst_eq {s u t : State} {off : Nat} {v : List Byte} (h : DstStored s u off v)
    (heq : ∀ a, t.readDst a = u.readDst a) : DstStored s t off v :=
  ⟨fun k hk => (heq _).trans (h.1 k hk), fun a ha => (heq a).trans (h.2 a ha)⟩

/-- Success writes no byte of DST and makes none undefined. -/
theorem succeed_readDst (n : Word) (s : State) (a : Nat) : (succeed n s).readDst a = s.readDst a := by
  rw [succeed_frame]
  rfl

theorem byte_add_one_eq_ofNat (b : Byte) : b + 1 = BitVec.ofNat 8 ((b.toNat + 1) % 256) := by
  apply BitVec.eq_of_toNat_eq
  simp [BitVec.toNat_add]

/-- Settles O39: the data lies within the total, so the store succeeds, and the step is the store and the two counters. -/
theorem consecutiveFrameIsStored : Obligations.ConsecutiveFrameIsStored := by
  rintro s i data ⟨hok, -, -, hdst, -, -⟩ hw hf hst hfit
  obtain ⟨u, hu⟩ := memWriteDst_within_total hok hst hfit
  have haccept := acceptConsecutive_stored hok hst hfit hu
  obtain ⟨honly, hlink⟩ := acceptFrame_frame (f := .consecutive s.rx.expectedSequence data) haccept
  refine ⟨_, (exec_wire_related hw hf (Receiver.live_of_awaitingMore hst)).trans haccept, honly, hlink, ?_, ?_, rfl, ?_⟩
  · exact (memWriteDst_stored hu hdst.1).of_readDst_eq fun _ => rfl
  · rw [← byte_add_one_eq_ofNat]
    rfl
  · exact (memWriteDst_free hu :)

/-- Settles O42: the lacking bytes lie within the total, so the store succeeds, and RECEIVE succeeds with the total. -/
theorem endFrameCompletesTheTransfer : Obligations.EndFrameCompletesTheTransfer := by
  rintro s i data ⟨hok, -, -, hdst, -, -⟩ hw hf hst hlen
  have hb := hok.awaitingMore_bounds hst
  obtain ⟨u, hu⟩ := memWriteDst_within_total (v := data.take s.rx.bytesLeft) hok hst
    (by simp only [List.length_take, Receiver.bytesLeft]; omega)
  have haccept := acceptEnd_stored hok hst hlen hu
  obtain ⟨honly, hlink⟩ := acceptFrame_frame (f := .endOf data) haccept
  refine ⟨_, (exec_wire_related hw hf (Receiver.live_of_awaitingMore hst)).trans haccept, honly, hlink, ?_, fun hop => ?_⟩
  · exact (memWriteDst_stored hu hdst.1).of_readDst_eq (succeed_readDst _ _)
  · rw [succeed_receive]
    · exact ⟨rfl, rfl, (memWriteDst_free hu :)⟩
    · exact hop

end Sys2Proof.Machine
end

section
/-! Exceptions and the adapter (R200 to R214, R221): the codes are read back, a receiver step that fails has raised an error
and done nothing else, and the loopback adapter is a queue. -/

namespace Sys2Proof.Machine

/-! ### The error codes -/

/-- The error a code stands for (R200): the left inverse of `errorByte`; what is no code reads as no error. -/
def errorOfByte (b : Byte) : ErrorCode :=
  match b.toNat with
  | 1 => .bufferTooSmall
  | 2 => .bufferOverflow
  | 3 => .sequenceMismatch
  | 4 => .unknownFrameKind
  | 5 => .linkTransmitFailure
  | 6 => .protocolViolation
  | _ => .noError

theorem errorOfByte_errorByte (e : ErrorCode) : errorOfByte (errorByte e) = e := by cases e <;> rfl

theorem errorByte_injective : Function.Injective errorByte :=
  Function.LeftInverse.injective errorOfByte_errorByte

/-- Settles O3: the codes are those of `errorByte`, and a code can be read back, so two errors never share one. -/
theorem errorCodesDiffer : Obligations.ErrorCodesDiffer :=
  ⟨rfl, rfl, rfl, rfl, rfl, rfl, rfl, fun _ _ h => errorByte_injective h⟩

/-! ### A START frame beyond the capacity -/

/-- R57, R211: BufferTooSmall is the error that leaves the caller's buffer defined. -/
theorem raise_receiver_bufferTooSmall (s : State) :
    raise .receiver .bufferTooSmall s =
      { s with rx := { s.rx with state := .failed, error := .bufferTooSmall }, poll := some (.failed .bufferTooSmall) } :=
  rfl

/-- R167: the capacity is tested before the store. -/
theorem acceptStart_tooLong {s : State} {total : Word} (hst : s.rx.state = .awaitingStart)
    (hlong : s.rx.capacity.toNat < total.toNat) (data : List Byte) :
    acceptStart total data s = .next (raise .receiver .bufferTooSmall s) := by
  simp only [acceptStart, if_neg (not_not_intro hst), if_pos hlong]

theorem Receiver.live_of_awaitingStart {r : Receiver} (h : r.state = .awaitingStart) : r.live = true :=
  Receiver.live_iff.2 (.inl h)

/-- Settles O37: the row is accepted as its START frame, which the capacity test fails. -/
theorem tooLongStartFailsBeforeAnyCopy : Obligations.TooLongStartFailsBeforeAnyCopy := by
  intro s i total data hw hf hst hlong
  calc exec i s
      = acceptStart total data s := exec_wire_related hw hf (Receiver.live_of_awaitingStart hst)
    _ = .next (raise .receiver .bufferTooSmall s) := acceptStart_tooLong hst hlong data
    _ = _ := by rw [raise_receiver_bufferTooSmall]

/-! ### A receiver step that fails -/

theorem Receiver.state_ne_failed_of_live {r : Receiver} (h : r.live = true) : r.state ≠ .failed := by
  obtain hst | hst := Receiver.live_iff.1 h <;> simp [hst]

/-- Success leaves the receiver done or, between the transfers of RECEIVE_BYTES, waiting for the next START frame. -/
theorem succeed_state_ne_failed (n : Word) (s : State) : (succeed n s).rx.state ≠ .failed := by
  cases hop : s.rx.op with
  | receive => simp [succeed_receive hop]
  | receiveBytes =>
    rw [succeed_receiveBytes hop]
    split <;> simp [beginReceive]

/-- R212: of all an accepted frame can do, raising an error alone fails, and it is all the step has done. -/
theorem acceptFrame_failed {f : LogicalFrame} {s t : State} (hl : s.rx.live = true) (h : acceptFrame f s = .next t)
    (hfail : t.rx.state = .failed) : ∃ e, ReceiverFailed e s t := by
  obtain rfl | ⟨e, rfl⟩ | ⟨_, _, u, rx, _, _, _, ⟨rfl, hmore⟩ | ⟨n, rfl⟩⟩ := acceptFrame_next h
  · exact absurd hfail (Receiver.state_ne_failed_of_live hl)
  · exact ⟨e, raise_receiver e s⟩
  · exact absurd (hmore.symm.trans hfail) (by simp)
  · exact absurd hfail (succeed_state_ne_failed n _)

/-- R212: a live receiver's step fails on a frame it has polled and accepted; the poll itself takes from the queue only. -/
theorem receiverStep_failed {s t : State} (hl : s.rx.live = true) (h : receiverStep s = .next t)
    (hfail : t.rx.state = .failed) : ∃ e rest, ReceiverFailed e (s.setLink { s.link with queue := rest }) t := by
  have hlive := Receiver.state_ne_failed_of_live hl
  obtain ⟨-, rfl⟩ | ⟨-, -, rfl⟩ | ⟨-, raw, rest, -, h⟩ := receiverStep_next h
  · exact absurd hfail hlive
  · exact absurd hfail hlive
  · obtain rfl | ⟨f, -, -, h⟩ := examineFrame_next h
    · exact absurd hfail hlive
    · obtain ⟨e, he⟩ := acceptFrame_failed (s := s.setLink { s.link with queue := rest }) hl h hfail
      exact ⟨e, rest, he⟩

/-- Settles O46: the failed step is `ReceiverFailed` after its poll, and the poll touches neither the registers nor DST. -/
theorem errorsArePrecise : Obligations.ErrorsArePrecise := by
  intro s t hl h hfail
  obtain ⟨e, rest, hrx, hpoll, hdst, -⟩ := receiverStep_failed hl h hfail
  have herr : t.rx.error = e := by rw [hrx]
  rw [herr]
  exact ⟨hdst, hrx, hpoll⟩

/-! ### The loopback adapter -/

theorem Link.accepts_of_loopback {l : Link} (h : l.adapter = .loopback) : l.accepts = true := by
  simp [Link.accepts, h]

/-- R221: the loopback adapter takes every frame. -/
theorem linkTransmit_loopback {s : State} (ha : s.link.adapter = .loopback) (raw : RawFrame) :
    linkTransmit raw s = (true, s.setLink (s.link.taking raw)) := by
  simp [linkTransmit_eq, Link.accepts_of_loopback ha]

theorem linkPoll_nil {s : State} (hq : s.link.queue = []) : linkPoll s = (none, s) := by
  simp only [linkPoll, hq]

theorem linkPoll_cons {s : State} {raw : RawFrame} {rest : List RawFrame} (hq : s.link.queue = raw :: rest) :
    linkPoll s = (some raw, s.setLink { s.link with queue := rest }) := by
  simp only [linkPoll, hq]

/-- Settles O55: frames enter the queue at its end and leave it at its head. -/
theorem loopbackIsFirstInFirstOut : Obligations.LoopbackIsFirstInFirstOut :=
  ⟨rfl, fun _ raw ha => ⟨⟨_, linkTransmit_loopback ha raw, Link.taking_loopback ha, rfl⟩,
    linkPoll_nil, fun _ _ => linkPoll_cons⟩⟩

end Sys2Proof.Machine
end

section
/-! The two ports (R70 to R94, R110 to R120): a wire row and its frame give each other back, a command and its
operation too, and DECODE and the ENC operations are inverse to each other. -/

namespace Sys2Proof

/-! ### The wire row of a frame -/

/-- The wire row a logical frame is of in a Mode (R94): what `decodeFrame` makes of what the parser answers. -/
def LogicalFrame.row (m : Mode) (raw : RawFrame) : LogicalFrame → Instr
  | .start total data =>
    match m with
    | .classic => .startC raw.id (total.setWidth 8) data
    | .extended => .startX raw.id (total.setWidth 16) data
  | .consecutive sequence data =>
    match m with
    | .classic => .consecutiveC raw.id sequence data
    | .extended => .consecutiveX raw.id sequence data
  | .endOf data =>
    match m with
    | .classic => .endC raw.id data
    | .extended => .endX raw.id data
  | .flowControl command =>
    match m with
    | .classic => .flowcontrolC raw.id command (raw.bytes.drop 2)
    | .extended => .flowcontrolX raw.id command (raw.bytes.drop 2)
  | .error code =>
    match m with
    | .classic => .errorC raw.id code (raw.bytes.drop 2)
    | .extended => .errorX raw.id code (raw.bytes.drop 2)

theorem decodeFrame_of_parseFrame {msb : Bool} {m : Mode} {raw : RawFrame} {f : LogicalFrame}
    (h : parseFrame msb m raw.bytes = .ok f) : decodeFrame msb m raw = .ok (f.row m raw) := by
  unfold decodeFrame
  rw [h]
  cases m <;> cases f <;> rfl

theorem decodeFrame_of_parseFrame_error {msb : Bool} {m : Mode} {raw : RawFrame} {e : ParseError}
    (h : parseFrame msb m raw.bytes = .error e) : decodeFrame msb m raw = .error (.unparseable e) := by
  unfold decodeFrame
  rw [h]

/-- What the link port decodes is the row of what the parser answers. -/
theorem decodeFrame_ok {msb : Bool} {m : Mode} {raw : RawFrame} {i : Instr} (h : decodeFrame msb m raw = .ok i) :
    ∃ f, parseFrame msb m raw.bytes = .ok f ∧ i = f.row m raw := by
  cases hp : parseFrame msb m raw.bytes with
  | error e => rw [decodeFrame_of_parseFrame_error hp] at h; cases h
  | ok f => rw [decodeFrame_of_parseFrame hp] at h; cases h; exact ⟨f, rfl, rfl⟩

/-- Every row but the operations is encoded to a raw frame of its Mode and id. -/
theorem encode_wire {i : Instr} {m : Mode} {id : Word} {f : LogicalFrame} (h : i.asFrame = some (m, id, f))
    (msb : Bool) : ∃ raw, encode msb i = .frame m raw ∧ raw.id = id := by
  cases i <;> simp only [Instr.asFrame, Option.some.injEq, Prod.mk.injEq, reduceCtorEq] at h
  all_goals
    obtain ⟨rfl, rfl, -⟩ := h
    exact ⟨_, rfl, rfl⟩

/-- The row of a wire row's own frame is the wire row, with every operand (R72 to R77). -/
theorem row_of_encode {i : Instr} {m : Mode} {id : Word} {f : LogicalFrame} {msb : Bool} {raw : RawFrame}
    (h : i.asFrame = some (m, id, f)) (he : encode msb i = .frame m raw) : f.row m raw = i := by
  cases i <;> simp only [Instr.asFrame, Option.some.injEq, Prod.mk.injEq, reduceCtorEq] at h
  all_goals
    obtain ⟨rfl, rfl, rfl⟩ := h
    simp only [encode, PortWord.frame.injEq, true_and] at he
    subst he
    simp [LogicalFrame.row, layoutFlowControl, layoutError]

/-- The operations travel as their code and operands (R92). -/
theorem decode_encode_operation {i : Instr} (h : i.asFrame = none) (msb : Bool) :
    decode msb (encode msb i) = .ok i := by
  cases i <;> simp only [Instr.asFrame, reduceCtorEq] at h <;> rfl

/-- The length field keeps the bits of its own width only, so narrowing the total first loses nothing (R72, R73). -/
theorem layoutStart_narrowed_classic (msb : Bool) (total : Word) (data : List Byte) :
    layoutStart msb .classic ((total.setWidth 8).setWidth 32) data = layoutStart msb .classic total data := by
  simp [layoutStart, lenField]

theorem layoutStart_narrowed_extended (msb : Bool) (total : Word) (data : List Byte) :
    layoutStart msb .extended ((total.setWidth 16).setWidth 32) data = layoutStart msb .extended total data := by
  simp [layoutStart, lenField]

/-- Settles O17: the parser answers a layout within its bounds, and the row of each kind is encoded to that layout. -/
theorem encodeDecodeRoundTripOnFrames : Obligations.EncodeDecodeRoundTripOnFrames := by
  rintro msb m ⟨id, bytes⟩ i h
  obtain ⟨f, hp, rfl⟩ := decodeFrame_ok h
  obtain ⟨total, data, rfl, rfl, hd, -⟩ | ⟨sequence, data, rfl, rfl, hd⟩ | ⟨data, rfl, rfl, hd⟩ |
    ⟨c, ignored, rfl, rfl, hd⟩ | ⟨code, ignored, rfl, rfl, hd⟩ := parseFrame_cases hp
  · cases m <;>
      exact ⟨by simp [LogicalFrame.row, encode, layoutStart_narrowed_classic, layoutStart_narrowed_extended],
        decide_eq_true hd⟩
  · cases m <;> exact ⟨rfl, decide_eq_true hd⟩
  · cases m <;> exact ⟨rfl, decide_eq_true hd⟩
  · cases m <;> exact ⟨rfl, decide_eq_true hd⟩
  · cases m <;> exact ⟨rfl, decide_eq_true hd⟩

/-! ### Fields and codes -/

/-- Settles O2: the bits of the field's own width, split into bytes in the order of LEN_MSB_FIRST. -/
theorem lengthFieldByteOrder : Obligations.LengthFieldByteOrder := by
  intro v
  have hbyte : v.setWidth 8 = v.extractLsb' 0 8 := BitVec.setWidth_eq_extractLsb' (by decide)
  have hlow : (v.setWidth 16).extractLsb' 0 8 = v.extractLsb' 0 8 := BitVec.extractLsb'_setWidth_of_le (by decide)
  have hhigh : (v.setWidth 16).extractLsb' 8 8 = v.extractLsb' 8 8 := BitVec.extractLsb'_setWidth_of_le (by decide)
  refine ⟨fun msb => ?_, ?_, ?_⟩
  · simp only [lenField, hbyte]
  · simp only [lenField, if_true, be16, hlow, hhigh]
  · simp only [lenField, Bool.false_eq_true, if_false, le16, hlow, hhigh]

/-- Settles O15: each word is read by running the decoder. -/
theorem specWordsDecode : Obligations.SpecWordsDecode := by
  refine ⟨?_, ?_, ?_, ?_, ?_, ?_, ?_⟩ <;> rfl

/-- R92: a code from 0x0B on names no operation. -/
theorem decodeCommand_unknown {c : Command} (h : 0x0B ≤ c.code.toNat) :
    decodeCommand c = .error (.unknownCommand c.code) := by
  unfold decodeCommand
  split
  case h_12 => rfl
  all_goals omega

end Sys2Proof

namespace Sys2Proof.Machine

/-- Settles O16: an operation is its command; a wire row's frame parses as its logical frame, whose row is that row.
-/
theorem decodeEncodeRoundTrip : Obligations.DecodeEncodeRoundTrip := by
  intro msb i hw
  cases hf : i.asFrame with
  | none => exact decode_encode_operation hf msb
  | some p =>
    obtain ⟨m, id, f⟩ := p
    obtain ⟨raw, henc, -⟩ := encode_wire hf msb
    rw [henc, ← row_of_encode hf henc]
    exact decodeFrame_of_parseFrame (parseFrame_wire hw hf henc)

/-- On the caller's turn a command that names an operation is taken off the port and executed (R92). -/
theorem step_caller {s : State} {c : Command} {rest : List Command} {i : Instr} (hn : s.nextTurn = .caller)
    (hc : s.commands = c :: rest) (hi : decodeCommand c = .ok i) :
    step s = exec i { s with commands := rest, turns := s.turns.tail } := by
  simp only [step, hn, callerStep, fetchCommand, State.setTurns_commands, hc, decode, hi]
  rfl

theorem step_caller_unknown {s : State} {c : Command} {rest : List Command} {e : DecodeReject}
    (hn : s.nextTurn = .caller) (hc : s.commands = c :: rest) (hi : decodeCommand c = .error e) :
    step s = .refused (.unknownCommand c.code) := by
  simp only [step, hn, callerStep, fetchCommand, State.setTurns_commands, hc, decode, hi]

/-- Settles O18: the codes one by one; on the caller's turn a code without an operation is refused by name. -/
theorem commandCodesAreTheSpecs : Obligations.CommandCodesAreTheSpecs := by
  refine ⟨fun o => ⟨rfl, rfl, rfl, rfl, rfl, rfl, rfl, rfl, rfl, rfl, rfl⟩, fun s c rest hn hc hcode => ?_⟩
  exact step_caller_unknown hn hc (decodeCommand_unknown hcode)

/-- Settles O19: the law of the caller's turn. -/
theorem stepRunsTheDecodedInstruction : Obligations.StepRunsTheDecodedInstruction :=
  fun _ _ _ _ hn hc hi => step_caller hn hc hi

/-! ### DECODE and the ENC operations -/

/-- Settles O12: a list an 8-bit `length` can count is taken, and the parser answers a frame or its one error. -/
theorem decodeIsTotal : Obligations.DecodeIsTotal := by
  refine fun s m raw => ⟨fun hl => ?_, fun hl => ?_⟩
  · have hw : raw.wf = true := decide_eq_true hl
    refine ⟨RawFrame.length_toNat hw, ?_⟩
    cases hp : parseFrame s.params.lenMsbFirst m raw.bytes with
    | ok f => exact .inl ⟨f, exec_decode_ok hp⟩
    | error e => exact .inr (exec_decode_error hw hp)
  · exact execDecode_too_long (decide_eq_false (Nat.not_le.2 hl)) s

/-- Everything an ENC operation can do if it answers a next state: it returns a frame with the id that parses as the
logical frame (R119). -/
theorem exec_enc_next {s t : State} {m : Mode} {id : Word} {f : LogicalFrame} (h : exec (f.enc m id) s = .next t) :
    ∃ raw, t = s.setCodec (.raw raw) ∧ raw.id = id ∧ parseFrame s.params.lenMsbFirst m raw.bytes = .ok f := by
  have hlink : 2 ≤ m.linkCapacity := by cases m <;> decide
  cases f with
  | start total data =>
    obtain ⟨raw, hraw, rfl⟩ := returnFrame_next h
    obtain ⟨rfl, hd, ht⟩ := startFrame_some hraw
    exact ⟨_, rfl, rfl, parseFrame_start hd ht⟩
  | consecutive sequence data =>
    obtain ⟨raw, hraw, rfl⟩ := returnFrame_next h
    obtain ⟨rfl, hd⟩ := consecutiveFrame_some hraw
    exact ⟨_, rfl, rfl, parseFrame_consecutive hd⟩
  | endOf data =>
    obtain ⟨raw, hraw, rfl⟩ := returnFrame_next h
    obtain ⟨rfl, hd⟩ := endFrame_some hraw
    exact ⟨_, rfl, rfl, parseFrame_end hd⟩
  | flowControl c =>
    cases h
    exact ⟨_, rfl, rfl, parseFrame_flowControl (ignored := []) hlink⟩
  | error code =>
    cases h
    exact ⟨_, rfl, rfl, parseFrame_error (ignored := []) hlink⟩

/-- Settles O13: the frame returned parses as the logical frame given. -/
theorem decodeAfterEncodeIsIdentity : Obligations.DecodeAfterEncodeIsIdentity := by
  intro s t m id f h
  obtain ⟨raw, rfl, hid, hp⟩ := exec_enc_next h
  exact ⟨raw, rfl, hid, exec_decode_ok hp⟩

/-- Settles O14: what parses is a layout within the encoder's contract, so the ENC operation writes the same layout;
the bytes after the second of a FLOWCONTROL or ERROR frame are lost. -/
theorem encodeAfterDecodeIsIdentity : Obligations.EncodeAfterDecodeIsIdentity := by
  rintro s m ⟨id, bytes⟩ f h
  obtain ⟨total, data, rfl, rfl, hd, ht⟩ | ⟨sequence, data, rfl, rfl, hd⟩ | ⟨data, rfl, rfl, hd⟩ |
    ⟨c, ignored, rfl, rfl, -⟩ | ⟨code, ignored, rfl, rfl, -⟩ := parseFrame_cases (execDecode_logical h rfl)
  · exact ⟨_, returnFrame_eq_some (startFrame_of_contract hd ht), rfl, by simp, fun _ => rfl⟩
  · exact ⟨_, returnFrame_eq_some (consecutiveFrame_of_contract hd), rfl, by simp, fun _ => rfl⟩
  · exact ⟨_, returnFrame_eq_some (endFrame_of_contract hd), rfl, by simp, fun _ => rfl⟩
  · exact ⟨_, exec_encFc s m id c, rfl, fun _ => rfl, fun hne => absurd rfl (hne.1 c)⟩
  · exact ⟨_, exec_encErr s m id code, rfl, fun _ => rfl, fun hne => absurd rfl (hne.2 code)⟩

end Sys2Proof.Machine
end

section
/-! Everything one instruction can do: the issues of the four long operations (R130, R140, R161, R184), the poll, the
wire rows and the codec. -/

namespace Sys2Proof.Machine

/-! ### Issuing an operation to a free engine -/

theorem exec_sendTransfer_of_fits {s : State} {len : Word} {mode : Mode} (hb : s.tx.busy = false)
    (hl : len.toNat ≤ mode.maxTransfer) (id : Word) :
    exec (.sendTransfer id len mode) s =
      .next (s.setTx (beginTransfer 0 len.toNat { s.tx with id := id, mode := mode, op := .sendTransfer })) := by
  simp [exec, execSendTransfer, hb, Nat.not_lt.2 hl]

theorem exec_receive_of_not_live {s : State} (hl : s.rx.live = false) (capacity : Word) (mode : Mode) :
    exec (.receive capacity mode) s =
      .next (beginReceive 0 capacity.toNat mode (s.setRx { s.rx with op := .receive })) := by
  simp [exec, execReceive, hl]

theorem exec_receiveBytes_of_not_live {s : State} (hl : s.rx.live = false) (length : Word) (mode : Mode) :
    exec (.receiveBytes length mode) s =
      .next (beginReceive 0 length.toNat mode
        (s.setRx { s.rx with op := .receiveBytes, rbLength := length, rbAccumulated := 0 })) := by
  simp [exec, execReceiveBytes, hl]

/-- Settles O25: the registers of a fresh transfer of the whole length. -/
theorem sendTransferIsIssued : Obligations.SendTransferIsIssued := by
  intro s id len mode hb hl
  rw [exec_sendTransfer_of_fits hb hl]
  simp only [beginTransfer, word_of_toNat]
  rfl

theorem nextSlice_zero (mode : Mode) (len : Nat) : nextSlice mode len 0 = min len mode.maxTransfer := rfl

/-- Settles O26: the registers of a fresh transfer of the first slice. -/
theorem sendIsIssued : Obligations.SendIsIssued := by
  intro s id len mode hb
  refine ⟨_, exec_send_of_not_busy hb id len mode, rfl, ?_⟩
  have hslice : min len.toNat mode.maxTransfer < offsetSpace := (min_le_left _ _).trans_lt (toNat_lt_space len)
  simp only [State.setTx_tx, beginTransfer, nextSlice_zero, word_toNat hslice]

/-- Settles O33: the start of a receive at base 0 writes the operands and the three free values. -/
theorem receiveIsIssued : Obligations.ReceiveIsIssued := by
  intro s capacity mode hl
  refine ⟨_, exec_receive_of_not_live hl capacity mode, rfl, ?_⟩
  simp only [beginReceive, State.setFree_rx, State.setRx_rx, word_of_toNat]
  rfl

/-- Settles O34: the same with the message's length as the room of the first inner receive. -/
theorem receiveBytesIsIssued : Obligations.ReceiveBytesIsIssued := by
  intro s length mode hl
  refine ⟨_, exec_receiveBytes_of_not_live hl length mode, rfl, ?_⟩
  simp only [beginReceive, State.setFree_rx, State.setRx_rx, word_of_toNat]
  rfl

/-- A send starts in order, SEND with a slice within the message (R130, R140). -/
theorem sendTransfer_issued_ok {t : Sender} {len : Word} (hop : t.op = .sendTransfer)
    (hl : len.toNat ≤ t.mode.maxTransfer) : (beginTransfer 0 len.toNat t).Ok :=
  beginTransfer_ok hl (by have := toNat_lt_space len; omega) (by decide) (fun _ => rfl) (by simp [hop])

theorem send_issued_ok {t : Sender} (hop : t.op = .send) (hoff : t.msgOff = 0) :
    (beginTransfer 0 (nextSlice t.mode t.msgLen.toNat 0) t).Ok := by
  have hspace := toNat_lt_space t.msgLen
  obtain ⟨hmax, hlen⟩ := nextSlice_le t.mode t.msgLen.toNat 0
  exact beginTransfer_ok hmax (by omega) (by decide) (by simp [hop]) fun _ => ⟨hoff, rfl, by omega⟩

/-! ### One instruction -/

/-- POLL_ONCE, where it is not refused, is the receiver's step. -/
theorem execPollOnce_next {mode : Mode} {s t : State} (h : execPollOnce mode s = .next t) :
    receiverStep s = .next t := by
  unfold execPollOnce at h
  split at h
  · cases h
  · rename_i hl
    split at h
    · cases h
    · rwa [receiverStep, if_pos (by simpa using hl)]

/-- Everything an instruction can do if it answers a next state: return a value of the codec, step the receiver with
or without a frame put in front of the link's queue, or issue an operation to a free engine. -/
theorem exec_cases {i : Instr} {s t : State} (h : exec i s = .next t) :
    (∃ r, t = s.setCodec r ∧ ∀ raw, r = .raw raw → raw.wf = true) ∨
    (∃ raw, raw.wf = true ∧ receiverStep (s.setLink { s.link with queue := raw :: s.link.queue }) = .next t) ∨
    receiverStep s = .next t ∨
    (∃ id len mode, (i = .sendTransfer id len mode ∨ i = .send id len mode) ∧ s.tx.busy = false ∧
      t = s.setTx t.tx ∧ t.tx.Ok) ∨
    (∃ len mode, (i = .receive len mode ∨ i = .receiveBytes len mode) ∧ s.rx.live = false ∧
      t = { s with rx := t.rx, free := t.free } ∧ t.rx.Ok) := by
  have encoded : ∀ {m : Mode} {id : Word} {f : LogicalFrame}, exec (f.enc m id) s = .next t →
      ∃ r, t = s.setCodec r ∧ ∀ raw, r = .raw raw → raw.wf = true := by
    intro m id f h
    obtain ⟨raw, ht, -, hp⟩ := exec_enc_next h
    exact ⟨.raw raw, ht, by rintro _ ⟨⟩; exact RawFrame.wf_of_parseFrame hp⟩
  cases hf : i.asFrame with
  | some p =>
    obtain ⟨raw, -, -, hexec⟩ := exec_wire hf s
    exact .inr (.inl ⟨raw, deliver_next (hexec.symm.trans h)⟩)
  | none =>
    cases i
    case encStart mode id total data => exact .inl (encoded (f := .start total data) h)
    case encCons mode id sequence data => exact .inl (encoded (f := .consecutive sequence data) h)
    case encEnd mode id data => exact .inl (encoded (f := .endOf data) h)
    case encFc mode id c => exact .inl (encoded (m := mode) (f := .flowControl c) h)
    case encErr mode id code => exact .inl (encoded (m := mode) (f := .error code) h)
    case decode mode raw =>
      obtain ⟨f, ht⟩ | ⟨e, ht⟩ := execDecode_next h
      · exact .inl ⟨_, ht, by simp⟩
      · exact .inl ⟨_, ht, by simp⟩
    case pollOnce mode => exact .inr (.inr (.inl (execPollOnce_next h)))
    case sendTransfer id len mode =>
      cases hb : s.tx.busy
      case true => rw [exec_sendTransfer_of_busy hb] at h; cases h
      by_cases hl : len.toNat ≤ mode.maxTransfer
      · rw [exec_sendTransfer_of_fits hb hl] at h
        cases h
        exact .inr (.inr (.inr (.inl ⟨id, len, mode, .inl rfl, rfl, rfl, sendTransfer_issued_ok rfl hl⟩)))
      · rw [exec_sendTransfer_of_too_long hb id (Nat.not_le.1 hl)] at h
        cases h
    case send id len mode =>
      cases hb : s.tx.busy
      case true => rw [exec_send_of_busy hb] at h; cases h
      rw [exec_send_of_not_busy hb] at h
      cases h
      exact .inr (.inr (.inr (.inl ⟨id, len, mode, .inr rfl, rfl, rfl, send_issued_ok rfl rfl⟩)))
    case receive len mode =>
      cases hl : s.rx.live
      case true => rw [exec_receive_of_live hl] at h; cases h
      rw [exec_receive_of_not_live hl] at h
      cases h
      refine .inr (.inr (.inr (.inr ⟨len, mode, .inl rfl, rfl, rfl, beginReceive_ok ?_ (fun _ => rfl) (by simp)⟩)))
      simpa using toNat_lt_space len
    case receiveBytes len mode =>
      cases hl : s.rx.live
      case true => rw [exec_receiveBytes_of_live hl] at h; cases h
      rw [exec_receiveBytes_of_not_live hl] at h
      cases h
      refine .inr (.inr (.inr (.inr ⟨len, mode, .inr rfl, rfl, rfl, beginReceive_ok ?_ (by simp) fun _ => ⟨rfl, ?_⟩⟩)))
      · simpa using toNat_lt_space len
      · simp
    all_goals simp [Instr.asFrame] at hf

end Sys2Proof.Machine
end

section
/-! The invariant: it holds at reset, every step keeps it, and in its states no step faults and an engine's turn
always answers a next state. -/

namespace Sys2Proof.Machine

/-! ### What keeps the invariant -/

/-- A store of one byte keeps a byte space in order. -/
theorem Memory.ok_write {m : Memory} (h : Memory.Ok m) (off : Word) (b : Byte) :
    Memory.Ok (Memory.write m off.toNat b) := by
  refine ⟨Memory.wf_write h.1 _ _, fun c hc => ?_⟩
  obtain ⟨rfl, -⟩ | hc := Memory.mem_write hc
  · exact toNat_lt_space off
  · exact h.2 c hc

theorem State.Inv.setTurns {s : State} (h : s.Inv) (turns : List Turn) : (s.setTurns turns).Inv := h

theorem State.Inv.setCommands {s : State} (h : s.Inv) (commands : List Command) : (s.setCommands commands).Inv := h

theorem State.Inv.queue_wf {s : State} (h : s.Inv) : ∀ r ∈ s.link.queue, r.wf = true := by
  obtain ⟨-, -, -, -, -, hqueue, -⟩ := h
  exact hqueue

/-- A queue of raw frames, each of at most 255 bytes, may replace the adapter's. -/
theorem State.Inv.setQueue {s : State} {queue : List RawFrame} (h : s.Inv) (hq : ∀ r ∈ queue, r.wf = true)
    (answer : Bool) : (s.setLink { s.link with queue := queue, answer := answer }).Inv := by
  obtain ⟨hr, ht, hsrc, hdst, hu, -, hsent, hcodec⟩ := h
  exact ⟨hr, ht, hsrc, hdst, hu, hq, hsent, hcodec⟩

theorem State.Inv.setCodec {s : State} {r : CodecResult} (h : s.Inv) (hw : ∀ raw, r = .raw raw → raw.wf = true) :
    (s.setCodec r).Inv := by
  obtain ⟨hr, ht, hsrc, hdst, hu, hqueue, hsent, -⟩ := h
  exact ⟨hr, ht, hsrc, hdst, hu, hqueue, hsent, fun raw hraw => hw raw (Option.some.inj hraw)⟩

theorem senderStep_inv {s t : State} (h : s.Inv) (hstep : senderStep s = .next t) : t.Inv := by
  obtain ⟨hr, ht, hsrc, hdst, hu, hf⟩ := h
  have hf' := senderStep_framesOk hstep hf
  have ht' := senderStep_ok ht hstep
  rw [senderStep_frame hstep] at hf' ⊢
  exact ⟨hr, ht', hsrc, hdst, hu, hf'⟩

theorem receiverStep_inv {s t : State} (h : s.Inv) (hstep : receiverStep s = .next t) : t.Inv := by
  obtain ⟨hr, ht, hsrc, hdst, hu, hf⟩ := h
  obtain ⟨hr', hdst', hu'⟩ := receiverStep_ok hstep hr hdst hu
  obtain ⟨htx, -, hsrceq, -⟩ := receiverStep_frame hstep
  exact ⟨hr', htx ▸ ht, hsrceq ▸ hsrc, hdst', hu', receiverStep_framesOk hstep hf⟩

theorem exec_inv {i : Instr} {s t : State} (h : s.Inv) (hexec : exec i s = .next t) : t.Inv := by
  obtain ⟨r, rfl, hw⟩ | ⟨raw, hw, hstep⟩ | hstep | ⟨_, _, _, -, -, ht, hok⟩ | ⟨_, _, -, -, ht, hok⟩ := exec_cases hexec
  · exact h.setCodec hw
  · exact receiverStep_inv (h.setQueue (List.forall_mem_cons.2 ⟨hw, h.queue_wf⟩) s.link.answer) hstep
  · exact receiverStep_inv h hstep
  · obtain ⟨hr, -, hrest⟩ := h
    rw [ht]
    exact ⟨hr, hok, hrest⟩
  · obtain ⟨-, hrest⟩ := h
    rw [ht]
    exact ⟨hok, hrest⟩

theorem abandon_inv {s : State} (h : s.Inv) (e : Engine) : (abandon e s).Inv := by
  obtain ⟨hr, ht, hsrc, hdst, hu, hf⟩ := h
  obtain ⟨hr', ht', hu'⟩ := abandon_ok e hr ht hu
  rw [abandon_frame]
  exact ⟨hr', ht', hsrc, hdst, hu', hf⟩

theorem resetEvent_inv {s : State} (h : s.Inv) : (resetEvent s).Inv := by
  obtain ⟨hr, ht, hsrc, hdst, hu, hqueue, hsent, -⟩ := h
  have hu' := resetEvent_nonempty hr ht hu
  rw [resetEvent_frame] at hu' ⊢
  exact ⟨.of_not_live rfl, .of_not_busy rfl, hsrc, hdst, hu', hqueue, hsent, by simp⟩

/-- Settles O57: of everything a step can do, each kind keeps the invariant by its own lemma. -/
theorem everyStepKeepsTheInvariant : Obligations.EveryStepKeepsTheInvariant := by
  intro s t h hstep
  have h' := h.setTurns s.turns.tail
  obtain ⟨hr, ht, hsrc, hdst, hu, hf⟩ := h
  obtain ⟨-, ⟨-, rfl⟩ | ⟨c, rest, i, -, -, hexec⟩⟩ | ⟨-, hstep⟩ | ⟨-, hstep⟩ | ⟨-, rfl⟩ | ⟨e, -, rfl⟩ |
    ⟨q, a, -, hq, rfl⟩ | ⟨off, b, -, -, rfl⟩ | ⟨off, b, -, -, rfl⟩ | ⟨off, -, -, rfl⟩ := step_cases hstep
  · exact h'
  · exact exec_inv (h'.setCommands rest) hexec
  · exact senderStep_inv h' hstep
  · exact receiverStep_inv h' hstep
  · exact resetEvent_inv h'
  · exact abandon_inv h' e
  · exact h'.setQueue hq a
  · exact ⟨hr, ht, Memory.ok_write hsrc off b, hdst, hu, hf⟩
  · exact ⟨hr, ht, hsrc, Memory.ok_write hdst off b, fun _ => Region.minusAll_nonempty, hf⟩
  · exact h'

/-! ### Reset -/

/-- Settles O48: the values of `State.reset`. -/
theorem resetValuesAreTheSpecs : Obligations.ResetValuesAreTheSpecs := ⟨rfl, rfl, rfl⟩

/-- Settles O56: both engines are free, and nothing is listed in the buffers, the adapter or the codec's port. -/
theorem invariantHoldsAtReset : Obligations.InvariantHoldsAtReset := by
  have hempty : Memory.Ok [] := by simp [Memory.Ok, Memory.wf]
  have hframes : State.reset.FramesOk := by simp [State.FramesOk, State.reset]
  exact ⟨.of_not_live rfl, .of_not_busy rfl, hempty, hempty, by simp [State.reset], hframes⟩

/-! ### Every engine's turn completes -/

theorem deliver_ne_fault {s : State} (hok : s.rx.Ok) (raw : RawFrame) (r : Fault) : deliver raw s ≠ .fault r := by
  cases hw : raw.wf
  · simp [deliver_of_not_wf hw]
  · obtain ⟨t, ht⟩ := receiverStep_completes (s := s.setLink { s.link with queue := raw :: s.link.queue }) hok
    simp [deliver_of_wf hw, ht]

theorem execPollOnce_ne_fault {s : State} (hok : s.rx.Ok) (mode : Mode) (r : Fault) :
    execPollOnce mode s ≠ .fault r := by
  unfold execPollOnce
  split
  · simp
  · rename_i hl
    obtain ⟨t, ht⟩ := receiverStep_completes hok
    rw [receiverStep, if_pos (by simpa using hl)] at ht
    split <;> simp [ht]

theorem returnFrame_ne_fault (raw : Option RawFrame) (s : State) (r : Fault) : returnFrame raw s ≠ .fault r := by
  cases raw <;> simp [returnFrame]

theorem execDecode_ne_fault (m : Mode) (raw : RawFrame) (s : State) (r : Fault) : execDecode m raw s ≠ .fault r := by
  cases hw : raw.wf
  · simp [execDecode_too_long hw]
  · cases hp : parseFrame s.params.lenMsbFirst m raw.bytes with
    | ok f => simp [execDecode_ok hp]
    | error e => simp [execDecode_error hw hp]

/-- Where the receiver's registers are in order no instruction faults. -/
theorem exec_ne_fault {s : State} (hok : s.rx.Ok) (i : Instr) (r : Fault) : exec i s ≠ .fault r := by
  cases hf : i.asFrame with
  | some p =>
    obtain ⟨raw, -, -, hexec⟩ := exec_wire hf s
    exact hexec ▸ deliver_ne_fault hok raw r
  | none =>
    cases i
    case decode mode raw => exact execDecode_ne_fault mode raw s r
    case pollOnce mode => exact execPollOnce_ne_fault hok mode r
    case sendTransfer id len mode =>
      simp only [exec, execSendTransfer]
      split
      · simp
      · split <;> simp
    case send id len mode => simp only [exec, execSend]; split <;> simp
    case receive len mode => simp only [exec, execReceive]; split <;> simp
    case receiveBytes len mode => simp only [exec, execReceiveBytes]; split <;> simp
    case encStart mode id total data => exact returnFrame_ne_fault _ s r
    case encCons mode id sequence data => exact returnFrame_ne_fault _ s r
    case encEnd mode id data => exact returnFrame_ne_fault _ s r
    case encFc mode id c => simp [exec_encFc]
    case encErr mode id code => simp [exec_encErr]
    all_goals simp [Instr.asFrame] at hf

theorem callerStep_ne_fault {s : State} (hok : s.rx.Ok) (r : Fault) : callerStep s ≠ .fault r := by
  unfold callerStep fetchCommand
  cases s.commands with
  | nil => simp
  | cons c rest =>
    simp only
    split
    · exact exec_ne_fault (s := s.setCommands rest) hok _ r
    · simp

/-- Settles O58: the engines' steps complete where the registers are in order, and nothing else can fault. -/
theorem enginesNeverGetStuck : Obligations.EnginesNeverGetStuck := by
  rintro s ⟨hr, ht, -⟩
  obtain ⟨a, hsender⟩ := senderStep_completes (s := s.setTurns s.turns.tail) ht
  obtain ⟨b, hreceiver⟩ := receiverStep_completes (s := s.setTurns s.turns.tail) hr
  refine ⟨fun r => ?_, ?_⟩
  · cases hn : s.nextTurn <;> simp only [step, hn]
    case caller => exact callerStep_ne_fault (s := s.setTurns s.turns.tail) hr r
    case sender => simp [hsender]
    case receiver => simp [hreceiver]
    case link q a => unfold linkEvent; split <;> simp
    case writeSrc off b => unfold writeSrcEvent; split <;> simp
    case writeDst off b => unfold writeDstEvent; split <;> simp
    case readDst off => unfold readDstEvent; split <;> simp
    all_goals simp
  · rintro (hn | hn)
    · exact ⟨a, by simp only [step, hn, hsender]⟩
    · exact ⟨b, by simp only [step, hn, hreceiver]⟩

end Sys2Proof.Machine
end

section
/-! Polls and wire rows: a polled frame is the wire row it decodes to, and every poll completes in its Mode. -/

namespace Sys2Proof.Machine

/-- What is encoded to a raw frame is a wire row of its Mode and id. -/
theorem asFrame_of_encode {msb : Bool} {i : Instr} {m : Mode} {raw : RawFrame} (h : encode msb i = .frame m raw) :
    ∃ f, i.asFrame = some (m, raw.id, f) := by
  cases i <;> simp only [encode, PortWord.frame.injEq, reduceCtorEq] at h
  all_goals
    obtain ⟨rfl, rfl⟩ := h
    exact ⟨_, rfl⟩

/-- A live receiver examines a frame as the wire row it decodes to (R180). -/
theorem exec_of_decodeFrame {s : State} {raw : RawFrame} {i : Instr} (hl : s.rx.live = true)
    (h : decode s.params.lenMsbFirst (.frame s.rx.mode raw) = .ok i) : exec i s = examineFrame raw s := by
  obtain ⟨henc, hw⟩ := encodeDecodeRoundTripOnFrames _ _ _ _ h
  obtain ⟨f, hf⟩ := asFrame_of_encode henc
  obtain ⟨raw', henc', -, hexec⟩ := exec_wire_of_live hw hf hl
  obtain ⟨-, rfl⟩ := PortWord.frame.inj (henc.symm.trans henc')
  exact hexec

theorem receiverStep_of_live {s : State} (hl : s.rx.live = true) : receiverStep s = pollStep s := if_pos hl

theorem receiverStep_of_not_live {s : State} (hl : s.rx.live = false) : receiverStep s = .next s := by
  simp [receiverStep, hl]

/-- Outside the live states a receiver's step is none. -/
theorem receiverStep_not_live_next {s t : State} (hl : s.rx.live = false) (h : receiverStep s = .next t) : t = s :=
  (Host.Outcome.next.inj ((receiverStep_of_not_live hl).symm.trans h)).symm

theorem step_receiver_turn {s : State} (hn : s.nextTurn = .receiver) :
    step s = receiverStep (s.setTurns s.turns.tail) := by
  simp only [step, hn]

/-- Settles O20: the receiver's turn polls the head of the queue, and examining it is executing its wire row. -/
theorem receiverTurnRunsTheDecodedFrame : Obligations.ReceiverTurnRunsTheDecodedFrame := by
  intro s raw rest i hn hl hq hi
  calc step s
      = receiverStep (s.setTurns s.turns.tail) := step_receiver_turn hn
    _ = pollStep (s.setTurns s.turns.tail) := receiverStep_of_live hl
    _ = examineFrame raw ((s.setTurns s.turns.tail).setLink { s.link with queue := rest }) := pollStep_cons hq
    _ = exec i { s with link := { s.link with queue := rest }, turns := s.turns.tail } :=
        (exec_of_decodeFrame (s := (s.setTurns s.turns.tail).setLink { s.link with queue := rest }) hl hi).symm

/-- What the link port rejects does not parse. -/
theorem parseFrame_of_decode_error {msb : Bool} {m : Mode} {raw : RawFrame} {e : DecodeReject}
    (h : decode msb (.frame m raw) = .error e) : ∃ e', parseFrame msb m raw.bytes = .error e' := by
  cases hp : parseFrame msb m raw.bytes with
  | ok f => exact absurd ((decodeFrame_of_parseFrame hp).symm.trans h) (by simp)
  | error e' => exact ⟨e', rfl⟩

/-- Settles O22: POLL_ONCE examines the head of the queue, which is its wire row or is skipped. -/
theorem pollOnceRunsThePolledFrame : Obligations.PollOnceRunsThePolledFrame := by
  intro s raw rest hl hq
  rw [exec_pollOnce_of_live hl, pollStep_cons hq]
  refine ⟨fun i hi => ?_, fun e he => ?_⟩
  · exact (exec_of_decodeFrame (s := s.setLink { s.link with queue := rest }) hl hi).symm
  · obtain ⟨e', hp⟩ := parseFrame_of_decode_error he
    exact examineFrame_unparseable hp

/-- Settles O23: the row's frame passes the id filter and parses as its logical frame. -/
theorem wireRowIsItsLogicalFrame : Obligations.WireRowIsItsLogicalFrame :=
  fun _ _ _ hw hf hl => exec_wire_related hw hf hl

/-- Settles O24: the row's frame is a raw frame, so it is delivered: to the receiver's step, or to the queue. -/
theorem wireRowsComplete : Obligations.WireRowsComplete := by
  intro s i m id f hw hf
  obtain ⟨raw, henc, -, hexec⟩ := exec_wire hf s
  have hraw := wf_wire hw hf henc
  rw [hexec]
  refine ⟨?_, fun hl => ⟨raw, henc, deliver_not_live hraw hl⟩⟩
  rintro ⟨hok, -⟩
  rw [deliver_of_wf hraw]
  exact receiverStep_completes hok

/-- Settles O35: in its Mode POLL_ONCE is the receiver's step; the two tests before it refuse the rest. -/
theorem pollOnceCompletesWhereLive : Obligations.PollOnceCompletesWhereLive := by
  intro s
  refine ⟨?_, fun mode hl => ?_, fun mode hl hm => ?_⟩
  · rintro ⟨hok, -⟩ hl
    rw [exec_pollOnce_of_live hl, ← receiverStep_of_live hl]
    exact receiverStep_completes hok
  · simp [exec, execPollOnce, hl]
  · simp [exec, execPollOnce, hl, hm]

end Sys2Proof.Machine
end

section
/-! The events of the script (R61, R64, R137, R178, R230, R231): turns that pass, the caller's accesses to the
buffers, reset and abandonment, and what no event changes. -/

namespace Sys2Proof.Machine

/-- Settles O21: with nothing enabled the event leaves the state it is given, the script one turn shorter. -/
theorem turnsWithNothingToDoPass : Obligations.TurnsWithNothingToDoPass := by
  rintro s (⟨hn, hc⟩ | ⟨hn, hb⟩ | ⟨hn, hl⟩ | ⟨hn, hb⟩ | ⟨hn, hl⟩)
  · have hfetch : fetchCommand (s.setTurns s.turns.tail) = none := by simp [fetchCommand, hc]
    simp only [step, hn, callerStep, hfetch]
    rfl
  · simp only [step, hn]
    exact senderStep_idle hb
  · rw [step_receiver_turn hn]
    exact receiverStep_of_not_live hl
  · simp only [step, hn]
    exact congrArg _ (abandon_sender_of_not_busy hb)
  · simp only [step, hn]
    exact congrArg _ (abandon_receiver_of_not_live hl)

/-! ### The caller's accesses to its buffers -/

/-- What the caller reads of DST after storing a byte there. -/
theorem readDst_write {s : State} (hd : Memory.wf s.dst) (off a : Nat) (b : Byte) :
    (s.setDst (Memory.write s.dst off b) (Region.minusAll off (off + 1) s.dstUndefined)).readDst a =
      if a = off then b else s.readDst a := by
  simp only [State.readDst, State.setDst_dst, State.setDst_dstUndefined, Region.find_minusAll, Memory.read_write hd]
  by_cases ha : a = off
  · simp [ha]
  · simp only [ha, if_false, show ¬ (off ≤ a ∧ a < off + 1) by omega]

/-- Settles O54: each event tests the engine that borrows its buffer, and a store is read back by the laws of the byte
spaces. -/
theorem buffersAreLockedDuringOperations : Obligations.BuffersAreLockedDuringOperations := by
  intro s off b
  refine ⟨fun hn hb => ?_, fun hn hl => ?_, fun hn hb hinv => ?_, fun hn hl hinv => ?_, fun hn hl => ?_,
    fun hn hl => ?_⟩
  · simp [step, hn, writeSrcEvent, hb]
  · simp [step, hn, writeDstEvent, hl]
  · obtain ⟨-, -, ⟨hsrc, -⟩, -⟩ := hinv
    refine ⟨(s.setTurns s.turns.tail).setSrc (Memory.write s.src off.toNat b), ?_, fun a => ?_⟩
    · simp [step, hn, writeSrcEvent, hb]
    · exact Memory.read_write hsrc off.toNat a b
  · obtain ⟨-, -, -, ⟨hdst, -⟩, -⟩ := hinv
    refine ⟨(s.setTurns s.turns.tail).setDst (Memory.write s.dst off.toNat b)
      (Region.minusAll off.toNat (off.toNat + 1) s.dstUndefined), ?_, fun a => ?_⟩
    · simp [step, hn, writeDstEvent, hl]
    · exact readDst_write hdst off.toNat a b
  · simp [step, hn, readDstEvent, hl]
  · simp only [step, hn, readDstEvent, State.setTurns_rx, hl, Bool.false_eq_true, if_false]
    rfl

/-! ### Abandonment and reset -/

theorem Receiver.storedEnd_eq (r : Receiver) :
    r.storedEnd = (if r.op = .receiveBytes then r.rbAccumulated.toNat else 0) +
      (if r.started then r.receivedLength.toNat else 0) := by
  unfold Receiver.storedEnd
  cases r.op <;> rfl

/-- A state that differs from the abandoned receive's in neither DST nor what stands beside the engines has its
traces. -/
theorem tracesOnly_of_abandon {s t : State} (hsrc : t.src = s.src) (hdst : t.dst = s.dst)
    (hparams : t.params = s.params) (hlink : t.link = s.link)
    (hread : ∀ a, t.readDst a = (abandon .receiver s).readDst a) : TracesOnly s t := by
  refine ⟨hsrc, hdst, hparams, hlink, ?_⟩
  rintro n rfl
  rw [← Receiver.storedEnd_eq]
  refine ⟨fun a hl ha => ⟨s.free, ?_⟩, fun a ha => ?_⟩
  · rw [hread, abandon_receiver_readDst, if_pos ⟨hl, ha⟩]
  · rw [hread, abandon_receiver_readDst, if_neg]
    rintro ⟨hl, hlt⟩
    obtain hl' | hle := ha
    · simp [hl] at hl'
    · omega

theorem tracesOnly_reset (s : State) : TracesOnly s (resetEvent s) := by
  have hframe := resetEvent_frame s
  exact tracesOnly_of_abandon (by rw [hframe]) (by rw [hframe]) (by rw [hframe]) (by rw [hframe]) (resetEvent_readDst s)

theorem tracesOnly_abandon_receiver (s : State) : TracesOnly s (abandon .receiver s) := by
  have hframe := abandon_frame .receiver s
  exact tracesOnly_of_abandon (by rw [hframe]) (by rw [hframe]) (by rw [hframe]) (by rw [hframe]) fun _ => rfl

/-- Settles O49: reset and the caller's abandonment of a receive leave the traces of the abandoned receive, that of a
send none in DST; each leaves its engine idle, which accepts its next operation. -/
theorem abandonedOperationsLeaveOnlyTheirTraces : Obligations.AbandonedOperationsLeaveOnlyTheirTraces := by
  intro s
  refine ⟨fun hn => ?_, fun hn hl => ?_, fun hn hb => ?_⟩
  · refine ⟨resetEvent (s.setTurns s.turns.tail), by simp only [step, hn], rfl, rfl, rfl, rfl, rfl, ?_, fun n m => ?_⟩
    · exact tracesOnly_reset (s.setTurns s.turns.tail)
    · exact ⟨_, exec_receive_of_not_live rfl n m⟩
  · have hrx : (abandon .receiver (s.setTurns s.turns.tail)).rx = Receiver.reset := by
      rw [abandon_receiver_of_live (s := s.setTurns s.turns.tail) hl, State.setRx_rx]
    refine ⟨abandon .receiver (s.setTurns s.turns.tail), by simp only [step, hn], by rw [hrx]; rfl, by rw [hrx]; rfl,
      by rw [hrx]; rfl, abandon_receiver_tx _, ?_, fun n m => ?_⟩
    · exact tracesOnly_abandon_receiver (s.setTurns s.turns.tail)
    · exact ⟨_, exec_receive_of_not_live (by rw [hrx]; rfl) n m⟩
  · have hstep : step s = .next ((s.setTurns s.turns.tail).setTx Sender.reset) := by
      simp only [step, hn]
      exact congrArg _ (abandon_sender_of_busy hb)
    exact ⟨_, hstep, rfl, rfl, rfl, rfl, rfl, rfl, rfl, fun _ => rfl,
      fun id n m => ⟨_, exec_send_of_not_busy rfl id n m⟩⟩

/-! ### What no event changes -/

theorem exec_params {i : Instr} {s t : State} (h : exec i s = .next t) : t.params = s.params := by
  obtain ⟨r, rfl, -⟩ | ⟨raw, -, h⟩ | h | ⟨_, _, _, -, -, ht, -⟩ | ⟨_, _, -, -, ht, -⟩ := exec_cases h
  · rfl
  · exact (receiverStep_frame h).2.1
  · exact (receiverStep_frame h).2.1
  · rw [ht]; rfl
  · rw [ht]

/-- Settles O50: no update a step is made of writes the parameters. -/
theorem parametersNeverChange : Obligations.ParametersNeverChange := by
  intro s t h
  obtain ⟨-, ⟨-, rfl⟩ | ⟨c, rest, i, -, -, h⟩⟩ | ⟨-, h⟩ | ⟨-, h⟩ | ⟨-, rfl⟩ | ⟨e, -, rfl⟩ |
    ⟨q, a, -, -, rfl⟩ | ⟨off, b, -, -, rfl⟩ | ⟨off, b, -, -, rfl⟩ | ⟨off, -, -, rfl⟩ := step_cases h
  · rfl
  · exact (exec_params h :)
  · rw [senderStep_frame h]; rfl
  · exact (receiverStep_frame h).2.1
  · rw [resetEvent_frame]; rfl
  · rw [abandon_frame]; rfl
  · rfl
  · rfl
  · rfl
  · rfl

/-! ### Ended operations -/

theorem Receiver.not_live_of_ended {r : Receiver} (h : r.ended = true) : r.live = false := by
  cases hs : r.state <;> simp_all [Receiver.ended, Receiver.live]

theorem Sender.not_busy_of_ended {t : Sender} (h : t.ended = true) : t.busy = false := by
  cases hp : t.phase <;> simp_all [Sender.ended, Sender.busy]

/-- Outside the live states an instruction writes the receiver's registers only by issuing a receive. -/
theorem exec_rx {i : Instr} {s t : State} (hl : s.rx.live = false) (h : exec i s = .next t) :
    t.rx = s.rx ∨ ∃ len mode, i = .receive len mode ∨ i = .receiveBytes len mode := by
  obtain ⟨r, rfl, -⟩ | ⟨raw, -, h⟩ | h | ⟨_, _, _, -, -, ht, -⟩ | ⟨len, mode, hi, -⟩ := exec_cases h
  · exact .inl rfl
  · exact .inl (by rw [receiverStep_not_live_next (by exact hl) h]; rfl)
  · exact .inl (by rw [receiverStep_not_live_next hl h])
  · exact .inl (by rw [ht]; rfl)
  · exact .inr ⟨len, mode, hi⟩

/-- An instruction writes the sender's registers only by issuing a send. -/
theorem exec_tx {i : Instr} {s t : State} (h : exec i s = .next t) :
    t.tx = s.tx ∨ ∃ id len mode, i = .sendTransfer id len mode ∨ i = .send id len mode := by
  obtain ⟨r, rfl, -⟩ | ⟨raw, -, h⟩ | h | ⟨id, len, mode, hi, -⟩ | ⟨_, _, -, -, ht, -⟩ := exec_cases h
  · exact .inl rfl
  · exact .inl (receiverStep_frame h).1
  · exact .inl (receiverStep_frame h).1
  · exact .inr ⟨id, len, mode, hi⟩
  · exact .inl (by rw [ht])

/-- A step writes the registers of a receiver that is not live only by reset or by the issue of a receive (R22, R214).
-/
theorem step_rx {s t : State} (hl : s.rx.live = false) (h : step s = .next t) :
    t.rx = s.rx ∨ s.nextTurn = .reset ∨ (s.nextTurn = .caller ∧ ∃ c rest n m, s.commands = c :: rest ∧
      (decodeCommand c = .ok (.receive n m) ∨ decodeCommand c = .ok (.receiveBytes n m))) := by
  obtain ⟨hn, ⟨-, rfl⟩ | ⟨c, rest, i, hc, hi, h⟩⟩ | ⟨-, h⟩ | ⟨-, h⟩ | ⟨hn, -⟩ | ⟨e, -, rfl⟩ |
    ⟨q, a, -, -, rfl⟩ | ⟨off, b, -, -, rfl⟩ | ⟨off, b, -, -, rfl⟩ | ⟨off, -, -, rfl⟩ := step_cases h
  · exact .inl rfl
  · obtain heq | ⟨len, mode, hi'⟩ := exec_rx (s := (s.setTurns s.turns.tail).setCommands rest) hl h
    · exact .inl heq
    · exact .inr (.inr ⟨hn, c, rest, len, mode, hc, by simpa [hi] using hi'⟩)
  · exact .inl (by rw [senderStep_frame h]; rfl)
  · exact .inl (by rw [receiverStep_not_live_next (by exact hl) h]; rfl)
  · exact .inr (.inl hn)
  · cases e with
    | sender => exact .inl (abandon_sender_rx _)
    | receiver => exact .inl (by rw [abandon_receiver_of_not_live (s := s.setTurns s.turns.tail) hl]; rfl)
  · exact .inl rfl
  · exact .inl rfl
  · exact .inl rfl
  · exact .inl rfl

/-- A step writes the registers of a sender that is not busy only by reset or by the issue of a send (R29, R214). -/
theorem step_tx {s t : State} (hb : s.tx.busy = false) (h : step s = .next t) :
    t.tx = s.tx ∨ s.nextTurn = .reset ∨ (s.nextTurn = .caller ∧ ∃ c rest id n m, s.commands = c :: rest ∧
      (decodeCommand c = .ok (.sendTransfer id n m) ∨ decodeCommand c = .ok (.send id n m))) := by
  obtain ⟨hn, ⟨-, rfl⟩ | ⟨c, rest, i, hc, hi, h⟩⟩ | ⟨-, h⟩ | ⟨-, h⟩ | ⟨hn, -⟩ | ⟨e, -, rfl⟩ |
    ⟨q, a, -, -, rfl⟩ | ⟨off, b, -, -, rfl⟩ | ⟨off, b, -, -, rfl⟩ | ⟨off, -, -, rfl⟩ := step_cases h
  · exact .inl rfl
  · obtain heq | ⟨id, len, mode, hi'⟩ := exec_tx h
    · exact .inl heq
    · exact .inr (.inr ⟨hn, c, rest, id, len, mode, hc, by simpa [hi] using hi'⟩)
  · rw [senderStep_idle (s := s.setTurns s.turns.tail) hb] at h
    cases h
    exact .inl rfl
  · exact .inl (receiverStep_frame h).1
  · exact .inr (.inl hn)
  · cases e with
    | sender => exact .inl (by rw [abandon_sender_of_not_busy (s := s.setTurns s.turns.tail) hb]; rfl)
    | receiver => exact .inl (abandon_receiver_tx _)
  · exact .inl rfl
  · exact .inl rfl
  · exact .inl rfl
  · exact .inl rfl

/-- Settles O53: an ended engine runs no operation, so only reset or an issue writes its registers. -/
theorem endedOperationsStayEnded : Obligations.EndedOperationsStayEnded := by
  refine fun s t h => ⟨fun he hne => ?_, fun he hne => ?_⟩
  · exact (step_rx (Receiver.not_live_of_ended he) h).resolve_left fun heq => hne (by rw [heq])
  · exact (step_tx (Sender.not_busy_of_ended he) h).resolve_left fun heq => hne (by rw [heq])

end Sys2Proof.Machine
end

section
/-! The two engines beside each other (R3, R61, D31): what a step of one leaves alone, that their steps commute over a
driver, and that a receive stores inside its buffer only. -/

namespace Sys2Proof.Machine

/-- A sender step over a driver leaves the frames received alone (R218). -/
theorem senderStep_queue {s t : State} (hd : s.link.adapter = .driver) (h : senderStep s = .next t) :
    t.link.queue = s.link.queue := by
  obtain ⟨-, rfl⟩ | ⟨-, -, raw, after, -, rfl⟩ | ⟨-, -, rfl⟩ := senderStep_next h
  · rfl
  · exact Link.taking_driver hd
  · rfl

/-- Settles O51: the frames of the two steps. -/
theorem enginesShareNoState : Obligations.EnginesShareNoState :=
  fun _ _ => ⟨fun h => ⟨senderStep_frame h, fun hd => senderStep_queue hd h⟩, receiverStep_frame⟩

/-! ### A state with the sender of another -/

/-- The state with the sender, and all of the adapter but the frames received, from `a`: what a sender step over a
driver writes. -/
def State.withSenderOf (s a : State) : State := (s.setTx a.tx).setLink { a.link with queue := s.link.queue }

@[simp] theorem State.withSenderOf_rx (s a : State) : (s.withSenderOf a).rx = s.rx := rfl

theorem withSenderOf_of_senderStep {s a : State} (hd : s.link.adapter = .driver) (h : senderStep s = .next a) :
    s.withSenderOf a = a := by
  have hq := senderStep_queue hd h
  rw [State.withSenderOf, ← hq]
  exact (senderStep_frame h).symm

/-- A frame handed to a driver leads to the same sender and the same adapter whatever the receiver has done. -/
theorem transmit_of_receiverOnly {s a b : State} {raw : Option RawFrame} {after : Sender}
    (hd : s.link.adapter = .driver) (hb : ReceiverOnly s b) (h : transmit raw after s = .next a) :
    transmit raw after b = .next (b.withSenderOf a) := by
  obtain ⟨htx, -, -, -, -, -, -, hlink⟩ := hb
  have haccepts : b.link.accepts = s.link.accepts := by rw [hlink]; rfl
  obtain ⟨r, rfl, ⟨ha, rfl⟩ | ⟨ha, rfl⟩⟩ := transmit_next h
  · rw [transmit_of_accepts (haccepts.trans ha)]
    refine congrArg (fun l => Host.Outcome.next ((b.setLink l).setTx (afterFrame after))) ?_
    have hd' : b.link.adapter = .driver := by rw [hlink]; exact hd
    simp only [Link.taking, hd, hd', State.setTx_link, State.setLink_link]
    rw [hlink]
  · rw [transmit_of_rejects (haccepts.trans ha), htx]
    refine congrArg (fun l => Host.Outcome.next ((b.setLink l).setTx _)) ?_
    exact hlink

theorem memReadSrc_congr {s b : State} (h : b.src = s.src) (off n : Nat) : memReadSrc b off n = memReadSrc s off n := by
  simp only [memReadSrc, h]

/-- A sender step reads nothing a receiver step writes. -/
theorem senderStep_of_receiverOnly {s a b : State} (hd : s.link.adapter = .driver) (hb : ReceiverOnly s b)
    (h : senderStep s = .next a) : senderStep b = .next (b.withSenderOf a) := by
  have hsend : ∀ {raw after}, transmit raw after s = .next a → transmit raw after b = .next (b.withSenderOf a) :=
    transmit_of_receiverOnly hd hb
  obtain ⟨htx, hparams, hsrc, -, -, -, -, hlink⟩ := hb
  cases hbusy : s.tx.busy
  · rw [senderStep_idle hbusy] at h
    cases h
    rw [senderStep_idle (htx ▸ hbusy), State.withSenderOf, ← htx, ← hlink]
    rfl
  · obtain hp | hp := Sender.busy_iff.1 hbusy
    · simp only [senderStep, sendStartFrame, htx, hp, hparams, memReadSrc_congr hsrc] at h ⊢
      split at h
      · cases h
      · exact hsend h
    · simp only [senderStep, sendBodyFrame, htx, hp, memReadSrc_congr hsrc] at h ⊢
      split at h
      · rename_i hrem
        rw [if_pos hrem]
        split at h
        · cases h
        · exact hsend h
      · rename_i hrem
        rw [if_neg hrem]
        split at h
        · cases h
        · exact hsend h

/-! ### A receiver step beside another sender -/

theorem memWriteDst_withSenderOf {s u : State} (a : State) {off : Nat} {v : List Byte}
    (h : memWriteDst s off v = some u) : memWriteDst (s.withSenderOf a) off v = some (u.withSenderOf a) := by
  unfold memWriteDst at h ⊢
  split at h
  · cases h
    rw [if_pos ‹_›]
  · rw [if_neg ‹_›]
    split at h
    · cases h
      rw [if_pos ‹_›]
      rfl
    · cases h

theorem markUndefined_withSenderOf (lo hi : Nat) (s a : State) :
    markUndefined lo hi (s.withSenderOf a) = (markUndefined lo hi s).withSenderOf a := by
  by_cases hempty : hi ≤ lo
  · simp only [markUndefined, if_pos hempty]
  · simp only [markUndefined, if_neg hempty]
    rfl

theorem raise_withSenderOf (e : ErrorCode) (s a : State) :
    raise .receiver e (s.withSenderOf a) = (raise .receiver e s).withSenderOf a := by
  by_cases he : e = .bufferTooSmall
  · simp only [raise, he, if_true]
    rfl
  · simp only [raise, he, if_false, markUndefined_withSenderOf]
    rfl

theorem succeed_withSenderOf (n : Word) (s a : State) :
    succeed n (s.withSenderOf a) = (succeed n s).withSenderOf a := by
  cases hop : s.rx.op with
  | receive =>
    have hop' : (s.withSenderOf a).rx.op = .receive := hop
    rw [succeed_receive hop, succeed_receive hop']
    rfl
  | receiveBytes =>
    have hop' : (s.withSenderOf a).rx.op = .receiveBytes := hop
    rw [succeed_receiveBytes hop, succeed_receiveBytes hop', State.withSenderOf_rx]
    split <;> rfl

/-- An accepted frame has the same effect on the receiver whatever the sender has done. -/
theorem acceptFrame_withSenderOf {f : LogicalFrame} {s t : State} (a : State) (h : acceptFrame f s = .next t) :
    acceptFrame f (s.withSenderOf a) = .next (t.withSenderOf a) := by
  cases f with
  | start total data =>
    simp only [acceptFrame, acceptStart, outOfPattern, raise_withSenderOf, State.withSenderOf_rx] at h ⊢
    split at h
    · cases h
      rw [if_pos ‹_›]
    rw [if_neg ‹_›]
    split at h
    · cases h
      rw [if_pos ‹_›]
    rw [if_neg ‹_›]
    split at h
    · cases h
    rename_i u hu
    simp only [memWriteDst_withSenderOf a hu]
    split at h
    · cases h
      rw [if_pos ‹_›, ← succeed_withSenderOf]
      rfl
    · cases h
      rw [if_neg ‹_›]
      rfl
  | consecutive sequence data =>
    simp only [acceptFrame, acceptConsecutive, outOfPattern, raise_withSenderOf, State.withSenderOf_rx] at h ⊢
    split at h
    · cases h
      rw [if_pos ‹_›]
    rw [if_neg ‹_›]
    split at h
    · cases h
      rw [if_pos ‹_›]
    rw [if_neg ‹_›]
    split at h
    · cases h
      rw [if_pos ‹_›]
    rw [if_neg ‹_›]
    split at h
    · cases h
    rename_i u hu
    cases h
    simp only [memWriteDst_withSenderOf a hu]
    rfl
  | endOf data =>
    simp only [acceptFrame, acceptEnd, outOfPattern, raise_withSenderOf, State.withSenderOf_rx] at h ⊢
    split at h
    · cases h
      rw [if_pos ‹_›]
    rw [if_neg ‹_›]
    split at h
    · cases h
      rw [if_pos ‹_›]
    rw [if_neg ‹_›]
    split at h
    · cases h
      rw [if_pos ‹_›]
    rw [if_neg ‹_›]
    split at h
    · cases h
    rename_i u hu
    cases h
    simp only [memWriteDst_withSenderOf a hu, ← succeed_withSenderOf]
    rfl
  | flowControl c =>
    cases h
    rfl
  | error code =>
    cases h
    rfl

theorem examineFrame_withSenderOf {raw : RawFrame} {s t : State} (a : State) (h : examineFrame raw s = .next t) :
    examineFrame raw (s.withSenderOf a) = .next (t.withSenderOf a) := by
  by_cases hid : raw.id = s.params.rxId
  swap
  · rw [examineFrame_unrelated hid] at h
    cases h
    exact examineFrame_unrelated hid
  cases hp : parseFrame s.params.lenMsbFirst s.rx.mode raw.bytes with
  | error e =>
    rw [examineFrame_unparseable hp] at h
    cases h
    exact examineFrame_unparseable hp
  | ok f =>
    rw [examineFrame_ok hid hp] at h
    rw [examineFrame_ok (s := s.withSenderOf a) hid hp]
    exact acceptFrame_withSenderOf a h

/-- A receiver step reads nothing a sender step over a driver writes. -/
theorem receiverStep_withSenderOf {s t : State} (a : State) (h : receiverStep s = .next t) :
    receiverStep (s.withSenderOf a) = .next (t.withSenderOf a) := by
  cases hl : s.rx.live
  · rw [receiverStep_not_live_next hl h]
    exact receiverStep_of_not_live hl
  have hl' : (s.withSenderOf a).rx.live = true := hl
  rw [receiverStep_of_live hl] at h
  rw [receiverStep_of_live hl']
  cases hq : s.link.queue with
  | nil =>
    rw [pollStep_nil hq] at h
    cases h
    exact pollStep_nil hq
  | cons raw rest =>
    have hq' : (s.withSenderOf a).link.queue = raw :: rest := hq
    rw [pollStep_cons hq] at h
    rw [pollStep_cons hq']
    exact examineFrame_withSenderOf a h

/-- Settles O52: both orders lead to the receiver's state with the sender of the sender's. -/
theorem engineStepsCommute : Obligations.EngineStepsCommute := by
  intro s a b hd ha hb
  refine ⟨b.withSenderOf a, ?_, senderStep_of_receiverOnly hd (receiverStep_frame hb) ha⟩
  rw [← withSenderOf_of_senderStep hd ha]
  exact receiverStep_withSenderOf a hb

/-! ### Where a receive stores -/

/-- Settles O47: skipping stores nothing, an error leaves the buffer undefined inside, and a store lies inside it. -/
theorem storesStayInsideTheBuffer : Obligations.StoresStayInsideTheBuffer := by
  rintro s t ⟨hok, -, -, ⟨hdst, -⟩, -⟩ h
  obtain ⟨-, rfl⟩ | ⟨-, -, rfl⟩ | ⟨-, raw, rest, -, h⟩ := receiverStep_next h
  · exact fun _ _ => rfl
  · exact fun _ _ => rfl
  obtain rfl | ⟨f, -, -, h⟩ := examineFrame_next h
  · exact fun _ _ => rfl
  obtain rfl | ⟨e, rfl⟩ | ⟨off, v, u, rx, hu, hlo, hhi, ht⟩ := acceptFrame_next h
  · exact fun _ _ => rfl
  · obtain ⟨-, -, -, -, -, hundefined⟩ := raise_receiver e (s.setLink { s.link with queue := rest })
    exact hundefined
  have hinside := hhi hok
  have houtside := (memWriteDst_stored hu hdst).2
  have hread : ∀ a, t.readDst a = u.readDst a := by
    obtain ⟨rfl, -⟩ | ⟨n, rfl⟩ := ht
    · exact fun _ => rfl
    · exact succeed_readDst n _
  intro a ha
  have ha' : a < off ∨ off + v.length ≤ a := by
    simp only [State.setLink_rx] at hlo hinside
    omega
  exact (hread a).trans (houtside a ha')

end Sys2Proof.Machine
end

section
/-! Segmentation (R130 to R147): one equation for each frame a busy sender hands to a link that takes it, and the
statements about the phases and the slices of a message. -/

namespace Sys2Proof.Machine

/-! ### The encoder's contract -/

/-- Settles O7: a broken contract leaves no frame to return, and under the invariant every sender step completes. -/
theorem encoderContractIsEnforced : Obligations.EncoderContractIsEnforced := by
  refine ⟨fun s m id total data h => ?_, fun s m id sequence data h => ?_, fun s m id data h => ?_, ?_⟩
  · have hbroken : startContract m total data = false := by
      rw [startContract, Bool.and_eq_false_iff]
      exact h.imp (fun h => decide_eq_false (Nat.not_le.2 h)) fun h => decide_eq_false (Nat.not_le.2 h)
    simp [exec, execEncStart, startFrame, hbroken, returnFrame]
  · simp [exec, execEncCons, consecutiveFrame, consecutiveContract, Nat.not_le.2 h, returnFrame]
  · simp [exec, execEncEnd, endFrame, endContract, Nat.not_le.2 h, returnFrame]
  · rintro s r ⟨-, hok, -⟩ href
    obtain ⟨t, ht⟩ := senderStep_completes hok
    simp [ht] at href

/-! ### The end of a transfer -/

theorem afterFrame_whole {t : Sender} (h : t.sent = t.total) : afterFrame t = finishTransfer t := if_pos h

theorem afterFrame_more {t : Sender} (h : t.sent ≠ t.total) : afterFrame t = { t with phase := .body } := if_neg h

theorem finishTransfer_sendTransfer {t : Sender} (h : t.op = .sendTransfer) :
    finishTransfer t = { t with phase := .done, resultLen := t.total } := by
  simp [finishTransfer, h]

/-- R144: the message is sent. -/
theorem finishTransfer_send_done {t : Sender} (h : t.op = .send)
    (hlast : t.msgLen.toNat ≤ t.msgOff.toNat + t.total.toNat) :
    finishTransfer t =
      { t with msgOff := word (t.msgOff.toNat + t.total.toNat), phase := .done, resultLen := t.msgLen } := by
  simp [finishTransfer, h, hlast]

/-- R140, R141: the next slice. -/
theorem finishTransfer_send_next {t : Sender} (h : t.op = .send)
    (hmore : t.msgOff.toNat + t.total.toNat < t.msgLen.toNat) :
    finishTransfer t = beginTransfer (t.msgOff.toNat + t.total.toNat)
      (nextSlice t.mode t.msgLen.toNat (t.msgOff.toNat + t.total.toNat))
      { t with msgOff := word (t.msgOff.toNat + t.total.toNat) } := by
  simp [finishTransfer, h, Nat.not_le.2 hmore]

/-! ### A frame the link takes -/

/-- A count below a register's value is not that value. -/
theorem word_ne_of_lt {n : Nat} {w : Word} (h : n < w.toNat) : word n ≠ w := by
  rintro rfl
  have hspace := toNat_lt_space (word n)
  rw [word_toNat (by omega)] at h
  exact lt_irrefl n h

/-- The START frame of the sender's transfer (R131). -/
def State.startFrameToSend (s : State) : RawFrame :=
  ⟨s.tx.id, layoutStart s.params.lenMsbFirst s.tx.mode s.tx.total
    (s.srcBytes s.tx.base.toNat (min s.tx.total.toNat s.tx.mode.startCapacity))⟩

/-- A START frame with the whole transfer. -/
theorem senderStep_start_whole {s : State} (hok : s.tx.Ok) (hp : s.tx.phase = .start) (ha : s.link.accepts = true)
    (hw : s.tx.total.toNat ≤ s.tx.mode.startCapacity) :
    senderStep s = .next ((s.setLink (s.link.taking s.startFrameToSend)).setTx
      (finishTransfer { s.tx with sent := s.tx.total })) := by
  rw [senderStep_start hok hp, transmit_of_accepts ha, ← State.startFrameToSend]
  rw [min_eq_left hw, word_of_toNat, afterFrame_whole rfl]

/-- A START frame the body follows. -/
theorem senderStep_start_more {s : State} (hok : s.tx.Ok) (hp : s.tx.phase = .start) (ha : s.link.accepts = true)
    (hm : s.tx.mode.startCapacity < s.tx.total.toNat) :
    senderStep s = .next ((s.setLink (s.link.taking s.startFrameToSend)).setTx
      { s.tx with phase := .body, sent := word s.tx.mode.startCapacity }) := by
  rw [senderStep_start hok hp, transmit_of_accepts ha, ← State.startFrameToSend]
  rw [min_eq_right hm.le, afterFrame_more (word_ne_of_lt hm)]

/-- An END frame with the rest. -/
theorem senderStep_end_taken {s : State} (hok : s.tx.Ok) (hp : s.tx.phase = .body) (ha : s.link.accepts = true)
    (hr : s.tx.remaining ≤ s.tx.mode.endCapacity) :
    senderStep s = .next
      ((s.setLink (s.link.taking ⟨s.tx.id, layoutEnd (s.srcBytes s.tx.address s.tx.remaining)⟩)).setTx
        (finishTransfer { s.tx with sent := s.tx.total })) := by
  rw [senderStep_end hok hp hr, transmit_of_accepts ha, afterFrame_whole rfl]

/-- The registers after a full CONSECUTIVE frame (R132). -/
def Sender.advanced (t : Sender) : Sender :=
  { t with sent := word (t.sent.toNat + t.mode.consecutiveCapacity), seq := t.seq + 1 }

theorem Sender.advanced_remaining {t : Sender} (h : t.sent.toNat + t.mode.consecutiveCapacity < offsetSpace) :
    t.advanced.remaining = t.remaining - t.mode.consecutiveCapacity := by
  simp only [Sender.remaining, Sender.advanced, word_toNat h, Nat.sub_sub]

theorem Sender.advanced_address {t : Sender} (h : t.sent.toNat + t.mode.consecutiveCapacity < offsetSpace) :
    t.advanced.address = t.address + t.mode.consecutiveCapacity := by
  simp only [Sender.address, Sender.advanced, word_toNat h, Nat.add_assoc]

/-- A full CONSECUTIVE frame. -/
theorem senderStep_consecutive_taken {s : State} (hok : s.tx.Ok) (hp : s.tx.phase = .body)
    (ha : s.link.accepts = true) (hr : s.tx.mode.endCapacity < s.tx.remaining) :
    senderStep s = .next
      ((s.setLink (s.link.taking ⟨s.tx.id, layoutConsecutive s.tx.seq
        (s.srcBytes s.tx.address s.tx.mode.consecutiveCapacity)⟩)).setTx s.tx.advanced) := by
  have hcap : s.tx.mode.consecutiveCapacity < s.tx.mode.endCapacity := by cases s.tx.mode <;> decide
  have hlt : s.tx.sent.toNat + s.tx.mode.consecutiveCapacity < s.tx.total.toNat := by
    simp only [Sender.remaining] at hr
    omega
  rw [senderStep_consecutive hok hp hr, transmit_of_accepts ha, afterFrame_more (word_ne_of_lt hlt), ← hp]
  rfl

/-! ### The phases -/

/-- Settles O28: the START frame with the whole transfer finishes it, else the body follows. -/
theorem startPhaseSendsTheStartFrame : Obligations.StartPhaseSendsTheStartFrame := by
  rintro s ⟨-, hok, -⟩ hp ha
  by_cases hw : s.tx.total.toNat ≤ s.tx.mode.startCapacity
  · refine ⟨_, senderStep_start_whole hok hp ha hw, rfl, rfl, fun hm => by omega, fun _ hop => ?_⟩
    exact finishTransfer_sendTransfer hop
  · exact ⟨_, senderStep_start_more hok hp ha (Nat.not_le.1 hw), rfl, rfl, fun _ => rfl, fun hw' => absurd hw' hw⟩

/-- Settles O29: the END frame finishes the transfer, a CONSECUTIVE frame moves the two counters. -/
theorem bodyPhaseSendsOneFrame : Obligations.BodyPhaseSendsOneFrame := by
  rintro s ⟨-, hok, -⟩ hp ha
  by_cases hr : s.tx.remaining ≤ s.tx.mode.endCapacity
  · refine ⟨_, senderStep_end_taken hok hp ha hr, rfl, fun _ => ⟨rfl, fun hop => ?_⟩,
      fun hr' => absurd hr (Nat.not_le.2 hr')⟩
    exact finishTransfer_sendTransfer hop
  · exact ⟨_, senderStep_consecutive_taken hok hp ha (Nat.not_le.1 hr), rfl, fun hr' => absurd hr' hr,
      fun _ => ⟨rfl, rfl⟩⟩

/-- The last frame of a transfer, in either phase, finishes it. -/
theorem senderStep_last {s : State} (hok : s.tx.Ok) (ha : s.link.accepts = true)
    (hlast : s.tx.phase = .start ∧ s.tx.total.toNat ≤ s.tx.mode.startCapacity ∨
      s.tx.phase = .body ∧ s.tx.remaining ≤ s.tx.mode.endCapacity) :
    ∃ raw, senderStep s = .next ((s.setLink (s.link.taking raw)).setTx
      (finishTransfer { s.tx with sent := s.tx.total })) := by
  obtain ⟨hp, hw⟩ | ⟨hp, hr⟩ := hlast
  · exact ⟨_, senderStep_start_whole hok hp ha hw⟩
  · exact ⟨_, senderStep_end_taken hok hp ha hr⟩

/-- Settles O30: the transfer's last frame finishes it, and the slices lie within the message, so no sum wraps. -/
theorem sendGoesOnWithTheNextSlice : Obligations.SendGoesOnWithTheNextSlice := by
  rintro s ⟨-, hok, -⟩ hop ha hlast
  obtain ⟨raw, hstep⟩ := senderStep_last hok ha hlast
  have hbusy : s.tx.busy = true := Sender.busy_iff.2 (hlast.imp And.left And.left)
  obtain ⟨-, -, -, -, hsend⟩ := hok
  obtain ⟨-, -, hslice⟩ := hsend hbusy hop
  have hspace := toNat_lt_space s.tx.msgLen
  have hoff := word_toNat (n := s.tx.msgOff.toNat + s.tx.total.toNat) (by omega)
  refine ⟨_, hstep, rfl, ?_⟩
  rw [State.setTx_tx]
  by_cases hdone : s.tx.msgLen.toNat ≤ s.tx.msgOff.toNat + s.tx.total.toNat
  · rw [finishTransfer_send_done (t := { s.tx with sent := s.tx.total }) hop hdone]
    exact ⟨rfl, rfl, rfl, hoff, fun _ => ⟨rfl, rfl⟩, fun hmore => by omega⟩
  · rw [finishTransfer_send_next (t := { s.tx with sent := s.tx.total }) hop (Nat.not_le.1 hdone)]
    refine ⟨rfl, rfl, rfl, hoff, fun h => absurd h hdone, fun _ => ⟨rfl, rfl, rfl, rfl, ?_⟩⟩
    have hnext := nextSlice_le s.tx.mode s.tx.msgLen.toNat (s.tx.msgOff.toNat + s.tx.total.toNat)
    simp only [beginTransfer]
    rw [word_toNat (by omega), hoff]
    rfl

end Sys2Proof.Machine
end

section
/-! Reassembly (R167 to R169, R184 to R189): the START frame that is stored, and what RECEIVE_BYTES makes of a
transfer that is whole. -/

namespace Sys2Proof.Machine

/-! ### A START frame that fits -/

/-- The registers an accepted START frame writes (R25, R26). -/
def Receiver.starting (r : Receiver) (total : Word) (received : Nat) : Receiver :=
  { r with totalLength := total, started := true, receivedLength := word received, expectedSequence := 0 }

/-- What fits the capacity is stored at the base, since the whole buffer exists (R38). -/
theorem memWriteDst_start {s : State} {total : Word} {data : List Byte} (hok : s.rx.Ok)
    (hst : s.rx.state = .awaitingStart) (hfit : total.toNat ≤ s.rx.capacity.toNat) :
    ∃ u, memWriteDst s s.rx.base.toNat (data.take (startStored total data)) = some u := by
  obtain ⟨-, -, hspace, -, -⟩ := hok
  have hbuffer := hspace (Receiver.live_of_awaitingStart hst)
  refine memWriteDst_isSome ?_
  simp only [List.length_take, startStored]
  omega

/-- R169: the frame holds the whole transfer. -/
theorem acceptStart_whole {s u : State} {total : Word} {data : List Byte} (hst : s.rx.state = .awaitingStart)
    (hfit : total.toNat ≤ s.rx.capacity.toNat) (hwhole : total.toNat ≤ data.length)
    (hu : memWriteDst s s.rx.base.toNat (data.take (startStored total data)) = some u) :
    acceptStart total data s = .next (succeed total (u.setRx (s.rx.starting total total.toNat))) := by
  have hstored : startStored total data = total.toNat := min_eq_right hwhole
  rw [hstored] at hu
  simp only [acceptStart, if_neg (not_not_intro hst), if_neg (Nat.not_lt.2 hfit), hu, memWriteDst_rx hu, hstored,
    if_true, Receiver.starting]

/-- R169: the transfer goes on. -/
theorem acceptStart_more {s u : State} {total : Word} {data : List Byte} (hst : s.rx.state = .awaitingStart)
    (hfit : total.toNat ≤ s.rx.capacity.toNat) (hmore : data.length < total.toNat)
    (hu : memWriteDst s s.rx.base.toNat (data.take (startStored total data)) = some u) :
    acceptStart total data s =
      .next (pending (u.setRx { s.rx.starting total data.length with state := .awaitingMore })) := by
  have hstored : startStored total data = data.length := min_eq_left hmore.le
  rw [hstored] at hu
  simp only [acceptStart, if_neg (not_not_intro hst), if_neg (Nat.not_lt.2 hfit), hu, memWriteDst_rx hu, hstored,
    if_neg hmore.ne, Receiver.starting]

/-- Settles O38: the store succeeds, and the bytes stored are the whole transfer or not. -/
theorem startFrameIsStored : Obligations.StartFrameIsStored := by
  rintro s i total data ⟨hok, -, -, hdst, -, -⟩ hw hf hst hfit
  have hexec := exec_wire_related hw hf (Receiver.live_of_awaitingStart hst)
  obtain ⟨u, hu⟩ := memWriteDst_start (data := data) hok hst hfit
  have hstored := memWriteDst_stored hu hdst.1
  by_cases hwhole : total.toNat ≤ data.length
  · have haccept := acceptStart_whole hst hfit hwhole hu
    obtain ⟨honly, hlink⟩ := acceptFrame_frame (f := .start total data) haccept
    refine ⟨_, hexec.trans haccept, honly, hlink, hstored.of_readDst_eq (succeed_readDst _ _), fun h => by omega,
      fun _ hop => ?_⟩
    rw [succeed_receive (s := u.setRx (s.rx.starting total total.toNat)) hop]
    refine ⟨?_, rfl, (memWriteDst_free hu :)⟩
    simp only [State.setRx_rx, Receiver.starting, word_of_toNat]
  · have haccept := acceptStart_more hst hfit (Nat.not_le.1 hwhole) hu
    obtain ⟨honly, hlink⟩ := acceptFrame_frame (f := .start total data) haccept
    exact ⟨_, hexec.trans haccept, honly, hlink, hstored.of_readDst_eq fun _ => rfl,
      fun _ => ⟨rfl, rfl, (memWriteDst_free hu :)⟩, fun h => absurd h hwhole⟩

/-! ### RECEIVE_BYTES -/

/-- The inner receive's base is what is collected, its capacity the room left (R186). -/
theorem Receiver.Ok.receiveBytes_room {r : Receiver} (hok : r.Ok) (hl : r.live = true) (hop : r.op = .receiveBytes) :
    r.base = r.rbAccumulated ∧ r.rbAccumulated.toNat + r.capacity.toNat = r.rbLength.toNat := by
  obtain ⟨-, -, -, -, hroom⟩ := hok
  exact hroom hl hop

/-- R187: the inner transfer that reaches the length ends the operation. -/
theorem succeed_receiveBytes_done {n : Word} {s : State} (hop : s.rx.op = .receiveBytes)
    (hlast : s.rx.rbAccumulated.toNat + n.toNat = s.rx.rbLength.toNat) :
    succeed n s = (s.setRx { s.rx with
      state := .done, resultLen := s.rx.rbLength, rbAccumulated := s.rx.rbLength }).setPoll (.done n) := by
  rw [succeed_receiveBytes hop, if_pos hlast.ge, hlast, word_of_toNat]

/-- R185, R186: before that, the next inner receive starts with the room left. -/
theorem succeed_receiveBytes_next {n : Word} {s : State} (hop : s.rx.op = .receiveBytes)
    (hmore : s.rx.rbAccumulated.toNat + n.toNat < s.rx.rbLength.toNat) :
    (succeed n s).rx = { s.rx with
      state := .awaitingStart, started := false, resultLen := n,
      base := word (s.rx.rbAccumulated.toNat + n.toNat), rbAccumulated := word (s.rx.rbAccumulated.toNat + n.toNat),
      capacity := word (s.rx.rbLength.toNat - (s.rx.rbAccumulated.toNat + n.toNat)),
      totalLength := (succeed n s).rx.totalLength, receivedLength := (succeed n s).rx.receivedLength,
      expectedSequence := (succeed n s).rx.expectedSequence } := by
  rw [succeed_receiveBytes hop, if_neg (Nat.not_le.2 hmore)]
  rfl

/-- The registers of a transfer of `n` bytes that is whole, its counters as the last frame leaves them. -/
def Receiver.whole (r : Receiver) (n : Word) : Receiver :=
  if r.state = .awaitingStart then r.starting n n.toNat else { r with totalLength := n, receivedLength := n }

/-- The frame that completes a transfer stores its bytes, writes the counters and succeeds (R169, R173). -/
theorem acceptFrame_completes_transfer {s : State} {f : LogicalFrame} {n : Nat} (hok : s.rx.Ok)
    (h : s.rx.state = .awaitingStart ∧ (∃ total data, f = .start total data ∧ n = total.toNat ∧
        n ≤ data.length ∧ n ≤ s.rx.capacity.toNat) ∨
      s.rx.state = .awaitingMore ∧ n = s.rx.totalLength.toNat ∧
        ∃ data, f = .endOf data ∧ n - s.rx.receivedLength.toNat ≤ data.length) :
    n ≤ s.rx.capacity.toNat ∧
      ∃ u : State, acceptFrame f s = .next (succeed (word n) (u.setRx (s.rx.whole (word n)))) := by
  obtain ⟨hst, total, data, rfl, rfl, hwhole, hfit⟩ | ⟨hst, rfl, data, rfl, hlen⟩ := h
  · obtain ⟨u, hu⟩ := memWriteDst_start (data := data) hok hst hfit
    refine ⟨hfit, u, ?_⟩
    rw [Receiver.whole, if_pos hst, word_of_toNat]
    exact acceptStart_whole hst hfit hwhole hu
  · have hb := hok.awaitingMore_bounds hst
    obtain ⟨u, hu⟩ := memWriteDst_within_total (v := data.take s.rx.bytesLeft) hok hst
      (by simp only [List.length_take, Receiver.bytesLeft]; omega)
    refine ⟨hb.2.1, u, ?_⟩
    rw [Receiver.whole, if_neg (by simp [hst]), word_of_toNat]
    exact acceptEnd_stored hok hst hlen hu

theorem Receiver.whole_counters (r : Receiver) (n : Word) :
    (r.whole n).totalLength = n ∧ (r.whole n).receivedLength = n ∧
      (r.whole n).expectedSequence = if r.state = .awaitingStart then 0 else r.expectedSequence := by
  unfold Receiver.whole
  split
  · exact ⟨rfl, word_of_toNat n, rfl⟩
  · exact ⟨rfl, rfl, rfl⟩

/-- The registers of the operation, which the frames of a transfer do not write (R184). -/
def Receiver.operation (r : Receiver) : RxOp × Mode × Word × Word := (r.op, r.mode, r.rbLength, r.rbAccumulated)

theorem Receiver.operation_eq_iff {r q : Receiver} : r.operation = q.operation ↔
    r.op = q.op ∧ r.mode = q.mode ∧ r.rbLength = q.rbLength ∧ r.rbAccumulated = q.rbAccumulated := by
  simp [Receiver.operation]

theorem Receiver.whole_operation (r : Receiver) (n : Word) : (r.whole n).operation = r.operation := by
  unfold Receiver.whole
  split <;> rfl

theorem Receiver.whole_started {r : Receiver} (hok : r.Ok) (hl : r.live = true) (n : Word) :
    (r.whole n).started = true := by
  unfold Receiver.whole
  split
  · rfl
  · obtain ⟨-, hmore, -⟩ := hok
    obtain ⟨hstarted, -⟩ := hmore ((Receiver.live_iff.1 hl).resolve_left ‹_›)
    exact hstarted

/-- Settles O45: the completing frame succeeds, and the room left says whether the message is whole. -/
theorem receiveBytesCollectsTransfers : Obligations.ReceiveBytesCollectsTransfers := by
  rintro s i f n ⟨hok, -⟩ hw hf hop h
  have hl : s.rx.live = true := Receiver.live_iff.2 (h.imp And.left And.left)
  obtain ⟨hfit, u, haccept⟩ := acceptFrame_completes_transfer hok h
  obtain ⟨honly, hlink⟩ := acceptFrame_frame haccept
  obtain ⟨htotal, hreceived, hseq⟩ := s.rx.whole_counters (word n)
  obtain ⟨hop', hmode, hlength, hacc⟩ := Receiver.operation_eq_iff.1 (s.rx.whole_operation (word n))
  obtain ⟨-, hroom⟩ := hok.receiveBytes_room hl hop
  have hspace := toNat_lt_space s.rx.rbLength
  have hn : (word n).toNat = n := word_toNat (by omega)
  refine ⟨_, (exec_wire_related hw hf hl).trans haccept, honly, hlink, by rw [succeed_frame]; rfl, ?_⟩
  by_cases hlast : s.rx.rbAccumulated.toNat + n = s.rx.rbLength.toNat
  · rw [succeed_receiveBytes_done (s := u.setRx (s.rx.whole (word n))) (hop'.trans hop)
      (by rw [State.setRx_rx, hacc, hlength, hn, hlast])]
    simp only [State.setPoll_rx, State.setRx_rx, hlength, htotal, hreceived, hseq, hn]
    exact ⟨trivial, hlast.symm, fun _ => ⟨trivial, trivial, Receiver.whole_started hok hl _, trivial, trivial, trivial⟩,
      fun h => absurd rfl h⟩
  · rw [succeed_receiveBytes_next (s := u.setRx (s.rx.whole (word n))) (hop'.trans hop)
      (by rw [State.setRx_rx, hacc, hlength, hn]; omega)]
    have hsum := word_toNat (n := s.rx.rbAccumulated.toNat + n) (by omega)
    simp only [State.setRx_rx, hlength, hacc, hmode, hop', hop, hn, hsum]
    refine ⟨trivial, trivial, fun h => ?_,
      fun _ => ⟨trivial, trivial, trivial, word_toNat (by omega), trivial, trivial⟩⟩
    rw [← h, hsum] at hlast
    exact absurd rfl hlast

end Sys2Proof.Machine
end

section
/-! A whole transfer, sent (R130 to R138): its frames written as the sender's own recursion, and the run of sender
steps that hands all of them to a link that takes them. -/

namespace Sys2Proof.Machine

/-! ### An adapter that has taken frames -/

/-- The adapter after it has taken frames in order. -/
def Link.takingAll (l : Link) (frames : List RawFrame) : Link := frames.foldl Link.taking l

@[simp] theorem Link.takingAll_nil (l : Link) : l.takingAll [] = l := rfl

@[simp] theorem Link.takingAll_cons (l : Link) (raw : RawFrame) (frames : List RawFrame) :
    l.takingAll (raw :: frames) = (l.taking raw).takingAll frames := rfl

theorem Link.takingAll_append (l : Link) (frames more : List RawFrame) :
    l.takingAll (frames ++ more) = (l.takingAll frames).takingAll more := List.foldl_append

theorem Link.takingAll_sent (l : Link) (frames : List RawFrame) : (l.takingAll frames).sent = l.sent ++ frames := by
  induction frames generalizing l with
  | nil => simp
  | cons raw frames ih => simp [ih]

theorem Link.takingAll_loopback {l : Link} (h : l.adapter = .loopback) (frames : List RawFrame) :
    (l.takingAll frames).queue = l.queue ++ frames := by
  induction frames generalizing l with
  | nil => simp
  | cons raw frames ih => simp [ih (l := l.taking raw) ((l.taking_adapter raw).trans h), Link.taking_loopback h]

theorem Link.taking_accepts (l : Link) (raw : RawFrame) : (l.taking raw).accepts = l.accepts := by
  simp [Link.accepts]

theorem Link.takingAll_accepts (l : Link) (frames : List RawFrame) : (l.takingAll frames).accepts = l.accepts := by
  induction frames generalizing l with
  | nil => rfl
  | cons raw frames ih => rw [Link.takingAll_cons, ih, Link.taking_accepts]

/-! ### The body of a transfer, frame by frame -/

/-- How many CONSECUTIVE frames stand before the END frame of a body of `rem` bytes (R138). -/
def bodyCount (m : Mode) (rem : Nat) : Nat :=
  if rem ≤ m.endCapacity then 0 else (rem - m.endCapacity + m.consecutiveCapacity - 1) / m.consecutiveCapacity

theorem consecutiveCount_eq_bodyCount (m : Mode) (len : Nat) :
    consecutiveCount m len = bodyCount m (len - m.startCapacity) := rfl

/-- A CONSECUTIVE frame leaves a body with one CONSECUTIVE frame less. -/
theorem bodyCount_succ {m : Mode} {rem : Nat} (h : m.endCapacity < rem) :
    bodyCount m rem = bodyCount m (rem - m.consecutiveCapacity) + 1 := by
  unfold bodyCount
  rw [if_neg (Nat.not_le.2 h)]
  cases m <;> simp at h ⊢ <;> split <;> omega

theorem bodyCount_eq_zero {m : Mode} {rem : Nat} : bodyCount m rem = 0 ↔ rem ≤ m.endCapacity := by
  refine ⟨fun h => ?_, fun h => if_pos h⟩
  by_contra hlong
  rw [bodyCount_succ (Nat.not_le.1 hlong)] at h
  omega

/-- With CONSECUTIVE frames to come the body fits no END frame, and the next one leaves one less. -/
theorem bodyCount_eq_succ {m : Mode} {rem k : Nat} (h : bodyCount m rem = k + 1) :
    m.endCapacity < rem ∧ bodyCount m (rem - m.consecutiveCapacity) = k := by
  have hlong : m.endCapacity < rem := by
    by_contra hle
    rw [bodyCount_eq_zero.2 (Nat.not_lt.1 hle)] at h
    omega
  rw [bodyCount_succ hlong] at h
  exact ⟨hlong, Nat.succ.inj h⟩

/-- The frames of a body of `k` CONSECUTIVE frames and an END frame, the first with the given sequence number (R132).
-/
def bodyFrames (m : Mode) (id : Word) : Nat → Byte → List Byte → List RawFrame
  | 0, _, p => [⟨id, layoutEnd p⟩]
  | k + 1, sequence, p =>
    ⟨id, layoutConsecutive sequence (p.take m.consecutiveCapacity)⟩ ::
      bodyFrames m id k (sequence + 1) (p.drop m.consecutiveCapacity)

@[simp] theorem bodyFrames_length (m : Mode) (id : Word) (k : Nat) (sequence : Byte) (p : List Byte) :
    (bodyFrames m id k sequence p).length = k + 1 := by
  induction k generalizing sequence p with
  | zero => rfl
  | succ k ih => simp [bodyFrames, ih]

/-- The list of `transferFrames`, numbered from 0, is the sender's recursion. -/
theorem bodyFrames_eq_range (m : Mode) (id : Word) (k : Nat) (sequence : Byte) (p : List Byte) :
    bodyFrames m id k sequence p =
      (List.range k).map (fun j => ⟨id, layoutConsecutive (sequence + BitVec.ofNat 8 j)
        ((p.drop (j * m.consecutiveCapacity)).take m.consecutiveCapacity)⟩) ++
      [⟨id, layoutEnd (p.drop (k * m.consecutiveCapacity))⟩] := by
  induction k generalizing sequence p with
  | zero => simp [bodyFrames]
  | succ k ih =>
    have hseq : ∀ j, sequence + 1#8 + BitVec.ofNat 8 j = sequence + BitVec.ofNat 8 (j + 1) := fun j => by
      rw [BitVec.ofNat_add, BitVec.add_assoc, BitVec.add_comm 1#8]
    have hoff : ∀ j, m.consecutiveCapacity + j * m.consecutiveCapacity = (j + 1) * m.consecutiveCapacity := fun j => by
      rw [Nat.succ_mul, Nat.add_comm]
    rw [bodyFrames, ih, List.range_succ_eq_map]
    simp [List.drop_drop, Function.comp_def, hseq, hoff]

/-- The frames of a transfer: START, then the body of what START leaves. -/
theorem transferFrames_eq (msb : Bool) (m : Mode) (id : Word) (p : List Byte) :
    transferFrames msb m id p =
      ⟨id, layoutStart msb m (word p.length) (p.take m.startCapacity)⟩ ::
        if p.length ≤ m.startCapacity then []
        else bodyFrames m id (bodyCount m (p.length - m.startCapacity)) 0 (p.drop m.startCapacity) := by
  simp only [transferFrames, bodyFrames_eq_range, consecutiveCount_eq_bodyCount, List.drop_drop, zero_add]

theorem transferFrames_length (msb : Bool) (m : Mode) (id : Word) (p : List Byte) :
    (transferFrames msb m id p).length = frameCount m p.length := by
  rw [transferFrames_eq, frameCount, consecutiveCount_eq_bodyCount]
  split <;> simp

/-! ### The run of a sender -/

theorem finishTransfer_phase (t : Sender) (phase : TxPhase) :
    finishTransfer { t with phase := phase } = finishTransfer t := by
  unfold finishTransfer
  cases t.op with
  | sendTransfer => rfl
  | send =>
    simp only
    split <;> rfl

/-- From Body the sender hands over the frames of the rest and finishes the transfer, one frame a step. -/
theorem sender_runs_body (k : Nat) {s : State} (hok : s.tx.Ok) (hp : s.tx.phase = .body) (ha : s.link.accepts = true)
    (ht : s.turns = []) (hk : bodyCount s.tx.mode s.tx.remaining = k) :
    ∃ sequence, Sys2Proof.core.run (k + 1) s = .next
      ((s.setLink (s.link.takingAll
        (bodyFrames s.tx.mode s.tx.id k s.tx.seq (s.srcBytes s.tx.address s.tx.remaining)))).setTx
        (finishTransfer { s.tx with sent := s.tx.total, seq := sequence })) := by
  induction k generalizing s with
  | zero =>
    have hstep := senderStep_end_taken hok hp ha (bodyCount_eq_zero.1 hk)
    rw [← step_sender ht (Sender.busy_iff.2 (.inr hp))] at hstep
    exact ⟨s.tx.seq, run_succ 0 hstep⟩
  | succ k ih =>
    obtain ⟨hr, hk'⟩ := bodyCount_eq_succ hk
    have hcap : s.tx.mode.consecutiveCapacity < s.tx.mode.endCapacity := by cases s.tx.mode <;> decide
    have hspace := toNat_lt_space s.tx.total
    have hsum : s.tx.sent.toNat + s.tx.mode.consecutiveCapacity < offsetSpace := by
      have hspace := toNat_lt_space s.tx.total
      simp only [Sender.remaining] at hr
      omega
    have hstep := senderStep_consecutive_taken hok hp ha hr
    have hok' := senderStep_ok hok hstep
    rw [← step_sender ht (Sender.busy_iff.2 (.inr hp))] at hstep
    have hrem := Sender.advanced_remaining hsum
    have haddr := Sender.advanced_address hsum
    obtain ⟨sequence, hrun⟩ := ih hok' hp ((Link.taking_accepts _ _).trans ha) ht (hrem ▸ hk')
    refine ⟨sequence, (run_succ _ hstep).trans (hrun.trans ?_)⟩
    have hcap : s.tx.mode.consecutiveCapacity ≤ s.tx.remaining := by omega
    simp only [State.setTx_tx, hrem, haddr, bodyFrames, srcBytes_take, srcBytes_drop, min_eq_right hcap]
    rfl

/-- From Start the sender hands over the frames of its transfer and finishes it, one frame a step (R131, R132). -/
theorem sender_runs_transfer {s : State} (hok : s.tx.Ok) (hp : s.tx.phase = .start) (ha : s.link.accepts = true)
    (ht : s.turns = []) :
    ∃ sequence, Sys2Proof.core.run (frameCount s.tx.mode s.tx.total.toNat) s = .next
      ((s.setLink (s.link.takingAll (transferFrames s.params.lenMsbFirst s.tx.mode s.tx.id
        (s.srcBytes s.tx.base.toNat s.tx.total.toNat)))).setTx
        (finishTransfer { s.tx with sent := s.tx.total, seq := sequence })) := by
  rw [transferFrames_eq, srcBytes_length, srcBytes_take, word_of_toNat]
  have hturn := step_sender ht (Sender.busy_iff.2 (.inl hp))
  by_cases hw : s.tx.total.toNat ≤ s.tx.mode.startCapacity
  · have hstep := hturn.trans (senderStep_start_whole hok hp ha hw)
    rw [frameCount, if_pos hw, if_pos hw]
    exact ⟨s.tx.seq, run_succ 0 hstep⟩
  · have hm := Nat.not_le.1 hw
    have hstep := senderStep_start_more hok hp ha hm
    have hok' := senderStep_ok hok hstep
    have hcap := word_toNat (n := s.tx.mode.startCapacity) (hm.trans (toNat_lt_space _))
    obtain ⟨sequence, hrun⟩ := sender_runs_body (bodyCount s.tx.mode (s.tx.total.toNat - s.tx.mode.startCapacity))
      hok' rfl ((Link.taking_accepts _ _).trans ha) ht (by simp only [State.setTx_tx, Sender.remaining, hcap])
    refine ⟨sequence, ?_⟩
    rw [frameCount, if_neg hw, if_neg hw, consecutiveCount_eq_bodyCount, run_succ _ (hturn.trans hstep), hrun]
    have hseq : s.tx.seq = 0 := (hok.2.1 hp).2
    rw [srcBytes_drop]
    simp only [State.setTx_tx, Sender.address, Sender.remaining, hcap, hseq]
    refine congrArg (fun t => Host.Outcome.next (State.setTx _ t)) ?_
    exact finishTransfer_phase { s.tx with sent := s.tx.total, seq := sequence } .body

/-- Settles O32: SEND_TRANSFER begins a transfer in order; its run sends the frames and finishes it. -/
theorem sendTransferSendsExactlyItsFrames : Obligations.SendTransferSendsExactlyItsFrames := by
  intro s id len mode hb hl ha ht
  have hissue := exec_sendTransfer_of_fits hb hl id
  obtain ⟨sequence, hrun⟩ := sender_runs_transfer
    (s := s.setTx (beginTransfer 0 len.toNat { s.tx with id := id, mode := mode, op := .sendTransfer }))
    (sendTransfer_issued_ok rfl hl) rfl ha ht
  rw [finishTransfer_sendTransfer rfl] at hrun
  simp only [State.setTx_tx, beginTransfer, word_of_toNat] at hissue hrun
  refine ⟨_, _, hissue, hrun, rfl, rfl, rfl, Link.takingAll_sent _ _, ?_⟩
  rw [transferFrames_length, srcBytes_length]

end Sys2Proof.Machine
end

section
/-! The round trips (`95_test_vectors.md` section 1): the receiver's run over the frames of a transfer and of a
message, and what the loopback adapter carries from SRC to DST. -/

namespace Sys2Proof.Machine

/-! ### Runs of any length -/

/-- Some number of steps leads from one state to the other. -/
def Reaches (s t : State) : Prop := ∃ n, Sys2Proof.core.run n s = .next t

theorem Reaches.step {s t : State} (h : step s = .next t) : Reaches s t := ⟨1, run_succ 0 h⟩

theorem Reaches.trans {s t u : State} (h : Reaches s t) (k : Reaches t u) : Reaches s u := by
  obtain ⟨a, ha⟩ := h
  obtain ⟨b, hb⟩ := k
  exact ⟨a + b, (run_add a b ha).trans hb⟩

/-- Every run keeps the invariant. -/
theorem run_inv (n : Nat) {s t : State} (hinv : s.Inv) (h : Sys2Proof.core.run n s = .next t) : t.Inv := by
  induction n generalizing s with
  | zero => cases h; exact hinv
  | succ n ih =>
    simp only [Host.Core.run] at h
    split at h
    · exact ih (everyStepKeepsTheInvariant _ _ hinv ‹_›) h
    · cases h
    · cases h

theorem Reaches.inv {s t : State} (h : Reaches s t) (hinv : s.Inv) : t.Inv :=
  h.elim fun n hn => run_inv n hinv hn

/-! ### What a receiver has collected -/

/-- From `s` to `t` the receiver has polled all of the queue but `rest`, stored `p` from `off` on, and written no
register of its operation. -/
structure Collects (s t : State) (off : Nat) (p : List Byte) (rest : List RawFrame) : Prop where
  only : ReceiverOnly s t
  queue : t.link.queue = rest
  stored : DstStored s t off p
  operation : t.rx.operation = s.rx.operation

/-- Stores that follow each other store the bytes in a row. -/
theorem DstStored.append {s t u : State} {off : Nat} {p q : List Byte} (h : DstStored s t off p)
    (k : DstStored t u (off + p.length) q) : DstStored s u off (p ++ q) := by
  obtain ⟨hin, hout⟩ := h
  obtain ⟨kin, kout⟩ := k
  refine ⟨fun j hj => ?_, fun a ha => ?_⟩
  · by_cases hjp : j < p.length
    · rw [List.getElem_append_left hjp, ← hin j hjp]
      exact kout _ (.inl (by omega))
    · rw [List.length_append] at hj
      rw [List.getElem_append_right (by omega), ← kin (j - p.length) (by omega)]
      congr 1
      omega
  · rw [List.length_append] at ha
    exact (kout a (by omega)).trans (hout a (by omega))

theorem Collects.trans {s t u : State} {off : Nat} {p q : List Byte} {rest last : List RawFrame}
    (h : Collects s t off p rest) (k : Collects t u (off + p.length) q last) : Collects s u off (p ++ q) last :=
  ⟨h.only.trans k.only, k.queue, h.stored.append k.stored, k.operation.trans h.operation⟩

theorem Collects.pending {s t : State} {off : Nat} {p : List Byte} {rest : List RawFrame}
    (h : Collects s t off p rest) : Collects s (pending t) off p rest :=
  ⟨h.only, h.queue, h.stored, h.operation⟩

/-- Success touches neither DST nor the queue. -/
theorem Collects.succeed {s t : State} {off : Nat} {p : List Byte} {rest : List RawFrame}
    (h : Collects s t off p rest) (n : Word) :
    ReceiverOnly s (succeed n t) ∧ (succeed n t).link.queue = rest ∧ DstStored s (succeed n t) off p := by
  refine ⟨h.only.trans ?_, ?_, h.stored.of_readDst_eq (succeed_readDst n t)⟩
  · rw [succeed_frame]
    exact ReceiverOnly.refl t
  · rw [succeed_frame]
    exact h.queue

/-- A store after a poll. -/
theorem collects_of_memWriteDst {s u : State} {rest : List RawFrame} {off : Nat} {v : List Byte} {rx : Receiver}
    (hd : Memory.wf s.dst) (hu : memWriteDst (s.setLink { s.link with queue := rest }) off v = some u)
    (hrx : rx.operation = s.rx.operation) : Collects s (u.setRx rx) off v rest := by
  have hframe := memWriteDst_frame hu
  have hstored := memWriteDst_stored hu hd
  refine ⟨?_, ?_, hstored, hrx⟩
  · rw [hframe]
    exact ⟨rfl, rfl, rfl, rfl, rfl, rfl, rfl, rfl⟩
  · rw [hframe]
    rfl

/-! ### One step of a receiver with the turn -/

/-- With no script and a sender that is not busy a live receiver polls. -/
theorem step_polls {s : State} {raw : RawFrame} {rest : List RawFrame} {f : LogicalFrame} (hb : s.tx.busy = false)
    (hl : s.rx.live = true) (ht : s.turns = []) (hq : s.link.queue = raw :: rest) (hid : raw.id = s.params.rxId)
    (hp : parseFrame s.params.lenMsbFirst s.rx.mode raw.bytes = .ok f) :
    step s = acceptFrame f (s.setLink { s.link with queue := rest }) := by
  have hn : s.nextTurn = .receiver := by simp [State.nextTurn, ht, hb, hl]
  have hs : s.setTurns s.turns.tail = s := by
    rw [ht]
    exact congrArg (fun t => s.setTurns t) ht.symm
  rw [step_receiver_turn hn, hs, receiverStep_of_live hl, pollStep_cons hq]
  exact examineFrame_ok (s := s.setLink { s.link with queue := rest }) hid hp

section
variable {s : State} {rest : List RawFrame} (hinv : s.Inv) (hb : s.tx.busy = false) (ht : s.turns = [])
include hinv hb ht

/-- R171 as a step: the next CONSECUTIVE frame. -/
theorem step_collects_consecutive {data : List Byte} (hst : s.rx.state = .awaitingMore)
    (hq : s.link.queue = ⟨s.params.rxId, layoutConsecutive s.rx.expectedSequence data⟩ :: rest)
    (hd : data.length ≤ s.rx.mode.consecutiveCapacity)
    (hfit : s.rx.receivedLength.toNat + data.length ≤ s.rx.totalLength.toNat) :
    ∃ t, step s = .next t ∧ Collects s t s.rx.address data rest ∧
      t.rx = { s.rx with
        receivedLength := word (s.rx.receivedLength.toNat + data.length),
        expectedSequence := s.rx.expectedSequence + 1 } := by
  obtain ⟨hok, -, -, hdst, -⟩ := hinv
  obtain ⟨u, hu⟩ := memWriteDst_within_total (s := s.setLink { s.link with queue := rest }) hok hst hfit
  have hstep := step_polls hb (Receiver.live_of_awaitingMore hst) ht hq rfl (parseFrame_consecutive hd)
  have haccept := acceptConsecutive_stored (s := s.setLink { s.link with queue := rest }) hok hst hfit hu
  exact ⟨_, hstep.trans haccept, .pending (collects_of_memWriteDst hdst.1 hu rfl), rfl⟩

/-- R173 as a step: the END frame with exactly the bytes the transfer lacks. -/
theorem step_collects_end {data : List Byte} (hst : s.rx.state = .awaitingMore)
    (hq : s.link.queue = ⟨s.params.rxId, layoutEnd data⟩ :: rest)
    (hd : data.length ≤ s.rx.mode.endCapacity) (hlen : data.length = s.rx.bytesLeft) :
    ∃ u, step s = .next (succeed s.rx.totalLength u) ∧ Collects s u s.rx.address data rest := by
  obtain ⟨hok, -, -, hdst, -⟩ := hinv
  have hbounds := hok.awaitingMore_bounds hst
  obtain ⟨u, hu⟩ := memWriteDst_within_total (s := s.setLink { s.link with queue := rest }) (v := data) hok hst
    (by rw [hlen, Receiver.bytesLeft]; simp only [State.setLink_rx]; omega)
  have hstep := step_polls hb (Receiver.live_of_awaitingMore hst) ht hq rfl (parseFrame_end hd)
  have haccept := acceptEnd_stored (s := s.setLink { s.link with queue := rest }) hok hst hlen.ge
    ((List.take_of_length_le hlen.le).symm ▸ hu)
  exact ⟨_, hstep.trans haccept, collects_of_memWriteDst hdst.1 hu rfl⟩

/-- R169 as a step: the START frame that holds its whole transfer. -/
theorem step_collects_start_whole {p : List Byte} (hst : s.rx.state = .awaitingStart)
    (hq : s.link.queue = ⟨s.params.rxId, layoutStart s.params.lenMsbFirst s.rx.mode (word p.length) p⟩ :: rest)
    (hd : p.length ≤ s.rx.mode.startCapacity) (hmax : p.length ≤ s.rx.mode.maxTransfer)
    (hfit : p.length ≤ s.rx.capacity.toNat) :
    ∃ u, step s = .next (succeed (word p.length) u) ∧ Collects s u s.rx.base.toNat p rest := by
  obtain ⟨hok, -, -, hdst, -⟩ := hinv
  have htotal : (word p.length).toNat = p.length := word_toNat (hfit.trans_lt (toNat_lt_space _))
  have hfield : (word p.length).toNat ≤ s.rx.mode.maxLenField := by
    rw [htotal]
    exact hmax.trans (Mode.maxTransfer_le_maxLenField _)
  have hstored : p.take (startStored (word p.length) p) = p := by simp [startStored, htotal]
  obtain ⟨u, hu⟩ := memWriteDst_start (s := s.setLink { s.link with queue := rest }) (data := p) hok hst
    (htotal.le.trans hfit)
  have hstep := step_polls hb (Receiver.live_of_awaitingStart hst) ht hq rfl (parseFrame_start hd hfield)
  have haccept := acceptStart_whole (s := s.setLink { s.link with queue := rest }) hst (htotal.le.trans hfit)
    htotal.le hu
  rw [hstored] at hu
  exact ⟨_, hstep.trans haccept, collects_of_memWriteDst hdst.1 hu rfl⟩

/-- R169 as a step: the START frame the body follows. -/
theorem step_collects_start_more {data : List Byte} {total : Word} (hst : s.rx.state = .awaitingStart)
    (hq : s.link.queue = ⟨s.params.rxId, layoutStart s.params.lenMsbFirst s.rx.mode total data⟩ :: rest)
    (hd : data.length ≤ s.rx.mode.startCapacity) (hmax : total.toNat ≤ s.rx.mode.maxTransfer)
    (hfit : total.toNat ≤ s.rx.capacity.toNat) (hmore : data.length < total.toNat) :
    ∃ t, step s = .next t ∧ Collects s t s.rx.base.toNat data rest ∧
      t.rx = { s.rx.starting total data.length with state := .awaitingMore } := by
  obtain ⟨hok, -, -, hdst, -⟩ := hinv
  have hfield := hmax.trans (Mode.maxTransfer_le_maxLenField _)
  have hstored : data.take (startStored total data) = data := by simp [startStored, hmore.le]
  obtain ⟨u, hu⟩ := memWriteDst_start (s := s.setLink { s.link with queue := rest }) (data := data) hok hst hfit
  have hstep := step_polls hb (Receiver.live_of_awaitingStart hst) ht hq rfl (parseFrame_start hd hfield)
  have haccept := acceptStart_more (s := s.setLink { s.link with queue := rest }) hst hfit hmore hu
  rw [hstored] at hu
  exact ⟨_, hstep.trans haccept, .pending (collects_of_memWriteDst hdst.1 hu rfl), rfl⟩

end

/-! ### The run of a receiver -/

/-- In AwaitingMore the receiver collects the frames of the body its transfer lacks and succeeds. -/
theorem receiver_runs_body (k : Nat) {s : State} {p : List Byte} {rest : List RawFrame} (hinv : s.Inv)
    (hb : s.tx.busy = false) (ht : s.turns = []) (hst : s.rx.state = .awaitingMore)
    (hq : s.link.queue = bodyFrames s.rx.mode s.params.rxId k s.rx.expectedSequence p ++ rest)
    (hlen : p.length = s.rx.bytesLeft) (hk : bodyCount s.rx.mode p.length = k) :
    ∃ u, Reaches s (succeed s.rx.totalLength u) ∧ Collects s u s.rx.address p rest := by
  induction k generalizing s p with
  | zero =>
    obtain ⟨u, hstep, hcollects⟩ := step_collects_end hinv hb ht hst hq (bodyCount_eq_zero.1 hk) hlen
    exact ⟨u, .step hstep, hcollects⟩
  | succ k ih =>
    obtain ⟨hlong, hk'⟩ := bodyCount_eq_succ hk
    have hcap : s.rx.mode.consecutiveCapacity ≤ s.rx.mode.endCapacity := by cases s.rx.mode <;> decide
    have hchunk : (p.take s.rx.mode.consecutiveCapacity).length = s.rx.mode.consecutiveCapacity := by
      rw [List.length_take]
      omega
    have hspace := toNat_lt_space s.rx.totalLength
    simp only [Receiver.bytesLeft] at hlen
    obtain ⟨t, hstep, hcollects, hrx⟩ := step_collects_consecutive hinv hb ht hst hq hchunk.le (by omega)
    rw [hchunk] at hrx
    have hreceived := word_toNat (n := s.rx.receivedLength.toNat + s.rx.mode.consecutiveCapacity) (by omega)
    obtain ⟨htx, hparams, -, -, -, hturns, -, -⟩ := hcollects.only
    obtain ⟨u, hreach, hrest⟩ := ih (s := t) (p := p.drop s.rx.mode.consecutiveCapacity)
      (everyStepKeepsTheInvariant _ _ hinv hstep) (htx ▸ hb) (hturns.trans ht) (by rw [hrx]; exact hst)
      (by rw [hcollects.queue, hrx, hparams]; rfl)
      (by simp only [hrx, Receiver.bytesLeft, hreceived, List.length_drop]; omega)
      (by rw [hrx, List.length_drop]; exact hk')
    refine ⟨u, ?_, ?_⟩
    · rw [hrx] at hreach
      exact (Reaches.step hstep).trans hreach
    · have haddr : t.rx.address = s.rx.address + (p.take s.rx.mode.consecutiveCapacity).length := by
        simp only [hrx, Receiver.address, hreceived, hchunk, Nat.add_assoc]
      rw [haddr] at hrest
      simpa using hcollects.trans hrest

/-- In AwaitingStart the receiver collects the frames of a transfer that fits its capacity and succeeds with its
length. -/
theorem receiver_runs_transfer {s : State} {p : List Byte} {rest : List RawFrame} (hinv : s.Inv)
    (hb : s.tx.busy = false) (ht : s.turns = []) (hst : s.rx.state = .awaitingStart)
    (hq : s.link.queue = transferFrames s.params.lenMsbFirst s.rx.mode s.params.rxId p ++ rest)
    (hmax : p.length ≤ s.rx.mode.maxTransfer) (hfit : p.length ≤ s.rx.capacity.toNat) :
    ∃ u, Reaches s (succeed (word p.length) u) ∧ Collects s u s.rx.base.toNat p rest := by
  rw [transferFrames_eq] at hq
  by_cases hw : p.length ≤ s.rx.mode.startCapacity
  · rw [if_pos hw, List.take_of_length_le hw] at hq
    obtain ⟨u, hstep, hcollects⟩ := step_collects_start_whole hinv hb ht hst hq hw hmax hfit
    exact ⟨u, .step hstep, hcollects⟩
  · rw [if_neg hw] at hq
    have htotal : (word p.length).toNat = p.length := word_toNat (hfit.trans_lt (toNat_lt_space _))
    have hchunk : (p.take s.rx.mode.startCapacity).length = s.rx.mode.startCapacity := by
      rw [List.length_take]
      omega
    obtain ⟨t, hstep, hcollects, hrx⟩ := step_collects_start_more hinv hb ht hst hq hchunk.le
      (htotal.le.trans hmax) (htotal.le.trans hfit) (by omega)
    rw [hchunk] at hrx
    have hspace := toNat_lt_space s.rx.capacity
    have hreceived := word_toNat (n := s.rx.mode.startCapacity) (by omega)
    obtain ⟨htx, hparams, -, -, -, hturns, -, -⟩ := hcollects.only
    obtain ⟨u, hreach, hrest⟩ := receiver_runs_body (s := t) (p := p.drop s.rx.mode.startCapacity) _
      (everyStepKeepsTheInvariant _ _ hinv hstep) (htx ▸ hb) (hturns.trans ht) (by rw [hrx])
      (by rw [hcollects.queue, hrx, hparams]; rfl)
      (by simp only [hrx, Receiver.starting, Receiver.bytesLeft, htotal, hreceived, List.length_drop])
      (by simp [hrx, Receiver.starting])
    refine ⟨u, ?_, ?_⟩
    · rw [hrx] at hreach
      exact (Reaches.step hstep).trans hreach
    · have haddr : t.rx.address = s.rx.base.toNat + (p.take s.rx.mode.startCapacity).length := by
        simp only [hrx, Receiver.starting, Receiver.address, hreceived, hchunk]
      rw [haddr] at hrest
      simpa using hcollects.trans hrest

end Sys2Proof.Machine
end

section
/-! Messages over the loopback adapter (P1, P2): a message as the frames of its slices, the runs that send and collect
it, and the two round trips. -/

namespace Sys2Proof.Machine

/-! ### The frames of a message -/

/-- The frames SEND hands over for the message `p`: those of one transfer after another, each of `max_transfer` bytes
but the last (R140, R141). -/
inductive MessageFrames (msb : Bool) (m : Mode) (id : Word) : List Byte → List RawFrame → Prop
  | last {p : List Byte} : p.length ≤ m.maxTransfer → MessageFrames msb m id p (transferFrames msb m id p)
  | more {p : List Byte} {frames : List RawFrame} : m.maxTransfer < p.length →
      MessageFrames msb m id (p.drop m.maxTransfer) frames →
      MessageFrames msb m id p (transferFrames msb m id (p.take m.maxTransfer) ++ frames)

theorem maxTransfer_pos (m : Mode) : 0 < m.maxTransfer := by cases m <;> decide

/-- Inside SEND the sender hands over the frames of one slice; it is then done, or about to send the next one. -/
theorem sender_runs_slice {s : State} (hok : s.tx.Ok) (hop : s.tx.op = .send) (hp : s.tx.phase = .start)
    (ha : s.link.accepts = true) (ht : s.turns = []) :
    ∃ tx : Sender, Reaches s ((s.setLink (s.link.takingAll (transferFrames s.params.lenMsbFirst s.tx.mode s.tx.id
        (s.srcBytes s.tx.msgOff.toNat s.tx.total.toNat)))).setTx tx) ∧
      (s.tx.msgLen.toNat ≤ s.tx.msgOff.toNat + s.tx.total.toNat → tx.phase = .done ∧ tx.resultLen = s.tx.msgLen) ∧
      (s.tx.msgOff.toNat + s.tx.total.toNat < s.tx.msgLen.toNat →
        tx.Ok ∧ tx.op = .send ∧ tx.phase = .start ∧ tx.mode = s.tx.mode ∧ tx.id = s.tx.id ∧ tx.msgLen = s.tx.msgLen ∧
          tx.msgOff.toNat = s.tx.msgOff.toNat + s.tx.total.toNat) := by
  obtain ⟨sequence, hrun⟩ := sender_runs_transfer hok hp ha ht
  obtain ⟨-, -, -, -, hsend⟩ := hok
  obtain ⟨hbase, -, -⟩ := hsend (Sender.busy_iff.2 (.inl hp)) hop
  rw [hbase] at hrun
  refine ⟨_, ⟨_, hrun⟩, fun hdone => ?_, fun hmore => ⟨finishTransfer_ok _, ?_⟩⟩
  · rw [finishTransfer_send_done (t := { s.tx with sent := s.tx.total, seq := sequence }) hop hdone]
    exact ⟨rfl, rfl⟩
  · rw [finishTransfer_send_next (t := { s.tx with sent := s.tx.total, seq := sequence }) hop hmore]
    exact ⟨hop, rfl, rfl, rfl, rfl, word_toNat (hmore.trans (toNat_lt_space _))⟩

/-- Issued over a link that takes every frame, SEND hands over the frames of the rest of its message and is done. -/
theorem sender_runs_message {s : State} (hok : s.tx.Ok) (hop : s.tx.op = .send) (hp : s.tx.phase = .start)
    (ha : s.link.accepts = true) (ht : s.turns = []) :
    ∃ frames tx, Reaches s ((s.setLink (s.link.takingAll frames)).setTx tx) ∧
      MessageFrames s.params.lenMsbFirst s.tx.mode s.tx.id
        (s.srcBytes s.tx.msgOff.toNat (s.tx.msgLen.toNat - s.tx.msgOff.toNat)) frames ∧
      tx.phase = .done ∧ tx.resultLen = s.tx.msgLen := by
  induction hrem : s.tx.msgLen.toNat - s.tx.msgOff.toNat using Nat.strong_induction_on generalizing s with
  | _ rem ih =>
    obtain ⟨tx, hreach, hlast, hmore⟩ := sender_runs_slice hok hop hp ha ht
    obtain ⟨-, -, -, -, hsend⟩ := hok
    obtain ⟨-, htotal, hslice⟩ := hsend (Sender.busy_iff.2 (.inl hp)) hop
    rw [nextSlice, hrem] at htotal
    by_cases hdone : s.tx.msgLen.toNat ≤ s.tx.msgOff.toNat + s.tx.total.toNat
    · rw [show s.tx.total.toNat = rem by omega] at hreach
      exact ⟨_, tx, hreach, .last (by rw [srcBytes_length]; omega), hlast hdone⟩
    · obtain ⟨hok', hop', hp', hmode, hid, hlen, hoff⟩ := hmore (Nat.not_le.1 hdone)
      have hpos := maxTransfer_pos s.tx.mode
      rw [show s.tx.total.toNat = s.tx.mode.maxTransfer by omega] at hreach hoff
      obtain ⟨frames, tx', hreach', hframes, hend⟩ := ih (rem - s.tx.mode.maxTransfer) (by omega)
        (s := (s.setLink (s.link.takingAll _)).setTx tx) hok' hop' hp' ((Link.takingAll_accepts _ _).trans ha) ht
        (by rw [State.setTx_tx, hlen, hoff]; omega)
      simp only [State.setTx_tx, hmode, hid, hlen, hoff] at hframes hend
      have htake : (s.srcBytes s.tx.msgOff.toNat rem).take s.tx.mode.maxTransfer =
          s.srcBytes s.tx.msgOff.toNat s.tx.mode.maxTransfer := by
        rw [srcBytes_take, min_eq_right (by omega)]
      refine ⟨_, tx', hreach.trans ?_,
        .more (by rw [srcBytes_length]; omega) ((srcBytes_drop s _ _ _).symm ▸ hframes), hend⟩
      rw [htake, Link.takingAll_append]
      exact hreach'

/-! ### Collecting a message -/

/-- RECEIVE_BYTES collects the frames of a message of exactly its room and is done with its length (R184 to R187). -/
theorem receiver_runs_message {msb : Bool} {m : Mode} {id : Word} {p : List Byte} {frames : List RawFrame}
    (h : MessageFrames msb m id p frames) {s : State} (hinv : s.Inv) (hb : s.tx.busy = false) (ht : s.turns = [])
    (hop : s.rx.op = .receiveBytes) (hst : s.rx.state = .awaitingStart) (hparams : s.params = ⟨id, msb⟩)
    (hm : s.rx.mode = m) (hq : s.link.queue = frames) (hroom : p.length = s.rx.capacity.toNat) :
    ∃ t, Reaches s t ∧ ReceiverOnly s t ∧ t.link.queue = [] ∧ DstStored s t s.rx.base.toNat p ∧
      t.rx.state = .done ∧ t.rx.resultLen = s.rx.rbLength := by
  induction h generalizing s with
  | @last p hmax =>
    subst hm
    obtain ⟨u, hreach, hcollects⟩ := receiver_runs_transfer (rest := []) (p := p) hinv hb ht hst
      (by rw [hq, hparams, List.append_nil]) hmax hroom.le
    obtain ⟨honly, hqueue, hstored⟩ := hcollects.succeed (word p.length)
    obtain ⟨hop', -, hlength, hacc⟩ := Receiver.operation_eq_iff.1 hcollects.operation
    obtain ⟨-, hrest⟩ := hinv.1.receiveBytes_room (Receiver.live_of_awaitingStart hst) hop
    have hn : (word p.length).toNat = p.length := word_toNat (hroom.trans_lt (toNat_lt_space _))
    refine ⟨_, hreach, honly, hqueue, hstored, ?_⟩
    rw [succeed_receiveBytes_done (hop'.trans hop) (by rw [hacc, hlength, hn]; omega)]
    exact ⟨rfl, hlength⟩
  | @more p frames hmax hframes ih =>
    subst hm
    have hslice : (p.take s.rx.mode.maxTransfer).length = s.rx.mode.maxTransfer := by
      rw [List.length_take]
      omega
    obtain ⟨u, hreach, hcollects⟩ := receiver_runs_transfer (rest := frames) (p := p.take s.rx.mode.maxTransfer)
      hinv hb ht hst (by rw [hq, hparams]) hslice.le (by omega)
    rw [hslice] at hreach
    obtain ⟨honly, hqueue, hstored⟩ := hcollects.succeed (word s.rx.mode.maxTransfer)
    obtain ⟨hop', hmode, hlength, hacc⟩ := Receiver.operation_eq_iff.1 hcollects.operation
    obtain ⟨hbase, hrest⟩ := hinv.1.receiveBytes_room (Receiver.live_of_awaitingStart hst) hop
    have hspace := toNat_lt_space s.rx.rbLength
    have hn : (word s.rx.mode.maxTransfer).toNat = s.rx.mode.maxTransfer := word_toNat (by omega)
    have hrx := succeed_receiveBytes_next (n := word s.rx.mode.maxTransfer) (hop'.trans hop)
      (by rw [hacc, hlength, hn]; omega)
    have hbase' : (succeed (word s.rx.mode.maxTransfer) u).rx.base.toNat =
        s.rx.base.toNat + (p.take s.rx.mode.maxTransfer).length := by
      rw [hrx]
      simp only [hacc, hn]
      rw [word_toNat (by omega), hbase, hslice]
    obtain ⟨htx, hparams', -, -, -, hturns, -, -⟩ := honly
    obtain ⟨t, hreach', honly', hqueue', hstored', hdone, hresult⟩ := ih (hreach.inv hinv) (htx ▸ hb) (hturns.trans ht)
      (by rw [hrx]; exact hop'.trans hop) (by rw [hrx]) (hparams'.trans hparams) (by rw [hrx]; exact hmode) hqueue
      (by
        rw [hrx, List.length_drop]
        simp only [hacc, hn, hlength]
        rw [word_toNat (by omega)]
        omega)
    rw [hbase'] at hstored'
    refine ⟨t, hreach.trans hreach', (hcollects.succeed _).1.trans honly', hqueue', ?_, hdone, ?_⟩
    · simpa using hstored.append hstored'
    · rw [hresult, hrx]
      exact hlength

/-! ### The round trips -/

/-- With no script and no operation in progress the caller issues the command at the port. -/
theorem step_issues {s : State} {c : Command} {rest : List Command} {i : Instr} (hb : s.tx.busy = false)
    (hl : s.rx.live = false) (ht : s.turns = []) (hc : s.commands = c :: rest) (hi : decodeCommand c = .ok i) :
    step s = exec i (s.setCommands rest) := by
  have hn : s.nextTurn = .caller := by simp [State.nextTurn, ht, hb, hl]
  rw [step_caller hn hc hi, ht, List.tail_nil, ← ht]
  rfl

/-- The caller reads the bytes of SRC where they have been stored. -/
theorem readDst_of_stored_srcBytes {s t : State} {off n : Nat} (h : DstStored s t off (s.srcBytes off n)) :
    (∀ a, off ≤ a → a < off + n → t.readDst a = s.readSrc a) ∧
      ∀ a, a < off ∨ off + n ≤ a → t.readDst a = s.readDst a := by
  obtain ⟨hin, hout⟩ := h
  rw [srcBytes_length] at hout
  refine ⟨fun a hlo hhi => ?_, hout⟩
  have hk := hin (a - off) (by rw [srcBytes_length]; omega)
  simpa [State.srcBytes, Nat.add_sub_cancel' hlo] using hk

theorem Link.takingAll_empty {l : Link} (ha : l.adapter = .loopback) (hq : l.queue = []) (frames : List RawFrame) :
    (l.takingAll frames).queue = frames := by
  rw [Link.takingAll_loopback ha, hq, List.nil_append]

section
variable {s : State} {rest : List Command} (hb : s.tx.busy = false) (hl : s.rx.live = false) (ht : s.turns = [])
  (ha : s.link.adapter = .loopback) (hq : s.link.queue = [])
include hb hl ht ha hq

/-- SEND_TRANSFER at the command port fills the empty loopback queue with the frames of its transfer. -/
theorem sendTransfer_fills_queue {id len : Word} {mode : Mode} (hlen : len.toNat ≤ mode.maxTransfer)
    (hc : s.commands = ⟨0x06#8, { id := id, len := len, mode := mode }⟩ :: rest) :
    ∃ tx link, Reaches s { s with commands := rest, tx := tx, link := link } ∧ tx.phase = .done ∧ tx.resultLen = len ∧
      link.queue = transferFrames s.params.lenMsbFirst mode id (s.srcBytes 0 len.toNat) := by
  have hissue := step_issues hb hl ht hc rfl
  rw [exec_sendTransfer_of_fits (s := s.setCommands rest) hb hlen] at hissue
  obtain ⟨sequence, hrun⟩ := sender_runs_transfer
    (s := (s.setCommands rest).setTx (beginTransfer 0 len.toNat { s.tx with
      id := id, mode := mode, op := .sendTransfer }))
    (sendTransfer_issued_ok rfl hlen) rfl (Link.accepts_of_loopback ha) ht
  rw [finishTransfer_sendTransfer rfl] at hrun
  refine ⟨_, _, (Reaches.step hissue).trans ⟨_, hrun⟩, rfl, ?_, ?_⟩
  · exact word_of_toNat len
  · refine (Link.takingAll_empty ha hq _).trans ?_
    simp only [State.setTx_tx, beginTransfer, word_of_toNat]
    rfl

/-- SEND at the command port fills it with the frames of its message. -/
theorem send_fills_queue {id len : Word} {mode : Mode}
    (hc : s.commands = ⟨0x07#8, { id := id, len := len, mode := mode }⟩ :: rest) :
    ∃ tx link, Reaches s { s with commands := rest, tx := tx, link := link } ∧ tx.phase = .done ∧ tx.resultLen = len ∧
      MessageFrames s.params.lenMsbFirst mode id (s.srcBytes 0 len.toNat) link.queue := by
  have hissue := step_issues hb hl ht hc rfl
  rw [exec_send_of_not_busy (s := s.setCommands rest) hb] at hissue
  obtain ⟨frames, tx, hreach, hframes, hdone, hresult⟩ := sender_runs_message
    (s := (s.setCommands rest).setTx (beginTransfer 0 (nextSlice mode len.toNat 0) { s.tx with
      id := id, mode := mode, op := .send, msgLen := len, msgOff := 0 }))
    (send_issued_ok rfl rfl) rfl rfl (Link.accepts_of_loopback ha) ht
  refine ⟨tx, _, (Reaches.step hissue).trans hreach, hdone, hresult, ?_⟩
  exact (Link.takingAll_empty ha hq frames).symm ▸ hframes

end

/-- Settles O59: SEND_TRANSFER fills the loopback queue with the transfer's frames, and RECEIVE collects them. -/
theorem oneTransferRoundTrips : Obligations.OneTransferRoundTrips := by
  intro s len capacity mode hinv hb hl ht ha hq hlen hcap hc
  obtain ⟨tx, link, hsend, hdone, hresult, hqueue⟩ := sendTransfer_fills_queue hb hl ht ha hq hlen hc
  have hbusy : tx.busy = false := by simp [Sender.busy, hdone]
  have hissue := step_issues
    (s := { s with commands := [⟨0x09#8, { capacity := capacity, mode := mode }⟩], tx := tx, link := link })
    hbusy hl ht rfl rfl
  rw [exec_receive_of_not_live (by exact hl)] at hissue
  have hissued := hsend.trans (.step hissue)
  obtain ⟨u, hcollect, hcollects⟩ := receiver_runs_transfer (p := s.srcBytes 0 len.toNat) (rest := [])
    (hissued.inv hinv) hbusy ht rfl (by rw [List.append_nil]; exact hqueue) (by rw [srcBytes_length]; exact hlen)
    (by rw [srcBytes_length]; exact hcap.trans_eq (congrArg BitVec.toNat (word_of_toNat capacity)).symm)
  obtain ⟨⟨htx, -, hsrc, hcommands, -⟩, hempty, hstored⟩ := hcollects.succeed (word (s.srcBytes 0 len.toNat).length)
  obtain ⟨n, hrun⟩ := hissued.trans hcollect
  obtain ⟨hop, -⟩ := Receiver.operation_eq_iff.1 hcollects.operation
  obtain ⟨hin, hout⟩ := readDst_of_stored_srcBytes (s := s) (off := 0) hstored
  refine ⟨n, _, hrun, by rw [htx]; exact hdone, by rw [htx]; exact hresult, ?_, ?_, hcommands, hempty, hsrc,
    fun a ha => hin a (Nat.zero_le a) (by omega), fun a ha => hout a (by omega)⟩
  · rw [succeed_receive hop]
  · rw [succeed_receive hop, srcBytes_length, word_of_toNat]

/-- Settles O60: SEND fills the loopback queue with the message's frames, and RECEIVE_BYTES collects them. -/
theorem messagesRoundTrip : Obligations.MessagesRoundTrip := by
  intro s len mode hinv hb hl ht ha hq hc
  obtain ⟨tx, link, hsend, hdone, hresult, hframes⟩ := send_fills_queue hb hl ht ha hq hc
  have hbusy : tx.busy = false := by simp [Sender.busy, hdone]
  have hissue := step_issues
    (s := { s with commands := [⟨0x0A#8, { length := len, mode := mode }⟩], tx := tx, link := link })
    hbusy hl ht rfl rfl
  rw [exec_receiveBytes_of_not_live (by exact hl)] at hissue
  have hissued := hsend.trans (.step hissue)
  obtain ⟨t, hcollect, ⟨htx, -, hsrc, hcommands, -⟩, hempty, hstored, hrx, hrxresult⟩ := receiver_runs_message hframes
    (hissued.inv hinv) hbusy ht rfl rfl rfl rfl rfl
    (by rw [srcBytes_length]; exact (congrArg BitVec.toNat (word_of_toNat len)).symm)
  obtain ⟨n, hrun⟩ := hissued.trans hcollect
  obtain ⟨hin, hout⟩ := readDst_of_stored_srcBytes (s := s) (off := 0) hstored
  exact ⟨n, t, hrun, by rw [htx]; exact hdone, by rw [htx]; exact hresult, hrx, hrxresult, hcommands, hempty, hsrc,
    fun a ha => hin a (Nat.zero_le a) (by omega), fun a ha => hout a (by omega)⟩

end Sys2Proof.Machine
end
